-- ==== Sys2Proof/Word.lean ====
section
/-! DEFINITION. The widths of spec/00_scope.md rule R5 as bit vector types. -/

namespace Sys2Proof

/-- A command word (R80): CMD_W = 16 bits. -/
abbrev CmdWord := BitVec 16

/-- A byte of the source, of the container or of OUT (R5): BYTE_W = 8 bits. -/
abbrev Byte := BitVec 8

/-- A symbol (R5): SYM_W = 9 bits, 0..255 a literal, 256 the sentinel, 257 the "no symbol" marker. -/
abbrev Symbol := BitVec 9

/-- A frequency count (R5): COUNT_W = 32 bits. -/
abbrev Count := BitVec 32

/-- The count of a tree node (R5): WEIGHT_W = 41 bits. -/
abbrev Weight := BitVec 41

/-- The index of a tree node (R5): IDX_W = 10 bits. -/
abbrev NodeIdx := BitVec 10

/-- The data field of a response (R5, R90): RDATA_W = 272 bits. -/
abbrev RData := BitVec 272

/-- A code (R8): the labels of the edges from the root to a leaf, `false` for a zero-child edge and
`true` for a one-child edge, the edge at the root first. -/
abbrev Code := List Bool

end Sys2Proof
end

