-- ==== Sys2Proof/Syntax.lean ====
section
/-! DEFINITION. The 17 commands of spec/30_encoding.md rule R87, one constructor per row of
spec/opcode_table.json, and the fields and formats of a command word (R80 to R85). -/

namespace Sys2Proof

/-- The 17 commands of R87. Each operand has exactly the width of its slice of `arg` (R81 to R86). -/
inductive Instr where
  /-- NOP, op 0x00 (R186). -/
  | nop
  /-- CLEAR, op 0x01 (R188). -/
  | clear
  /-- FREQ_BYTE b, op 0x02 (R100). -/
  | freqByte (b : Byte)
  /-- FREQ_END, op 0x03 (R101). -/
  | freqEnd
  /-- BUILD_TREE, op 0x04 (R110). -/
  | buildTree
  /-- BUILD_CODES, op 0x05 (R125). -/
  | buildCodes
  /-- HDR_EMIT, op 0x06 (R167). -/
  | hdrEmit
  /-- ENC_BYTE b, op 0x07 (R137). -/
  | encByte (b : Byte)
  /-- ENC_END, op 0x08 (R138). -/
  | encEnd
  /-- HDR_BYTE b, op 0x09 (R170). -/
  | hdrByte (b : Byte)
  /-- DEC_BIT t, op 0x0A (R153). -/
  | decBit (t : BitVec 1)
  /-- DEC_BYTE b, op 0x0B (R155). -/
  | decByte (b : Byte)
  /-- DEC_END, op 0x0C (R157). -/
  | decEnd
  /-- RD_REG r, op 0x10 (R189). -/
  | rdReg (r : BitVec 3)
  /-- RD_FREQ x, op 0x11 (R190). -/
  | rdFreq (x : BitVec 10)
  /-- RD_NODE x, op 0x12 (R191). -/
  | rdNode (x : BitVec 10)
  /-- RD_CODE x, op 0x13 (R192). -/
  | rdCode (x : BitVec 10)
deriving DecidableEq, Repr

/-- The five formats of R81 to R85. -/
inductive Format where
  /-- Format N, no operand: arg is 0 (R81). -/
  | n
  /-- Format B, a byte in arg[7:0] (R82). -/
  | b
  /-- Format T, a bit in arg[0] (R83). -/
  | t
  /-- Format X, an index in arg[9:0] (R84). -/
  | x
  /-- Format R, a register number in arg[2:0] (R85). -/
  | r
deriving DecidableEq, Repr

/-- The two fields of a command word (R80). -/
structure RawWord where
  /-- Bits [15:10]. -/
  op : BitVec 6
  /-- Bits [9:0]. -/
  arg : BitVec 10
deriving DecidableEq, Repr

/-- One row of the table of R87 (and of spec/opcode_table.json). -/
structure OpcodeRow where
  op : BitVec 6
  mnemonic : String
  format : Format
  pattern : CmdWord
  mask : CmdWord
deriving DecidableEq, Repr

/-- The table of R87, row by row. -/
def opcodeTable : List OpcodeRow :=
  [ ⟨0x00#6, "NOP", .n, 0x0000#16, 0xFFFF#16⟩,
    ⟨0x01#6, "CLEAR", .n, 0x0400#16, 0xFFFF#16⟩,
    ⟨0x02#6, "FREQ_BYTE", .b, 0x0800#16, 0xFF00#16⟩,
    ⟨0x03#6, "FREQ_END", .n, 0x0C00#16, 0xFFFF#16⟩,
    ⟨0x04#6, "BUILD_TREE", .n, 0x1000#16, 0xFFFF#16⟩,
    ⟨0x05#6, "BUILD_CODES", .n, 0x1400#16, 0xFFFF#16⟩,
    ⟨0x06#6, "HDR_EMIT", .n, 0x1800#16, 0xFFFF#16⟩,
    ⟨0x07#6, "ENC_BYTE", .b, 0x1C00#16, 0xFF00#16⟩,
    ⟨0x08#6, "ENC_END", .n, 0x2000#16, 0xFFFF#16⟩,
    ⟨0x09#6, "HDR_BYTE", .b, 0x2400#16, 0xFF00#16⟩,
    ⟨0x0A#6, "DEC_BIT", .t, 0x2800#16, 0xFFFE#16⟩,
    ⟨0x0B#6, "DEC_BYTE", .b, 0x2C00#16, 0xFF00#16⟩,
    ⟨0x0C#6, "DEC_END", .n, 0x3000#16, 0xFFFF#16⟩,
    ⟨0x10#6, "RD_REG", .r, 0x4000#16, 0xFFF8#16⟩,
    ⟨0x11#6, "RD_FREQ", .x, 0x4400#16, 0xFC00#16⟩,
    ⟨0x12#6, "RD_NODE", .x, 0x4800#16, 0xFC00#16⟩,
    ⟨0x13#6, "RD_CODE", .x, 0x4C00#16, 0xFC00#16⟩ ]

/-- The mnemonic of a command, as the table spells it. -/
def Instr.mnemonic : Instr → String
  | .nop => "NOP"
  | .clear => "CLEAR"
  | .freqByte _ => "FREQ_BYTE"
  | .freqEnd => "FREQ_END"
  | .buildTree => "BUILD_TREE"
  | .buildCodes => "BUILD_CODES"
  | .hdrEmit => "HDR_EMIT"
  | .encByte _ => "ENC_BYTE"
  | .encEnd => "ENC_END"
  | .hdrByte _ => "HDR_BYTE"
  | .decBit _ => "DEC_BIT"
  | .decByte _ => "DEC_BYTE"
  | .decEnd => "DEC_END"
  | .rdReg _ => "RD_REG"
  | .rdFreq _ => "RD_FREQ"
  | .rdNode _ => "RD_NODE"
  | .rdCode _ => "RD_CODE"

end Sys2Proof
end

