-- ==== Sys2Proof/WellFormed.lean ====
section
/-! DEFINITION. When a command word is well formed (spec/30_encoding.md rules R81 to R85, R88), said of
its two fields. A term of `Instr` needs no further check: its operands have exactly the widths R86 gives
them, so that no term of `Instr` stands for an illegal encoding. -/

namespace Sys2Proof

/-- The must-be-zero bits of each format (R81 to R85). -/
def Format.argOk : Format → BitVec 10 → Bool
  | .n, arg => arg == 0#10
  | .b, arg => arg.extractLsb' 8 2 == 0#2
  | .t, arg => arg.extractLsb' 1 9 == 0#9
  | .x, _ => true
  | .r, arg => arg.extractLsb' 3 7 == 0#7

/-- The format of an opcode: none for the opcodes 0x0D to 0x0F and 0x14 to 0x3F, which no row has (R88). -/
def opFormat (op : BitVec 6) : Option Format :=
  (opcodeTable.find? fun row => row.op == op).map OpcodeRow.format

/-- R88: the opcode is one of the 17 and the operand field obeys the opcode's format. -/
def RawWord.wellFormed (w : RawWord) : Bool :=
  match opFormat w.op with
  | some f => f.argOk w.arg
  | none => false

/-- The two fields of a command word (R80). -/
def RawWord.ofWord (w : CmdWord) : RawWord :=
  ⟨w.extractLsb' 10 6, w.extractLsb' 0 10⟩

end Sys2Proof
end

