-- ==== Sys2Proof/Decode.lean ====
section
/-! DEFINITION. The decoder of spec/30_encoding.md rules R80 to R89, total on every 16-bit word, and after
it the encoder, both written from the table of rule R87. -/

namespace Sys2Proof

/-- Why a word is an illegal encoding (R88). -/
inductive IllegalWord where
  /-- op in 0x0D..0x0F or 0x14..0x3F: no command has this opcode. -/
  | reservedOpcode
  /-- A Format N word with arg other than 0. -/
  | operandOfFormatN
  /-- A Format B word with arg[9:8] other than 0. -/
  | operandOfFormatB
  /-- A Format T word with arg[9:1] other than 0. -/
  | operandOfFormatT
  /-- A Format R word with arg[9:3] other than 0: a register number 8 to 1023. -/
  | operandOfFormatR
deriving DecidableEq, Repr

/-- Format N (R81): arg must be 0. -/
def decodeN (arg : BitVec 10) (i : Instr) : Except IllegalWord Instr :=
  if arg = 0#10 then .ok i else .error .operandOfFormatN

/-- Format B (R82): the byte is arg[7:0], arg[9:8] must be 0. -/
def decodeB (arg : BitVec 10) (c : Byte → Instr) : Except IllegalWord Instr :=
  if arg.extractLsb' 8 2 = 0#2 then .ok (c (arg.extractLsb' 0 8)) else .error .operandOfFormatB

/-- Format T (R83): the bit is arg[0], arg[9:1] must be 0. -/
def decodeT (arg : BitVec 10) (c : BitVec 1 → Instr) : Except IllegalWord Instr :=
  if arg.extractLsb' 1 9 = 0#9 then .ok (c (arg.extractLsb' 0 1)) else .error .operandOfFormatT

/-- Format X (R84): the index is the whole of arg. -/
def decodeX (arg : BitVec 10) (c : BitVec 10 → Instr) : Except IllegalWord Instr :=
  .ok (c arg)

/-- Format R (R85): the register number is arg[2:0], arg[9:3] must be 0. -/
def decodeR (arg : BitVec 10) (c : BitVec 3 → Instr) : Except IllegalWord Instr :=
  if arg.extractLsb' 3 7 = 0#7 then .ok (c (arg.extractLsb' 0 3)) else .error .operandOfFormatR

/-- The fields of R80 decoded by the rows of R87; every other word is illegal (R88). -/
def decodeFields (op : BitVec 6) (arg : BitVec 10) : Except IllegalWord Instr :=
  match op.toNat with
  | 0x00 => decodeN arg .nop
  | 0x01 => decodeN arg .clear
  | 0x02 => decodeB arg .freqByte
  | 0x03 => decodeN arg .freqEnd
  | 0x04 => decodeN arg .buildTree
  | 0x05 => decodeN arg .buildCodes
  | 0x06 => decodeN arg .hdrEmit
  | 0x07 => decodeB arg .encByte
  | 0x08 => decodeN arg .encEnd
  | 0x09 => decodeB arg .hdrByte
  | 0x0A => decodeT arg .decBit
  | 0x0B => decodeB arg .decByte
  | 0x0C => decodeN arg .decEnd
  | 0x10 => decodeR arg .rdReg
  | 0x11 => decodeX arg .rdFreq
  | 0x12 => decodeX arg .rdNode
  | 0x13 => decodeX arg .rdCode
  | _ => .error .reservedOpcode

/-- The decoder (R89): one of the 17 commands with its operand, or `illegal` by name. -/
def decode (w : CmdWord) : Except IllegalWord Instr :=
  decodeFields (w.extractLsb' 10 6) (w.extractLsb' 0 10)

/-- The decoder on a word of spec/opcode_table.json: a command is one word of 16 bits, which has no byte
order (R56, R80); bits of `w` above 15 do not exist (log 17). -/
def decodeTableWord (_nbits w : Nat) : Option Instr :=
  (decode (BitVec.ofNat 16 w)).toOption

/-- Format N (R81): op, then ten zeros. -/
def encodeN (op : BitVec 6) : CmdWord := op ++ 0#10

/-- Format B (R82): op, two zeros, the byte. -/
def encodeB (op : BitVec 6) (b : Byte) : CmdWord := op ++ (0#2 ++ b)

/-- Format T (R83): op, nine zeros, the bit. -/
def encodeT (op : BitVec 6) (t : BitVec 1) : CmdWord := op ++ (0#9 ++ t)

/-- Format X (R84): op, the index. -/
def encodeX (op : BitVec 6) (x : BitVec 10) : CmdWord := op ++ x

/-- Format R (R85): op, seven zeros, the register number. -/
def encodeR (op : BitVec 6) (r : BitVec 3) : CmdWord := op ++ (0#7 ++ r)

/-- The word of a command (R87). -/
def encode : Instr → CmdWord
  | .nop => encodeN 0x00
  | .clear => encodeN 0x01
  | .freqByte b => encodeB 0x02 b
  | .freqEnd => encodeN 0x03
  | .buildTree => encodeN 0x04
  | .buildCodes => encodeN 0x05
  | .hdrEmit => encodeN 0x06
  | .encByte b => encodeB 0x07 b
  | .encEnd => encodeN 0x08
  | .hdrByte b => encodeB 0x09 b
  | .decBit t => encodeT 0x0A t
  | .decByte b => encodeB 0x0B b
  | .decEnd => encodeN 0x0C
  | .rdReg r => encodeR 0x10 r
  | .rdFreq x => encodeX 0x11 x
  | .rdNode x => encodeX 0x12 x
  | .rdCode x => encodeX 0x13 x

end Sys2Proof
end

