-- ==== Sys2Proof/Config.lean ====
section
/-! DEFINITION. The constants of spec/00_scope.md rule R5, and the one free value of the model. -/

namespace Sys2Proof.Config

/-- EOF, the sentinel symbol (R5), as an index of FT and CT. -/
abbrev eof : Nat := 256

/-- EOF, the sentinel symbol (R5), as the 9-bit field of a node. -/
abbrev eofSym : Symbol := 256#9

/-- NAS, the "no symbol" marker of an internal node (R5). -/
abbrev nas : Symbol := 257#9

/-- NSYM, the number of slots of FT and of CT (R5). -/
abbrev nsym : Nat := 257

/-- COUNT_MAX, the largest count (R5). -/
abbrev countMax : Count := 0xFFFFFFFF#32

/-- NODE_CAP, the number of slots of NODE (R5). -/
abbrev nodeCap : Nat := 513

/-- NIL, the "no node" index (R5). -/
abbrev nil : NodeIdx := 1023#10

/-- MAXLEN, the upper bound on the length of a code (R5, R117). -/
abbrev maxLen : Nat := 256

/-- HDR_MAX, the length of the longest header in bytes (R5, R166). -/
abbrev hdrMax : Nat := 1544

/-- A FREE VALUE: the 70 bits of the NODE entry at an index that no BUILD_TREE has written since the
tree was last released. R34 calls them unspecified, 93_implementation_defined.md Y5 "any value".
No body: nothing can be proved of it. No state that meets `Safety.Consistent` reads it (log 7). -/
opaque unspecifiedNode : Nat → BitVec 70

end Sys2Proof.Config
end

