-- ==== Sys2Proof/Machine/State.lean ====
section
/-! DEFINITION. Every piece of state spec/10_state.md and spec/20_memory.md give HUFF, the state after
reset, and the reasons a step can stop. -/

namespace Sys2Proof.Machine

/-- The values PHASE holds (R21). The values 10 to 14 are never held and have no constructor (log 12). -/
inductive Phase where
  /-- 0, IDLE: after reset or CLEAR, all tables empty. -/
  | idle
  /-- 1, COUNT: at least one byte counted, table not yet final. -/
  | count
  /-- 2, HDR: a header is being deserialized. -/
  | hdr
  /-- 3, TABLE: FT is final and immutable, no tree yet. -/
  | table
  /-- 4, TREE: tree built, CT empty. -/
  | tree
  /-- 5, CODES: tree and CT built, nothing encoded yet. -/
  | codes
  /-- 6, ENC: encoding in progress. -/
  | enc
  /-- 7, ENC_DONE: sentinel code written and packer flushed. -/
  | encDone
  /-- 8, DEC: decoding in progress. -/
  | dec
  /-- 9, DEC_DONE: the decoder reached the sentinel leaf. -/
  | decDone
  /-- 15, FAULT: an error was raised. -/
  | fault
deriving DecidableEq, Repr

/-- The error codes ERR holds (R200). Codes 8 to 15 are never held and have no constructor (log 12). -/
inductive Err where
  /-- 0: no error. -/
  | none
  /-- 1: ENC_BYTE of a byte with no code. -/
  | malformedInput
  /-- 2: DEC_END before the sentinel leaf was reached. -/
  | truncatedPayload
  /-- 3: BUILD_TREE in phase IDLE. -/
  | emptyFrequencyTable
  /-- 4: a header that fails a test of R171, or ends early. -/
  | corruptHeader
  /-- 5: reserved, never raised (R206). -/
  | invalidCodeBit
  /-- 6: an illegal encoding, or a command its phase does not allow. -/
  | illegalCommand
  /-- 7: a count that would pass 2^32 - 1. -/
  | countOverflow
deriving DecidableEq, Repr

/-- One entry of NODE (R51), 70 bits: sym, weight, zero-child, one-child. -/
structure Node where
  sym : Symbol
  weight : Weight
  zero : NodeIdx
  one : NodeIdx
deriving DecidableEq, Repr

/-- The data fields of one valid entry of CT (R52): the length and the code, left-aligned in 256 bits. -/
structure CodeEntry where
  len : BitVec 9
  bits : BitVec 256
deriving DecidableEq, Repr

/-- The response to one command (R90): status[3:0] = ERR, status[7:4] = PHASE, and 272 bits of data. -/
structure Response where
  status : BitVec 8
  data : RData
deriving DecidableEq, Repr

/-- What the host may do at HUFF's ports (R242): give one command word, or assert reset. -/
inductive HostMove where
  | word (w : CmdWord)
  | reset
deriving DecidableEq, Repr

/-- The state of HUFF: the registers of R21 to R28, the memories and the stream of R31, the last response
(R90), and the moves the host has still to make (R6: the parameter of a run; log 1). -/
structure State where
  /-- PHASE, 4 bits (R21). -/
  phase : Phase
  /-- ERR, 4 bits (R22). -/
  err : Err
  /-- FT_N: the number of present entries of FT (R23). -/
  ftN : BitVec 9
  /-- TREE_VALID: NODE holds a built tree that has not been released (R24). -/
  treeValid : Bool
  /-- NODE_CNT: the number of node slots in use (R24). -/
  nodeCnt : BitVec 10
  /-- ROOT: the index of the root node, or NIL (R24). -/
  root : NodeIdx
  /-- CUR: the decoder's cursor (R25). -/
  cur : NodeIdx
  /-- ACC: the bit_packer's partial byte (R26). -/
  acc : BitVec 8
  /-- NB: the number of bits placed in ACC (R26). -/
  nb : BitVec 3
  /-- BITCNT: the number of code bits given to the packer (R27). -/
  bitcnt : BitVec 64
  /-- HPOS: the number of header bytes received (R28). -/
  hpos : BitVec 11
  /-- HN: the entry count read from the header (R28). -/
  hn : BitVec 16
  /-- HSYM: the symbol field being assembled (R28). -/
  hsym : BitVec 16
  /-- HCNT: the count field being assembled (R28). -/
  hcnt : BitVec 32
  /-- HPREV: the symbol of the last entry stored (R28). -/
  hprev : BitVec 16
  /-- FT (R50): the present entries (symbol, count), symbols strictly rising; the others are not present. -/
  ft : List (Nat × Count)
  /-- NODE (R51): the entries 0, 1, .. that were written; the others are unspecified (R34). -/
  node : List Node
  /-- CT (R52): the valid entries, symbols strictly rising; the others are not valid. -/
  ct : List (Nat × CodeEntry)
  /-- OUT (R54): the bytes emitted since the last CLEAR or reset, the first emitted first. -/
  out : List Byte
  /-- The response to the last command, or none before the first (R90, log 2). -/
  resp : Option Response
  /-- The moves the host has still to make, the next one first (R6, R242, log 1). -/
  host : List HostMove
deriving DecidableEq, Repr

/-- The reasons a step can stop with a fault. Each stands where the spec's pseudocode has no next state,
and each is reached only from states that no run from reset holds (`Safety.Consistent` rules them out). HUFF's
own errors (R200) are no faults of the model: they are next states in phase FAULT. -/
inductive Fault where
  /-- An entry of FT or CT with an index above 256 would be written. Raised by HDR_BYTE and BUILD_CODES;
  R53: no command that changes state can produce such an index. Safe (log 8). -/
  | noSuchEntry
  /-- BUILD_TREE in phase TABLE with no present entry: R110 takes "the one element of Q" of an empty Q.
  Raised by BUILD_TREE. Safe (log 9). -/
  | noRoot
  /-- BUILD_CODES on an arena that is no tree: Visit goes deeper than MAXLEN = 256 edges, or does not end
  (R117). Raised by BUILD_CODES. Safe (log 10). -/
  | visitTooDeep
deriving DecidableEq, Repr

/-- The reasons a step can be refused. -/
inductive Refusal where
  /-- The instruction has no meaning in this model yet. Raised by an arm of `exec` only; safe. -/
  | notModelled (mnemonic : String)
deriving DecidableEq, Repr

/-- What one step answers. -/
abbrev Result := Host.Outcome State Fault Refusal

/-- The state after reset (R34, R230): every register as the table of R34 says, every present and valid
flag 0, OUT empty; no response has been given and the host has made no move yet. -/
def State.reset : State where
  phase := .idle
  err := .none
  ftN := 0
  treeValid := false
  nodeCnt := 0
  root := Config.nil
  cur := Config.nil
  acc := 0
  nb := 0
  bitcnt := 0
  hpos := 0
  hn := 0
  hsym := 0
  hcnt := 0
  hprev := 0
  ft := []
  node := []
  ct := []
  out := []
  resp := none
  host := []

end Sys2Proof.Machine
end

