-- ==== Sys2Proof/Machine/Flags.lean ====
section
/-! DEFINITION. HUFF's flag-like state (spec/10_state.md rule R30): the 4-bit codes of PHASE and ERR and
the status made of them, and the `present` and `valid` flags of the two tables. HUFF has no condition
code: no command computes a carry, zero, negative or overflow flag. -/

namespace Sys2Proof.Machine

/-- The number of a phase (R21). -/
def Phase.code : Phase → BitVec 4
  | .idle => 0
  | .count => 1
  | .hdr => 2
  | .table => 3
  | .tree => 4
  | .codes => 5
  | .enc => 6
  | .encDone => 7
  | .dec => 8
  | .decDone => 9
  | .fault => 15

/-- The code of an error (R200). -/
def Err.code : Err → BitVec 4
  | .none => 0
  | .malformedInput => 1
  | .truncatedPayload => 2
  | .emptyFrequencyTable => 3
  | .corruptHeader => 4
  | .invalidCodeBit => 5
  | .illegalCommand => 6
  | .countOverflow => 7

/-- The status field of a response (R90): status[7:4] = PHASE, status[3:0] = ERR. -/
def State.status (s : State) : BitVec 8 := s.phase.code ++ s.err.code

/-- The entry of a sparse memory at index `i`; none where the entry's flag is 0 (R50, R52). -/
def Memory.read {α : Type} : List (Nat × α) → Nat → Option α
  | [], _ => none
  | (j, v) :: m, i => if i = j then some v else Memory.read m i

/-- FT[x].present (R50). -/
def State.ftPresent (s : State) (x : Nat) : Bool := (Memory.read s.ft x).isSome

/-- CT[x].valid (R52). -/
def State.ctValid (s : State) (x : Nat) : Bool := (Memory.read s.ct x).isSome

end Sys2Proof.Machine
end

