-- ==== Sys2Proof/Machine/Operands.lean ====
section
/-! DEFINITION. How the operands of commands are widened and taken apart (spec/30_encoding.md rule R86,
spec/44_decoder_unpacker.md rule R151, spec/45_serializer.md rules R166 and R170). -/

namespace Sys2Proof.Machine

/-- `zext_9(b)` as an index of FT and CT (R86): a byte used as a symbol is 0..255, never EOF or NAS. -/
def symbolOfByte (b : Byte) : Nat := (b.setWidth 9).toNat

/-- The bit operand of DEC_BIT (R83). -/
def bitOperand (t : BitVec 1) : Bool := t == 1#1

/-- The bit_unpacker (R151): b[7], b[6], .., b[0]. -/
def bitsOfByte (b : Byte) : List Bool :=
  [b[7], b[6], b[5], b[4], b[3], b[2], b[1], b[0]]

/-- `{b, 0x00}`: the high byte of a 16-bit header field (R170). -/
def highByte (b : Byte) : BitVec 16 := b ++ 0#8

/-- `zext_16(b)`: the low byte of a 16-bit header field (R170). -/
def lowByte (b : Byte) : BitVec 16 := b.setWidth 16

/-- `(HCNT << 8)[31:0] | zext_32(b)`: the next byte of a 32-bit header field (R170). -/
def shiftInByte (c : BitVec 32) (b : Byte) : BitVec 32 := (c <<< 8) ||| b.setWidth 32

/-- The two bytes of a 16-bit field, most significant first (R56). -/
def bytesOf16 (v : BitVec 16) : List Byte := [v.extractLsb' 8 8, v.extractLsb' 0 8]

/-- The four bytes of a 32-bit field, most significant first (R56). -/
def bytesOf32 (v : BitVec 32) : List Byte :=
  [v.extractLsb' 24 8, v.extractLsb' 16 8, v.extractLsb' 8 8, v.extractLsb' 0 8]

/-- Read data of any width in the response's data field: unlisted bits read 0 (R33, R90). -/
def dataOf {w : Nat} (v : BitVec w) : RData := v.setWidth 272

end Sys2Proof.Machine
end

