-- ==== Sys2Proof/Machine/Ops.lean ====
section
/-! DEFINITION. The operations the commands share: the memories of spec/20_memory.md, the response of
rule R90, the release of the tree (R118) and `raise`, the one exception mechanism (R201). -/

namespace Sys2Proof.Machine

/-! ## The memories -/

/-- Write of one whole entry of FT or CT (R53), keeping the indexes strictly rising. -/
def Memory.write {α : Type} : List (Nat × α) → Nat → α → List (Nat × α)
  | [], i, v => [(i, v)]
  | (j, w) :: m, i, v =>
    if i < j then (i, v) :: (j, w) :: m
    else if i = j then (i, v) :: m
    else (j, w) :: Memory.write m i v

/-- The canonical form of FT and CT: indexes strictly rising and below the number of slots (R50, R52). -/
abbrev Memory.wf {α : Type} (slots : Nat) (m : List (Nat × α)) : Prop :=
  (m.map Prod.fst).Pairwise (· < ·) ∧ ∀ e ∈ m, e.1 < slots

/-- A node from the 70 bits of its entry (R51), in the order of the fields in RD_NODE's data (R191). -/
def nodeOfBits (v : BitVec 70) : Node where
  sym := v.extractLsb' 61 9
  weight := v.extractLsb' 20 41
  zero := v.extractLsb' 10 10
  one := v.extractLsb' 0 10

/-- NODE[i] (R51). An entry that was not written since the last release is unspecified (R34): a free
value (log 7). -/
def nodeAt (nodes : List Node) (i : Nat) : Node :=
  match nodes[i]? with
  | some n => n
  | none => nodeOfBits (Config.unspecifiedNode i)

/-- A node is a leaf when its symbol is not NAS (R51). -/
def Node.isLeaf (n : Node) : Bool := n.sym != Config.nas

/-- The code left-aligned in 256 bits: its bit k is bit 255 - k, the rest is 0 (R52, R125). -/
def leftAlign : Code → BitVec 256
  | [] => 0
  | t :: c => (if t then 1#256 <<< 255 else 0#256) ||| (leftAlign c >>> 1)

/-- The CT entry that holds a code (R125). -/
def codeEntryOf (c : Code) : CodeEntry := ⟨BitVec.ofNat 9 c.length, leftAlign c⟩

/-- The code a CT entry holds: bits[255], bits[254], .., bits[256-len] (R52). -/
def CodeEntry.code (e : CodeEntry) : Code := (List.range e.len.toNat).map e.bits.getMsbD

/-! ## The output stream -/

/-- `Out(b)` (R54). -/
def State.emit (b : Byte) (s : State) : State := { s with out := s.out ++ [b] }

/-- `Out(b)` for each byte in order (R58). -/
def State.emitAll (bs : List Byte) (s : State) : State := { s with out := s.out ++ bs }

/-! ## Responses and outcomes -/

/-- The response of R90, made from PHASE and ERR as they are after the command. -/
def State.respond (data : RData) (s : State) : State := { s with resp := some ⟨s.status, data⟩ }

/-- A command that is no read command ends: its response has data 0 (R90). -/
def done (s : State) : Result := .next (s.respond 0)

/-- A read command ends: it changes no state, and its response has the data read (R53, R90). -/
def answer (data : RData) (s : State) : Result := .next (s.respond data)

/-! ## Taking an exception, and the two ways out of FAULT -/

/-- ReleaseTree() (R118). After it every NODE entry is unspecified: no entry stays listed (log 7). -/
def State.releaseTree (s : State) : State :=
  { s with treeValid := false, nodeCnt := 0, root := Config.nil, cur := Config.nil, node := [] }

/-- `raise E` (R201): ERR takes the code, the tree is released, PHASE becomes FAULT, nothing else is
saved or changed; in FAULT the first error is kept. -/
def State.raise (e : Err) (s : State) : State :=
  if s.phase = .fault then s else { s.releaseTree with err := e, phase := .fault }

/-- A command that raises E is abandoned and answers its response (R90, R201). -/
def fail (e : Err) (s : State) : Result := done (s.raise e)

/-- Every piece of HUFF's state at its value in the table of R34 (R188, R230); the host's moves are no
state of HUFF and stay. -/
def State.cleared (s : State) : State := { State.reset with host := s.host }

/-- The reset input (R230). The effect on HUFF is that of CLEAR; no command was given, so there is no
response (log 5). -/
def State.resetInput (s : State) : State := s.cleared

end Sys2Proof.Machine
end

