-- ==== Sys2Proof/Machine/Sequencer.lean ====
section
/-! DEFINITION. What PHASE allows: the order of checks of spec/30_encoding.md rule R89 and the phase table
of spec/46_control.md rules R185 and R187. -/

namespace Sys2Proof.Machine

/-- What the checks of R89 decide of a decoded command before its own rule runs. -/
inductive Gate where
  /-- R89 steps 2 and 6: the command's rule is executed. -/
  | run
  /-- R89 step 3 and R154: the command has no effect. -/
  | noEffect
  /-- R89 step 5: the command is not legal in this phase and raises. -/
  | raises (e : Err)
deriving DecidableEq, Repr

/-- A command legal in the listed phases only: nothing in FAULT (R187), IllegalCommand elsewhere (R185). -/
def Phase.legalIn (p : Phase) (legal : List Phase) : Gate :=
  if p = .fault then .noEffect
  else if p ∈ legal then .run
  else .raises .illegalCommand

/-- The phase table (R185), read by command, with its two exceptions (BUILD_TREE in IDLE, DEC_END in HDR)
and the commands that do nothing in DEC_DONE (R154). -/
def gateOf (i : Instr) (p : Phase) : Gate :=
  match i with
  | .nop | .clear | .rdReg _ | .rdFreq _ | .rdNode _ | .rdCode _ => .run
  | .freqByte _ => p.legalIn [.idle, .count]
  | .freqEnd => p.legalIn [.idle, .count]
  | .buildTree => if p = .idle then .raises .emptyFrequencyTable else p.legalIn [.table]
  | .buildCodes => p.legalIn [.tree]
  | .hdrEmit => p.legalIn [.table, .tree, .codes]
  | .encByte _ => p.legalIn [.codes, .enc]
  | .encEnd => p.legalIn [.codes, .enc]
  | .hdrByte _ => p.legalIn [.idle, .hdr]
  | .decBit _ | .decByte _ => if p = .decDone then .noEffect else p.legalIn [.tree, .dec]
  | .decEnd =>
    if p = .decDone then .noEffect
    else if p = .hdr then .raises .corruptHeader
    else p.legalIn [.tree, .dec]

/-- A command: the checks of R89, then the command's own rule. -/
def command (i : Instr) (rule : State → Result) (s : State) : Result :=
  match gateOf i s.phase with
  | .run => rule s
  | .noEffect => done s
  | .raises e => fail e s

/-- An illegal encoding (R88): nothing in FAULT (R187), IllegalCommand elsewhere (R207). -/
def illegalWord (s : State) : Result :=
  if s.phase = .fault then done s else fail .illegalCommand s

end Sys2Proof.Machine
end

