-- ==== Sys2Proof/Machine/CodeTable.lean ====
section
/-! DEFINITION. The code table deriver: BUILD_CODES (spec/42_code_table.md rules R125, R126). -/

namespace Sys2Proof.Machine

/-- Record `path` as the code of symbol `x`; a symbol that has a code keeps it (R126). An index outside CT
cannot come from a built tree (log 8). -/
def recordCode (x : Nat) (path : Code) (ct : List (Nat × CodeEntry)) : Except Fault (List (Nat × CodeEntry)) :=
  match Memory.read ct x with
  | some _ => .ok ct
  | none => if x < Config.nsym then .ok (Memory.write ct x (codeEntryOf path)) else .error .noSuchEntry

/-- Visit(i, path) (R125), zero-child first, for a node with at most `depth` - 1 edges below it on any
path: a tree BUILD_TREE built has depth at most 256 (R117, log 10). -/
def visit (nodes : List Node) : (depth : Nat) → NodeIdx → Code → List (Nat × CodeEntry) →
    Except Fault (List (Nat × CodeEntry))
  | 0, _, _, _ => .error .visitTooDeep
  | depth + 1, i, path, ct =>
    let n := nodeAt nodes i.toNat
    if n.isLeaf then recordCode n.sym.toNat path ct
    else
      match visit nodes depth n.zero (path ++ [false]) ct with
      | .error f => .error f
      | .ok ct' => visit nodes depth n.one (path ++ [true]) ct'

/-- The rule of BUILD_CODES in phase TREE (R125). -/
def buildCodesRule (s : State) : Result :=
  match visit s.node (Config.maxLen + 1) s.root [] s.ct with
  | .error f => .fault f
  | .ok ct => done { s with ct := ct, phase := .codes }

/-- BUILD_CODES (R125). -/
def execBuildCodes (s : State) : Result := command .buildCodes buildCodesRule s

end Sys2Proof.Machine
end

