-- ==== Sys2Proof/Machine/Control.lean ====
section
/-! DEFINITION. NOP, CLEAR and the read-back commands (spec/46_control.md rules R186 to R192). -/

namespace Sys2Proof.Machine

/-- NOP (R186): status as it stands, data 0. -/
def execNop (s : State) : Result := command .nop done s

/-- CLEAR (R188), legal in every phase, FAULT included. -/
def execClear (s : State) : Result := command .clear (fun s => done s.cleared) s

/-- The register map of R33: the layout of register number r. -/
def registerData (r : BitVec 3) (s : State) : RData :=
  match r.toNat with
  | 0 => dataOf (BitVec.ofBool s.treeValid ++ s.phase.code ++ s.err.code)
  | 1 => dataOf s.bitcnt
  | 2 => dataOf s.ftN
  | 3 => dataOf s.nodeCnt
  | 4 => dataOf s.root
  | 5 => dataOf s.cur
  | 6 => dataOf (s.nb ++ s.acc)
  | _ => dataOf (s.hn ++ s.hpos)

/-- RD_REG r (R189). -/
def execRdReg (r : BitVec 3) (s : State) : Result :=
  command (.rdReg r) (fun s => answer (registerData r s) s) s

/-- The data of RD_FREQ x (R190): {1, count}, or 0 for an absent or out-of-range symbol. -/
def freqData (x : BitVec 10) (s : State) : RData :=
  if x.toNat ≤ Config.eof then
    match Memory.read s.ft x.toNat with
    | some c => dataOf (1#1 ++ c)
    | none => 0
  else 0

/-- RD_FREQ x (R190). -/
def execRdFreq (x : BitVec 10) (s : State) : Result :=
  command (.rdFreq x) (fun s => answer (freqData x s) s) s

/-- The data of RD_NODE x (R191): valid, sym, weight, zero, one, or 0 outside the tree. -/
def nodeData (x : BitVec 10) (s : State) : RData :=
  if s.treeValid ∧ x.toNat < s.nodeCnt.toNat then
    let n := nodeAt s.node x.toNat
    dataOf (1#1 ++ n.sym ++ n.weight ++ n.zero ++ n.one)
  else 0

/-- RD_NODE x (R191). -/
def execRdNode (x : BitVec 10) (s : State) : Result :=
  command (.rdNode x) (fun s => answer (nodeData x s) s) s

/-- The data of RD_CODE x (R192): valid, len, bits, or 0 for a symbol with no code or out of range. -/
def codeData (x : BitVec 10) (s : State) : RData :=
  if x.toNat ≤ Config.eof then
    match Memory.read s.ct x.toNat with
    | some e => dataOf (1#1 ++ e.len ++ e.bits)
    | none => 0
  else 0

/-- RD_CODE x (R192). -/
def execRdCode (x : BitVec 10) (s : State) : Result :=
  command (.rdCode x) (fun s => answer (codeData x s) s) s

end Sys2Proof.Machine
end

