-- ==== Sys2Proof/Machine/Decoder.lean ====
section
/-! DEFINITION. The walker, the bit_unpacker and the decoder: DEC_BIT, DEC_BYTE and DEC_END
(spec/44_decoder_unpacker.md rules R150 to R157). -/

namespace Sys2Proof.Machine

/-- The child the walker moves to (R150): the zero-child for a 0, the one-child for a 1. -/
def childOf (n : Node) (t : Bool) : NodeIdx := if t then n.one else n.zero

/-- Walk(t) (R150): the state after one step of the walker, and whether it answered `stop`. -/
def walk (t : Bool) (s : State) : State × Bool :=
  let c := childOf (nodeAt s.node s.cur.toNat) t
  let n := nodeAt s.node c.toNat
  if n.isLeaf then
    if n.sym = Config.eofSym then ({ s.releaseTree with phase := .decDone }, true)
    else ({ s.emit (n.sym.setWidth 8) with cur := s.root }, false)
  else ({ s with cur := c }, false)

/-- Walk for each bit in order, until it answers `stop` (R152, R155). -/
def walkBits : List Bool → State → State
  | [], s => s
  | t :: ts, s =>
    let r := walk t s
    if r.2 then r.1 else walkBits ts r.1

/-- DEC_BIT t (R153, R154). -/
def execDecBit (t : BitVec 1) (s : State) : Result :=
  command (.decBit t) (fun s => done (walkBits [bitOperand t] { s with phase := .dec })) s

/-- DEC_BYTE b (R151, R154, R155): the rest of the byte in which the sentinel ends is ignored. -/
def execDecByte (b : Byte) (s : State) : Result :=
  command (.decByte b) (fun s => done (walkBits (bitsOfByte b) { s with phase := .dec })) s

/-- DEC_END (R157): in TREE and DEC the payload ended before the sentinel. The phase table holds its other
phases. -/
def execDecEnd (s : State) : Result := command .decEnd (fail .truncatedPayload) s

end Sys2Proof.Machine
end

