-- ==== Sys2Proof/Machine/Encoder.lean ====
section
/-! DEFINITION. The bit_packer and the encoder: ENC_BYTE and ENC_END (spec/43_encoder_packer.md rules R135
to R138). -/

namespace Sys2Proof.Machine

/-- ACC with the next bit placed at bit 7 - NB (R135). -/
def accWith (t : Bool) (s : State) : BitVec 8 :=
  s.acc ||| ((if t then 1#8 else 0#8) <<< (7 - s.nb.toNat))

/-- PackBit(t) (R135): the byte is emitted when its eighth bit is placed; BITCNT counts modulo 2^64. -/
def packBit (s : State) (t : Bool) : State :=
  if s.nb = 7 then
    { s.emit (accWith t s) with acc := 0, nb := 0, bitcnt := s.bitcnt + 1 }
  else
    { s with acc := accWith t s, nb := s.nb + 1, bitcnt := s.bitcnt + 1 }

/-- PackBit for each bit of a code in order (R137, R138). -/
def packBits (s : State) (c : Code) : State := c.foldl packBit s

/-- PackFlush() (R136): the partial byte, if any, is emitted with its low bits 0; BITCNT is unchanged. -/
def packFlush (s : State) : State :=
  if s.nb = 0 then s else { s.emit s.acc with acc := 0, nb := 0 }

/-- The rule of ENC_BYTE b in phases CODES and ENC (R137): the look-up comes before any bit is packed. -/
def encByteRule (b : Byte) (s : State) : Result :=
  match Memory.read s.ct (symbolOfByte b) with
  | none => fail .malformedInput s
  | some e => done { packBits s e.code with phase := .enc }

/-- ENC_BYTE b (R137). -/
def execEncByte (b : Byte) (s : State) : Result := command (.encByte b) (encByteRule b) s

/-- The rule of ENC_END in phases CODES and ENC (R138). -/
def encEndRule (s : State) : Result :=
  match Memory.read s.ct Config.eof with
  | none => fail .malformedInput s
  | some e => done { (packFlush (packBits s e.code)).releaseTree with phase := .encDone }

/-- ENC_END (R138). -/
def execEncEnd (s : State) : Result := command .encEnd encEndRule s

end Sys2Proof.Machine
end

