-- ==== Sys2Proof/Machine/Frequency.lean ====
section
/-! DEFINITION. The frequency counter: FREQ_BYTE and FREQ_END (spec/40_frequency.md rules R100, R101). -/

namespace Sys2Proof.Machine

/-- The body R100 and R101 share: insert symbol `x` with count 1, or add 1 to its count, or raise
CountOverflow with FT unchanged; then PHASE moves to `p`. -/
def countSymbol (x : Nat) (p : Phase) (s : State) : Result :=
  match Memory.read s.ft x with
  | none => done { s with ft := Memory.write s.ft x 1, ftN := s.ftN + 1, phase := p }
  | some c =>
    if c = Config.countMax then fail .countOverflow s
    else done { s with ft := Memory.write s.ft x (c + 1), phase := p }

/-- FREQ_BYTE b (R100). -/
def execFreqByte (b : Byte) (s : State) : Result :=
  command (.freqByte b) (countSymbol (symbolOfByte b) .count) s

/-- FREQ_END (R101). -/
def execFreqEnd (s : State) : Result :=
  command .freqEnd (countSymbol Config.eof .table) s

end Sys2Proof.Machine
end

