-- ==== Sys2Proof/Machine/Serializer.lean ====
section
/-! DEFINITION. frequency_table_serializer: HDR_EMIT and HDR_BYTE (spec/45_serializer.md rules R166 to
R171). -/

namespace Sys2Proof.Machine

/-- One entry of the header (R166): the symbol in two bytes, the count in four, big-endian. -/
def headerEntry (x : Nat) (c : Count) : List Byte := bytesOf16 (BitVec.ofNat 16 x) ++ bytesOf32 c

/-- The header HDR_EMIT appends (R166, R167): FT_N, then one entry per present symbol, ascending over all
the 257 slots. -/
def headerOf (ftN : BitVec 9) (ft : List (Nat × Count)) : List Byte :=
  bytesOf16 (ftN.setWidth 16) ++
    (List.range Config.nsym).flatMap fun x =>
      match Memory.read ft x with
      | some c => headerEntry x c
      | none => []

/-- HDR_EMIT (R167). -/
def execHdrEmit (s : State) : Result :=
  command .hdrEmit (fun s => done (s.emitAll (headerOf s.ftN s.ft))) s

/-- The second byte of a SYM field has come, entry `k` (R170, R171 (b), (c), (d)): range, then ascending,
then last-is-sentinel. The test `k = HN - 1` is made on numbers (log 14). -/
def checkSymbol (k : Nat) (s : State) : Result :=
  if Config.eof < s.hsym.toNat then fail .corruptHeader s
  else if 0 < k ∧ s.hsym.toNat ≤ s.hprev.toNat then fail .corruptHeader s
  else if k + 1 = s.hn.toNat ∧ s.hsym.toNat ≠ Config.eof then fail .corruptHeader s
  else done s

/-- The fourth byte of a CNT field has come, entry `k` (R170, R171 (e)): the entry is stored, and after the
last entry the header is complete. The index is in range in every state a run holds (log 8). -/
def storeEntry (k : Nat) (s : State) : Result :=
  if s.hcnt = 0 then fail .corruptHeader s
  else if Config.nsym ≤ s.hsym.toNat then .fault .noSuchEntry
  else
    done { s with
      ft := Memory.write s.ft s.hsym.toNat s.hcnt, ftN := s.ftN + 1, hprev := s.hsym,
      phase := if k + 1 = s.hn.toNat then .table else s.phase }

/-- Byte `j` of entry `k` (R170). -/
def entryByte (b : Byte) (k j : Nat) (s : State) : Result :=
  if j = 0 then done { s with hsym := highByte b }
  else if j = 1 then checkSymbol k { s with hsym := s.hsym ||| lowByte b }
  else if j = 5 then storeEntry k { s with hcnt := shiftInByte s.hcnt b }
  else done { s with hcnt := shiftInByte s.hcnt b }

/-- The second byte of N has come (R170, R171 (a)). -/
def checkEntryCount (s : State) : Result :=
  if s.hn = 0 ∨ Config.nsym < s.hn.toNat then fail .corruptHeader s else done s

/-- The rule of HDR_BYTE b in phases IDLE and HDR (R170), by the position `p` of the byte. -/
def hdrByteAt (b : Byte) (p : Nat) (s : State) : Result :=
  if p = 0 then done { s with hn := highByte b }
  else if p = 1 then checkEntryCount { s with hn := s.hn ||| lowByte b }
  else entryByte b ((p - 2) / 6) ((p - 2) % 6) s

/-- HDR_BYTE b (R170): PHASE and HPOS are written before any test. -/
def execHdrByte (b : Byte) (s : State) : Result :=
  command (.hdrByte b)
    (fun s => hdrByteAt b s.hpos.toNat { s with phase := .hdr, hpos := s.hpos + 1 }) s

end Sys2Proof.Machine
end

