-- ==== Sys2Proof/Machine/TreeBuilder.lean ====
section
/-! DEFINITION. code_tree_builder: BUILD_TREE (spec/41_tree_builder.md rules R110 to R119). -/

namespace Sys2Proof.Machine

/-- The leaf of a symbol (R111): its weight is the table count, its children are NIL. -/
def leafOf (x : Nat) (c : Count) : Node :=
  ⟨BitVec.ofNat 9 x, c.setWidth 41, Config.nil, Config.nil⟩

/-- One leaf per present entry of FT, symbols ascending over all the 257 slots (R111). -/
def presentLeaves (ft : List (Nat × Count)) : List Node :=
  (List.range Config.nsym).filterMap fun x => (Memory.read ft x).map (leafOf x)

/-- The leaves of the arena: a single leaf is duplicated (R112). -/
def leavesOf (ft : List (Nat × Count)) : List Node :=
  match presentLeaves ft with
  | [l] => [l, l]
  | ls => ls

/-- The priority order (R113): by weight, then by index. -/
def before (nodes : List Node) (i j : Nat) : Bool :=
  (nodeAt nodes i).weight < (nodeAt nodes j).weight ||
    ((nodeAt nodes i).weight == (nodeAt nodes j).weight && decide (i < j))

/-- The least element of Q under the order of R113. -/
def leastOf (nodes : List Node) : List Nat → Option Nat
  | [] => none
  | i :: q =>
    match leastOf nodes q with
    | none => some i
    | some j => if before nodes i j then some i else some j

/-- The node that combines `a`, removed first, and `b`, removed second (R114). -/
def mergedNode (nodes : List Node) (a b : Nat) : Node :=
  ⟨Config.nas, (nodeAt nodes a).weight + (nodeAt nodes b).weight, BitVec.ofNat 10 a, BitVec.ofNat 10 b⟩

/-- At most `turns` turns of the loop of R110: while Q has two elements, merge the two least (R114). -/
def mergeLoop : (turns : Nat) → List Node → List Nat → List Node × List Nat
  | 0, nodes, q => (nodes, q)
  | turns + 1, nodes, q =>
    match leastOf nodes q with
    | none => (nodes, q)
    | some a =>
      match leastOf nodes (q.erase a) with
      | none => (nodes, q)
      | some b =>
        mergeLoop turns (nodes ++ [mergedNode nodes a b]) ((q.erase a).erase b ++ [nodes.length])

/-- The arena and the queue when the loop has ended (R110): each turn takes one element from Q, so as many
turns as there are leaves are enough (R115). -/
def builtTree (ft : List (Nat × Count)) : List Node × List Nat :=
  let leaves := leavesOf ft
  mergeLoop leaves.length leaves (List.range leaves.length)

/-- The rule of BUILD_TREE in phase TABLE (R110). -/
def buildTreeRule (s : State) : Result :=
  let built := builtTree s.ft
  match built.2 with
  | [r] =>
    let root := BitVec.ofNat 10 r
    done { s with
      node := built.1, root := root, nodeCnt := BitVec.ofNat 10 built.1.length, cur := root,
      treeValid := true, phase := .tree }
  | _ => .fault .noRoot

/-- BUILD_TREE (R110, R119). -/
def execBuildTree (s : State) : Result := command .buildTree buildTreeRule s

end Sys2Proof.Machine
end

