-- ==== Sys2Proof/Machine/Dispatch.lean ====
section
/-! DEFINITION. One arm per command of spec/opcode_table.json. -/

namespace Sys2Proof.Machine

def exec (i : Instr) (s : State) : Host.Outcome State Fault Refusal :=
  match i with
  | .nop => Sys2Proof.Machine.execNop s
  | .clear => Sys2Proof.Machine.execClear s
  | .freqByte b => Sys2Proof.Machine.execFreqByte b s
  | .freqEnd => Sys2Proof.Machine.execFreqEnd s
  | .buildTree => Sys2Proof.Machine.execBuildTree s
  | .buildCodes => Sys2Proof.Machine.execBuildCodes s
  | .hdrEmit => Sys2Proof.Machine.execHdrEmit s
  | .encByte b => Sys2Proof.Machine.execEncByte b s
  | .encEnd => Sys2Proof.Machine.execEncEnd s
  | .hdrByte b => Sys2Proof.Machine.execHdrByte b s
  | .decBit t => Sys2Proof.Machine.execDecBit t s
  | .decByte b => Sys2Proof.Machine.execDecByte b s
  | .decEnd => Sys2Proof.Machine.execDecEnd s
  | .rdReg r => Sys2Proof.Machine.execRdReg r s
  | .rdFreq x => Sys2Proof.Machine.execRdFreq x s
  | .rdNode x => Sys2Proof.Machine.execRdNode x s
  | .rdCode x => Sys2Proof.Machine.execRdCode x s

end Sys2Proof.Machine
end

