-- ==== Sys2Proof/Machine/Step.lean ====
section
/-! DEFINITION. One step of HUFF: the host's next move (spec/00_scope.md rule R6, spec/70_reset_and_hazards.md
rules R230, R242), with the order of checks of spec/30_encoding.md rule R89. -/

namespace Sys2Proof.Machine

/-- One step. A command word is decoded and executed; an illegal word raises (R88, R89); the reset input
resets (R230); with no move left HUFF waits for the host (log 3). -/
def step (s : State) : Host.Outcome State Fault Refusal :=
  match s.host with
  | [] => .next s
  | .reset :: rest => .next (State.resetInput { s with host := rest })
  | .word w :: rest =>
    match decode w with
    | .ok i => exec i { s with host := rest }
    | .error _ => illegalWord { s with host := rest }

/-- The state in which the host's next move is to give the word `w` (log 4, log 17). -/
def State.withFetchWord (s : State) (_nbits w : Nat) : State :=
  { s with host := .word (BitVec.ofNat 16 w) :: s.host }

end Sys2Proof.Machine
end

