-- ==== Sys2Proof/Machine/Pipeline.lean ====
section
/-! DEFINITION. The source's Pipeline as the host runs it (spec/46_control.md rules R193 to R195): COMPRESS, a
fixed sequence of commands, and DECOMPRESS, in which the host looks at each response before its next command. -/

namespace Sys2Proof.Machine

/-- What follows a command: it goes on from the state the command left; a stop ends the sequence. -/
def continueWith (r : Result) (k : State → Result) : Result :=
  match r with
  | .next s => k s
  | .fault f => .fault f
  | .refused e => .refused e

/-- The commands in order, each on the state the one before it left. -/
def runAll : List Instr → State → Result
  | [], s => .next s
  | i :: is, s => continueWith (exec i s) (runAll is)

/-- The last response shows phase `p` (R90): the host sees PHASE in status[7:4], and nothing else of the state. -/
def showsPhase (p : Phase) (s : State) : Bool :=
  match s.resp with
  | some r => r.status.extractLsb' 4 4 == p.code
  | none => false

/-- COMPRESS, with the bytes counted and the bytes encoded given apart (R193, R236). -/
def compressCommands (counted encoded : List Byte) : List Instr :=
  [.clear] ++ counted.map .freqByte ++ [.freqEnd, .buildTree, .buildCodes, .hdrEmit] ++
    encoded.map .encByte ++ [.encEnd]

/-- COMPRESS of a source (R193): the same bytes are counted and encoded. -/
def compress (source : List Byte) (s : State) : Result := runAll (compressCommands source source) s

/-- The payload part of DECOMPRESS (R194): DEC_BYTE for each byte, then DEC_END. R194 lets the host stop early
once a response shows DEC_DONE: it then sends at most `extra` bytes more. -/
def sendPayload : (extra : Nat) → List Byte → State → Result
  | _, [], s => exec .decEnd s
  | extra, b :: bs, s =>
    if showsPhase .decDone s then
      match extra with
      | 0 => exec .decEnd s
      | extra + 1 => continueWith (exec (.decByte b) s) (sendPayload extra bs)
    else continueWith (exec (.decByte b) s) (sendPayload extra bs)

/-- What DECOMPRESS does with the bytes left once a response shows TABLE or FAULT (R194, log 18). -/
def sendAfterHeader (extra : Nat) (bs : List Byte) (s : State) : Result :=
  continueWith (exec .buildTree s) (sendPayload extra bs)

/-- The header part of DECOMPRESS (R194): HDR_BYTE for each byte until a response shows TABLE or FAULT; if the
bytes run out before that, the phase still being IDLE or HDR, straight to DEC_END. -/
def sendHeader (extra : Nat) : List Byte → State → Result
  | [], s =>
    if showsPhase .table s || showsPhase .fault s then sendAfterHeader extra [] s else exec .decEnd s
  | b :: bs, s =>
    if showsPhase .table s || showsPhase .fault s then sendAfterHeader extra (b :: bs) s
    else continueWith (exec (.hdrByte b) s) (sendHeader extra bs)

/-- DECOMPRESS of a container (R194), the host sending at most `extra` bytes after it has seen DEC_DONE. -/
def decompress (extra : Nat) (container : List Byte) (s : State) : Result :=
  continueWith (exec .clear s) (sendHeader extra container)

end Sys2Proof.Machine
end

