-- ==== Sys2Proof/Safety.lean ====
section
/-! DEFINITION. What the statements about HUFF are said with: the states a run can hold (`Consistent`, from
spec/10_state.md rules R22 to R35 and spec/41_tree_builder.md rule R116), the answers of rules R90 and R201
written out field by field, and the rules' own notions (paths, the priority order, the bits of a byte). -/

namespace Sys2Proof.Safety

open Sys2Proof.Machine

/-! ## Answers, written out from R90 and R201 -/

/-- The state with the response of R90: status {PHASE, ERR} and the given data. -/
def responded (data : RData) (s : State) : State :=
  { s with resp := some { status := s.phase.code ++ s.err.code, data := data } }

/-- The fields ReleaseTree writes (R118), NODE unspecified afterwards. -/
def released (s : State) : State :=
  { s with treeValid := false, nodeCnt := 0, root := Config.nil, cur := Config.nil, node := [] }

/-- The state a `raise e` leaves from a phase other than FAULT, with its response (R90, R201). -/
def faulted (e : Err) (s : State) : State :=
  { s with
    treeValid := false, nodeCnt := 0, root := Config.nil, cur := Config.nil, node := [],
    err := e, phase := .fault, resp := some { status := 15#4 ++ e.code, data := 0 } }

/-- A command that has no effect: only its response is new. -/
def NoEffect (i : Instr) (s : State) : Prop := exec i s = .next (responded 0 s)

/-- A command that raises `e` before it has written anything. -/
def Raises (i : Instr) (e : Err) (s : State) : Prop := exec i s = .next (faulted e s)

/-- In FAULT a command has no effect (R187). -/
def SilentInFault (i : Instr) : Prop := ∀ s : State, s.phase = .fault → NoEffect i s

/-- Outside the listed phases and FAULT a command raises IllegalCommand (R185). -/
def IllegalOutside (i : Instr) (legal : List Phase) : Prop :=
  ∀ s : State, s.phase ∉ legal → s.phase ≠ .fault → Raises i .illegalCommand s

/-- The word of a command, both ways (the line "Encoding" of the command's rule). -/
def HasWord (i : Instr) (w : CmdWord) : Prop := encode i = w ∧ decode w = .ok i

/-- What counting symbol x does in a legal phase (R100, R101): insert with count 1 at first sight, else add
1, else raise CountOverflow with FT unchanged; no other entry and no other state changes. -/
def CountsSymbol (i : Instr) (x : Nat) (p : Phase) (s : State) : Prop :=
  (Memory.read s.ft x = none → ∃ ft,
    exec i s = .next (responded 0 { s with ft := ft, ftN := s.ftN + 1, phase := p }) ∧
      Memory.read ft x = some 1 ∧ ∀ y, y ≠ x → Memory.read ft y = Memory.read s.ft y) ∧
  (∀ c, Memory.read s.ft x = some c → c ≠ 0xFFFFFFFF#32 → ∃ ft,
    exec i s = .next (responded 0 { s with ft := ft, phase := p }) ∧
      Memory.read ft x = some (c + 1) ∧ ∀ y, y ≠ x → Memory.read ft y = Memory.read s.ft y) ∧
  (Memory.read s.ft x = some 0xFFFFFFFF#32 → Raises i .countOverflow s)

/-! ## The tree and its paths -/

/-- The leaves BUILD_TREE makes from a table in canonical form: one per entry in ascending order of symbol
(R111), a single one twice (R112). -/
def expectedLeaves (ft : List (Nat × Count)) : List Node :=
  let leaves := ft.map fun e => (⟨BitVec.ofNat 9 e.1, e.2.setWidth 41, Config.nil, Config.nil⟩ : Node)
  if ft.length = 1 then leaves ++ leaves else leaves

/-- L = max(FT_N, 2), the number of leaves (R116). -/
def leafCount (ft : List (Nat × Count)) : Nat := max ft.length 2

/-- The weight of node i, as a number. -/
def weightAt (nodes : List Node) (i : Nat) : Nat := (nodeAt nodes i).weight.toNat

/-- Node j is a child of node i. -/
def IsChild (nodes : List Node) (j i : Nat) : Prop :=
  (nodeAt nodes i).zero.toNat = j ∨ (nodeAt nodes i).one.toNat = j

/-- The sum of the weights of the leaves below node i, at most `depth` - 1 edges down (R116). -/
def leafSum (nodes : List Node) : (depth : Nat) → NodeIdx → Nat
  | 0, _ => 0
  | depth + 1, i =>
    if (nodeAt nodes i.toNat).sym = Config.nas then
      leafSum nodes depth (nodeAt nodes i.toNat).zero + leafSum nodes depth (nodeAt nodes i.toNat).one
    else weightAt nodes i.toNat

/-- The shape of a tree built from the table `ft` (R51, R111, R112, R114 to R117). -/
structure Arena (ft : List (Nat × Count)) (nodes : List Node) : Prop where
  /-- NODE_CNT = 2L - 1 (R115). -/
  size : nodes.length = 2 * leafCount ft - 1
  /-- The leaves are exactly nodes 0..L-1 (R116). -/
  leaves : nodes.take (leafCount ft) = expectedLeaves ft
  /-- Nodes L..2L-2 are internal, with two different children of smaller index (R51, R116). -/
  internal : ∀ i, leafCount ft ≤ i → i < nodes.length →
    (nodeAt nodes i).sym = Config.nas ∧ (nodeAt nodes i).zero.toNat < i ∧
      (nodeAt nodes i).one.toNat < i ∧ (nodeAt nodes i).zero ≠ (nodeAt nodes i).one
  /-- The weight of an internal node is the exact sum of its children's (R114, R117). -/
  sums : ∀ i, leafCount ft ≤ i → i < nodes.length →
    weightAt nodes i =
      weightAt nodes (nodeAt nodes i).zero.toNat + weightAt nodes (nodeAt nodes i).one.toNat
  /-- Every node but the root, the last one, is the child of exactly one node (R116). -/
  parents : ∀ j, j + 1 < nodes.length →
    ∃ i, (leafCount ft ≤ i ∧ i < nodes.length ∧ IsChild nodes j i) ∧
      ∀ k, leafCount ft ≤ k → k < nodes.length → IsChild nodes j k → k = i

/-- The order of R113: a smaller weight, or an equal weight and a smaller index. -/
def PriorityBefore (nodes : List Node) (i j : Nat) : Prop :=
  weightAt nodes i < weightAt nodes j ∨ (weightAt nodes i = weightAt nodes j ∧ i < j)

/-- Node j has been combined into a node made before node i. -/
def MergedBefore (ft : List (Nat × Count)) (nodes : List Node) (j i : Nat) : Prop :=
  ∃ k, leafCount ft ≤ k ∧ k < i ∧ IsChild nodes j k

/-- The children of every internal node are the least and the next least, in the order of R113, of the
nodes made before it and not yet combined, the least being the zero-child (R114). -/
def GreedyMerges (ft : List (Nat × Count)) (nodes : List Node) : Prop :=
  ∀ i, leafCount ft ≤ i → i < nodes.length →
    let a := (nodeAt nodes i).zero.toNat
    let b := (nodeAt nodes i).one.toNat
    ¬ MergedBefore ft nodes a i ∧ ¬ MergedBefore ft nodes b i ∧ PriorityBefore nodes a b ∧
      ∀ j, j < i → j ≠ a → j ≠ b → ¬ MergedBefore ft nodes j i → PriorityBefore nodes b j

/-- The node reached from node i along the edges of a code (R8, R128). -/
def descend (nodes : List Node) : NodeIdx → Code → NodeIdx
  | i, [] => i
  | i, t :: c =>
    descend nodes (if t then (nodeAt nodes i.toNat).one else (nodeAt nodes i.toNat).zero) c

/-- The symbol of node i. -/
def symAt (nodes : List Node) (i : NodeIdx) : Symbol := (nodeAt nodes i.toNat).sym

/-- The code `c` leads from the root to a leaf that carries symbol `x`, and to no leaf before its last bit
(R128). -/
def LeafPath (nodes : List Node) (root : NodeIdx) (x : Nat) (c : Code) : Prop :=
  (symAt nodes (descend nodes root c)).toNat = x ∧ x ≠ Config.nas.toNat ∧
    ∀ k, k < c.length → symAt nodes (descend nodes root (c.take k)) = Config.nas

/-- The bytes the decoder emits for a sequence of bits and where it then stands: the cursor, or none once
the sentinel leaf was reached, after which bits are not examined (R150, R152). -/
def decodeBits (nodes : List Node) (root : NodeIdx) : NodeIdx → Code → List Byte × Option NodeIdx
  | cur, [] => ([], some cur)
  | cur, t :: ts =>
    let c := if t then (nodeAt nodes cur.toNat).one else (nodeAt nodes cur.toNat).zero
    if symAt nodes c = Config.nas then decodeBits nodes root c ts
    else if symAt nodes c = Config.eofSym then ([], none)
    else
      let r := decodeBits nodes root root ts
      (BitVec.ofNat 8 (symAt nodes c).toNat :: r.1, r.2)

/-! ## Bits and bytes -/

/-- The bits of a byte, most significant first (R55). -/
def byteBits (b : Byte) : Code := (List.range 8).map b.getMsbD

/-- The bits of a sequence of bytes (R55). -/
def bytesBits (bs : List Byte) : Code := bs.flatMap byteBits

/-- The bits of ACC that are not placed are 0 (R26). -/
def PackerClean (nb : BitVec 3) (acc : BitVec 8) : Prop := ∀ k, nb.toNat ≤ k → acc.getMsbD k = false

/-- The bits placed in the packer and not yet emitted: ACC[7], .., ACC[8-NB] (R26). -/
def placedBits (nb : BitVec 3) (acc : BitVec 8) : Code := (List.range nb.toNat).map acc.getMsbD

/-- The code CT holds for symbol x (R52), empty where it holds none. -/
def codeOf (s : State) (x : Nat) : Code :=
  match Memory.read s.ct x with
  | some e => (List.range e.len.toNat).map e.bits.getMsbD
  | none => []

/-- The six bytes of one header entry (R166): symbol and count, big-endian. -/
def entryBytes (x : Nat) (c : Count) : List Byte :=
  [BitVec.ofNat 8 (x / 256), BitVec.ofNat 8 x, BitVec.ofNat 8 (c.toNat / 2 ^ 24),
    BitVec.ofNat 8 (c.toNat / 2 ^ 16), BitVec.ofNat 8 (c.toNat / 2 ^ 8), BitVec.ofNat 8 c.toNat]

/-- The header of a table with entries in ascending order (R166). -/
def headerBytes (ft : List (Nat × Count)) : List Byte :=
  BitVec.ofNat 8 (ft.length / 256) :: BitVec.ofNat 8 ft.length ::
    ft.flatMap fun e => entryBytes e.1 e.2

/-! ## The phases of R35 and R185 -/

/-- The phases in which FT is final (R35 (b), (c)). -/
def finalTable : List Phase := [.table, .tree, .codes, .enc, .encDone, .dec, .decDone]

/-- The phases in which NODE holds a tree (R35 (d)). -/
def treePhases : List Phase := [.tree, .codes, .enc, .dec]

/-- The phases in which CT may have a valid entry (R35 (e)). -/
def codePhases : List Phase := [.codes, .enc, .encDone, .fault]

/-- The phases a command is legal in (R185, R186 to R192): the rows of R185 read by command. -/
def legalPhases : Instr → List Phase
  | .nop | .clear | .rdReg _ | .rdFreq _ | .rdNode _ | .rdCode _ =>
    [.idle, .count, .hdr, .table, .tree, .codes, .enc, .encDone, .dec, .decDone, .fault]
  | .freqByte _ => [.idle, .count]
  | .freqEnd => [.idle, .count]
  | .buildTree => [.table]
  | .buildCodes => [.tree]
  | .hdrEmit => [.table, .tree, .codes]
  | .encByte _ => [.codes, .enc]
  | .encEnd => [.codes, .enc]
  | .hdrByte _ => [.idle, .hdr]
  | .decBit _ => [.tree, .dec, .decDone]
  | .decByte _ => [.tree, .dec, .decDone]
  | .decEnd => [.tree, .dec, .decDone]

/-- PHASE and ERR after a legal command (R185, the column "next phase"): the command's own errors with
their codes. -/
def nextPhases : Instr → Phase → List (Phase × Err)
  | .nop, p | .rdReg _, p | .rdFreq _, p | .rdNode _, p | .rdCode _, p | .hdrEmit, p => [(p, .none)]
  | .clear, _ => [(.idle, .none)]
  | .freqByte _, .idle => [(.count, .none)]
  | .freqByte _, _ => [(.count, .none), (.fault, .countOverflow)]
  | .freqEnd, _ => [(.table, .none)]
  | .buildTree, _ => [(.tree, .none)]
  | .buildCodes, _ => [(.codes, .none)]
  | .encByte _, _ => [(.enc, .none), (.fault, .malformedInput)]
  | .encEnd, _ => [(.encDone, .none)]
  | .hdrByte _, .idle => [(.hdr, .none)]
  | .hdrByte _, _ => [(.hdr, .none), (.table, .none), (.fault, .corruptHeader)]
  | .decBit _, .decDone | .decByte _, .decDone | .decEnd, .decDone => [(.decDone, .none)]
  | .decBit _, _ | .decByte _, _ => [(.dec, .none), (.decDone, .none)]
  | .decEnd, _ => [(.fault, .truncatedPayload)]

/-- The error a command raises in a phase it is not legal in (R89 step 5, R185). -/
def phaseError : Instr → Phase → Err
  | .buildTree, .idle => .emptyFrequencyTable
  | .decEnd, .hdr => .corruptHeader
  | _, _ => .illegalCommand

/-- NOP, CLEAR and the read commands, which run in every phase (R89 step 2). -/
def AlwaysLegal : Instr → Prop
  | .nop | .clear | .rdReg _ | .rdFreq _ | .rdNode _ | .rdCode _ => True
  | _ => False

/-- The four read commands. -/
def IsRead : Instr → Prop
  | .rdReg _ | .rdFreq _ | .rdNode _ | .rdCode _ => True
  | _ => False

/-! ## The invariant -/

/-- An entry of CT holds a code of 1 to 256 bits, and the bits after it are 0 (R52). -/
def EntryOk (e : CodeEntry) : Prop :=
  1 ≤ e.len.toNat ∧ e.len.toNat ≤ Config.maxLen ∧ ∀ k, e.len.toNat ≤ k → e.bits.getMsbD k = false

/-- What holds while a header is being received (R170, R171): HPOS bytes of it have come. -/
structure HeaderInv (s : State) : Prop where
  /-- At least one byte has come; before the second, nothing is stored. -/
  started : 1 ≤ s.hpos.toNat ∧ (s.hpos.toNat = 1 → s.ft = [])
  /-- After the second byte, N is in range and the header is not complete (R171 (a), R172). -/
  length : 2 ≤ s.hpos.toNat →
    1 ≤ s.hn.toNat ∧ s.hn.toNat ≤ Config.nsym ∧ s.hpos.toNat < 2 + 6 * s.hn.toNat
  /-- One entry is stored per six bytes, HPREV holding the last symbol. -/
  stored : 2 ≤ s.hpos.toNat →
    s.ft.length = (s.hpos.toNat - 2) / 6 ∧ ∀ e ∈ s.ft, e.1 ≤ s.hprev.toNat
  /-- After the two bytes of a symbol, it has passed its tests (R171 (b), (c), (d)). -/
  symbol : 2 ≤ s.hpos.toNat → 2 ≤ (s.hpos.toNat - 2) % 6 →
    s.hsym.toNat ≤ Config.eof ∧ (∀ e ∈ s.ft, e.1 < s.hsym.toNat) ∧
      ((s.hpos.toNat - 2) / 6 + 1 = s.hn.toNat → s.hsym.toNat = Config.eof)

/-- What every state a run from reset holds meets (R22 to R29, R35, R50 to R52, R116, R127, R128). -/
structure Consistent (s : State) : Prop where
  /-- ERR is not 0 exactly in FAULT (R22). -/
  errInFault : s.err ≠ .none ↔ s.phase = .fault
  /-- Code 5 is never held (R206). -/
  errRaised : s.err ≠ .invalidCodeBit
  /-- FT is in canonical form (R50). -/
  ftForm : Memory.wf Config.nsym s.ft
  /-- A present count is at least 1 (R50). -/
  ftPositive : ∀ e ∈ s.ft, e.2 ≠ 0
  /-- FT_N is the number of present entries (R35 (a)). -/
  ftNumber : s.ftN.toNat = s.ft.length
  /-- The sentinel is present once the table is final (R35 (b)). -/
  ftSentinel : s.phase ∈ finalTable → (Memory.read s.ft Config.eof).isSome
  /-- The sentinel is not present before FREQ_END (R101). -/
  ftCounting : s.phase = .count → Memory.read s.ft Config.eof = none
  /-- CT is in canonical form (R52). -/
  ctForm : Memory.wf Config.nsym s.ct
  /-- Every valid entry of CT holds a code (R52). -/
  ctEntries : ∀ e ∈ s.ct, EntryOk e.2
  /-- CT has a valid entry only in the phases of R35 (e). -/
  ctPhase : s.ct ≠ [] → s.phase ∈ codePhases
  /-- CT has a code exactly for the present symbols (R127). -/
  ctComplete : s.phase ∈ [.codes, .enc, .encDone] → s.ct.map Prod.fst = s.ft.map Prod.fst
  /-- The codes are the leaf paths of the tree (R128). -/
  ctPaths : s.phase ∈ [.codes, .enc] → ∀ e ∈ s.ct, LeafPath s.node s.root e.1 e.2.code
  /-- TREE_VALID = 1 exactly in the phases of R35 (d). -/
  treeInPhase : s.treeValid = true ↔ s.phase ∈ treePhases
  /-- Without a tree the tree registers are as R24 says, and no node is listed. -/
  treeGone : s.treeValid = false →
    s.nodeCnt = 0 ∧ s.root = Config.nil ∧ s.cur = Config.nil ∧ s.node = []
  /-- A valid tree is one BUILD_TREE built from FT (R116, R196), its registers as R24 says. -/
  treeBuilt : s.treeValid = true →
    Arena s.ft s.node ∧ s.nodeCnt.toNat = s.node.length ∧ s.root.toNat + 1 = s.node.length
  /-- The cursor is on an internal node (R25). -/
  cursor : s.treeValid = true → s.cur.toNat < s.node.length ∧ symAt s.node s.cur = Config.nas
  /-- The cursor is on the root until decoding begins (R110, R125). -/
  cursorAtRoot : s.phase ∈ [.tree, .codes, .enc] → s.cur = s.root
  /-- The bits of ACC that are not placed are 0 (R26). -/
  packerPlaced : PackerClean s.nb s.acc
  /-- The packer is empty outside ENC and a fault from it (R35 (f)). -/
  packerEmpty : s.phase ∉ [.enc, .fault] → s.nb = 0 ∧ s.acc = 0
  /-- In IDLE every piece of state has its reset value (R34). -/
  idleIsReset : s.phase = .idle → s = { State.reset with resp := s.resp, host := s.host }
  /-- While a header is being received (R170). -/
  header : s.phase = .hdr → HeaderInv s
  /-- The ranges of HPOS and HPREV (R29). -/
  headerRange : s.hpos.toNat ≤ Config.hdrMax ∧ s.hprev.toNat ≤ Config.eof

end Sys2Proof.Safety
end

