-- ==== Sys2Proof/Certificates/Slice0/Obligations.lean ====
section
/-! DEFINITION. The statements for the provers. Each docstring names the rule of spec/ it says. -/

open Sys2Proof Sys2Proof.Machine Sys2Proof.Safety

/-! ## Encoding -/

/-- Every command has one word and every legal word one command, with every operand at every value: decode
and encode are inverse to each other (spec/30_encoding.md section 3). -/
def Obligations.DecodeInvertsEncode : Prop :=
  ∀ (w : CmdWord) (i : Instr), decode w = .ok i ↔ encode i = w

/-- R87: a word encodes the command of a row exactly when `(w & mask) = match`. -/
def Obligations.TableRowsSelectTheirCommand : Prop :=
  ∀ row ∈ opcodeTable, ∀ w : CmdWord,
    (w &&& row.mask = row.pattern ↔ ∃ i, decode w = .ok i ∧ i.mnemonic = row.mnemonic) ∧
      (w &&& row.mask = row.pattern → w.extractLsb' 10 6 = row.op)

/-- R86: every operand is the named slice of arg, unsigned; a byte used as a symbol is zero-extended and
never EOF or NAS. -/
def Obligations.OperandsAreSlicesOfTheWord : Prop :=
  ∀ w : CmdWord,
    (∀ b, decode w = .ok (.freqByte b) ∨ decode w = .ok (.encByte b) ∨ decode w = .ok (.hdrByte b) ∨
        decode w = .ok (.decByte b) →
      b.toNat = w.toNat % 2 ^ 8 ∧ symbolOfByte b = b.toNat ∧ symbolOfByte b ≠ Config.eof ∧
        symbolOfByte b ≠ Config.nas.toNat) ∧
    (∀ t, decode w = .ok (.decBit t) → t.toNat = w.toNat % 2) ∧
    (∀ r, decode w = .ok (.rdReg r) → r.toNat = w.toNat % 2 ^ 3) ∧
    (∀ x, decode w = .ok (.rdFreq x) ∨ decode w = .ok (.rdNode x) ∨ decode w = .ok (.rdCode x) →
      x.toNat = w.toNat % 2 ^ 10)

/-- R88: the illegal encodings are the words of the list, and executing one outside FAULT raises
IllegalCommand and does nothing else. -/
def Obligations.IllegalEncodingsRaise : Prop :=
  (∀ w : CmdWord, (∃ e, decode w = .error e) ↔
    ((0x0D ≤ w.toNat / 2 ^ 10 ∧ w.toNat / 2 ^ 10 ≤ 0x0F) ∨ 0x14 ≤ w.toNat / 2 ^ 10 ∨
      (w.toNat / 2 ^ 10 ∈ [0x00, 0x01, 0x03, 0x04, 0x05, 0x06, 0x08, 0x0C] ∧ w.toNat % 2 ^ 10 ≠ 0) ∨
      (w.toNat / 2 ^ 10 ∈ [0x02, 0x07, 0x09, 0x0B] ∧ w.toNat % 2 ^ 10 / 2 ^ 8 ≠ 0) ∨
      (w.toNat / 2 ^ 10 = 0x0A ∧ w.toNat % 2 ^ 10 / 2 ≠ 0) ∨
      (w.toNat / 2 ^ 10 = 0x10 ∧ w.toNat % 2 ^ 10 / 2 ^ 3 ≠ 0))) ∧
  ∀ (s : State) (w : CmdWord) (rest : List HostMove) (e : IllegalWord),
    s.host = .word w :: rest → decode w = .error e → s.phase ≠ .fault →
      step s = .next (faulted .illegalCommand { s with host := rest })

/-- The decoder accepts exactly the words whose operand field obeys its format (R81 to R85). -/
def Obligations.WellFormedWordsDecode : Prop :=
  ∀ w : CmdWord, (RawWord.ofWord w).wellFormed = true ↔ ∃ i, decode w = .ok i

/-- The examples of R87 and the vectors E1 to E26 of spec/95_test_vectors.md section 2.2. -/
def Obligations.DecodedWordsOfTheSpec : Prop :=
  decode 0x0000#16 = .ok .nop ∧ decode 0x0400#16 = .ok .clear ∧
  decode 0x0861#16 = .ok (.freqByte 0x61) ∧ decode 0x0C00#16 = .ok .freqEnd ∧
  decode 0x1000#16 = .ok .buildTree ∧ decode 0x1400#16 = .ok .buildCodes ∧
  decode 0x1800#16 = .ok .hdrEmit ∧ decode 0x1C61#16 = .ok (.encByte 0x61) ∧
  decode 0x2000#16 = .ok .encEnd ∧ decode 0x2403#16 = .ok (.hdrByte 0x03) ∧
  decode 0x2801#16 = .ok (.decBit 1) ∧ decode 0x2C2C#16 = .ok (.decByte 0x2C) ∧
  decode 0x3000#16 = .ok .decEnd ∧ decode 0x4007#16 = .ok (.rdReg 7) ∧
  decode 0x4500#16 = .ok (.rdFreq 256) ∧ decode 0x4A00#16 = .ok (.rdNode 512) ∧
  decode 0x4D00#16 = .ok (.rdCode 256) ∧ decode 0x0900#16 = .error .operandOfFormatB ∧
  decode 0x0C01#16 = .error .operandOfFormatN ∧ decode 0x2802#16 = .error .operandOfFormatT ∧
  decode 0x4008#16 = .error .operandOfFormatR ∧ decode 0x3400#16 = .error .reservedOpcode ∧
  decode 0x5000#16 = .error .reservedOpcode ∧ decode 0xFFFF#16 = .error .reservedOpcode

/-! ## The step -/

/-- When the host's next word decodes to a command, the step is that command on the state without the word;
a command placed by `withFetchWord` is the one that runs (spec/30_encoding.md R89; the field `host` is the
model's own, log 1). -/
def Obligations.StepRunsTheDecodedCommand : Prop :=
  (∀ (s : State) (w : CmdWord) (rest : List HostMove) (i : Instr),
    s.host = .word w :: rest → decode w = .ok i → step s = exec i { s with host := rest }) ∧
  ∀ (s : State) (i : Instr), step (s.withFetchWord 16 (encode i).toNat) = exec i s

/-- The reset input puts every piece of state of R34 at its reset value, whatever it was, and apart from the
response the effect is that of CLEAR (R230). That no response is left and that the host's later moves stay is
the model's choice (logs 1, 2, 5). -/
def Obligations.ResetInputGivesTheResetState : Prop :=
  ∀ (s : State) (rest : List HostMove), s.host = .reset :: rest →
    step s = .next { State.reset with host := rest } ∧
      exec .clear { s with host := rest } = .next (responded 0 { State.reset with host := rest })

/-- With no move of the host left, HUFF waits: a step changes nothing (the model's choice, log 3). -/
def Obligations.StepWaitsForTheHost : Prop :=
  ∀ s : State, s.host = [] → step s = .next s

/-! ## Control and read-back -/

/-- R34: the values after reset, and equally after CLEAR. -/
def Obligations.ResetAndClearValues : Prop :=
  ∀ t : State, (t = State.reset ∨ ∃ s, exec .clear s = .next t) →
    t.phase = .idle ∧ t.err = .none ∧ t.ftN = 0 ∧ (∀ x, t.ftPresent x = false) ∧
    (∀ x, t.ctValid x = false) ∧ t.treeValid = false ∧ t.nodeCnt = 0 ∧ t.root = 1023 ∧ t.cur = 1023 ∧
    t.acc = 0 ∧ t.nb = 0 ∧ t.bitcnt = 0 ∧ t.hpos = 0 ∧ t.hn = 0 ∧ t.hsym = 0 ∧ t.hcnt = 0 ∧ t.hprev = 0 ∧
    t.out = []

/-- R188, R231: CLEAR is legal in every phase, answers status 0, and nothing of the cycle survives it. -/
def Obligations.ClearStartsANewCycle : Prop :=
  HasWord .clear 0x0400#16 ∧
  ∀ s : State,
    exec .clear s = .next { State.reset with resp := some { status := 0, data := 0 }, host := s.host }

/-- R186: NOP does nothing in every phase, FAULT included; its response has the status as it stands. -/
def Obligations.NopDoesNothing : Prop :=
  HasWord .nop 0x0000#16 ∧ ∀ s : State, exec .nop s = .next (responded 0 s)

/-- R189, R33: RD_REG r answers the layout of register number r, other bits 0, and changes no state. -/
def Obligations.RdRegAnswersTheRegisterMap : Prop :=
  ∀ (r : BitVec 3) (s : State), HasWord (.rdReg r) (0x4000#16 ||| r.setWidth 16) ∧
    ∃ data : RData, exec (.rdReg r) s = .next (responded data s) ∧ data.toNat =
      match r.toNat with
      | 0 => s.err.code.toNat + 2 ^ 4 * s.phase.code.toNat + 2 ^ 8 * s.treeValid.toNat
      | 1 => s.bitcnt.toNat
      | 2 => s.ftN.toNat
      | 3 => s.nodeCnt.toNat
      | 4 => s.root.toNat
      | 5 => s.cur.toNat
      | 6 => s.acc.toNat + 2 ^ 8 * s.nb.toNat
      | _ => s.hpos.toNat + 2 ^ 11 * s.hn.toNat

/-- R190: RD_FREQ x answers {1, count} for a present symbol and 0 otherwise, out of range included. -/
def Obligations.RdFreqAnswersTheEntry : Prop :=
  ∀ (x : BitVec 10) (s : State), HasWord (.rdFreq x) (0x4400#16 ||| x.setWidth 16) ∧
    ∃ data : RData, exec (.rdFreq x) s = .next (responded data s) ∧
    (∀ c, x.toNat ≤ 256 → Memory.read s.ft x.toNat = some c → data.toNat = 2 ^ 32 + c.toNat) ∧
    (256 < x.toNat ∨ Memory.read s.ft x.toNat = none → data = 0)

/-- R191: RD_NODE x answers the node with its valid bit inside the tree and 0 otherwise. -/
def Obligations.RdNodeAnswersTheNode : Prop :=
  ∀ (x : BitVec 10) (s : State), HasWord (.rdNode x) (0x4800#16 ||| x.setWidth 16) ∧
    ∃ data : RData, exec (.rdNode x) s = .next (responded data s) ∧
    (∀ n, s.treeValid = true → x.toNat < s.nodeCnt.toNat → s.node[x.toNat]? = some n →
      data.toNat = 2 ^ 70 + 2 ^ 61 * n.sym.toNat + 2 ^ 20 * n.weight.toNat + 2 ^ 10 * n.zero.toNat +
        n.one.toNat) ∧
    (s.treeValid = false ∨ s.nodeCnt.toNat ≤ x.toNat → data = 0)

/-- R192: RD_CODE x answers the code with its length and valid bit, and 0 for a symbol with no code. -/
def Obligations.RdCodeAnswersTheCode : Prop :=
  ∀ (x : BitVec 10) (s : State), HasWord (.rdCode x) (0x4C00#16 ||| x.setWidth 16) ∧
    ∃ data : RData, exec (.rdCode x) s = .next (responded data s) ∧
    (∀ e, x.toNat ≤ 256 → Memory.read s.ct x.toNat = some e →
      data.toNat = 2 ^ 265 + 2 ^ 256 * e.len.toNat + e.bits.toNat) ∧
    (256 < x.toNat ∨ Memory.read s.ct x.toNat = none → data = 0)

/-! ## Frequency counting -/

/-- R100: FREQ_BYTE counts one source byte. -/
def Obligations.FreqByteCountsItsByte : Prop :=
  ∀ b : Byte, HasWord (.freqByte b) (0x0800#16 ||| b.setWidth 16) ∧
    (∀ s : State, s.phase = .idle ∨ s.phase = .count → CountsSymbol (.freqByte b) b.toNat .count s) ∧
    IllegalOutside (.freqByte b) [.idle, .count] ∧ SilentInFault (.freqByte b)

/-- R101: FREQ_END adds the sentinel, in a state a run holds always with count 1, and makes FT final. -/
def Obligations.FreqEndAddsTheSentinel : Prop :=
  HasWord .freqEnd 0x0C00#16 ∧
  (∀ s : State, s.phase = .idle ∨ s.phase = .count →
    CountsSymbol .freqEnd 256 .table s ∧ (Consistent s → Memory.read s.ft 256 = none)) ∧
  IllegalOutside .freqEnd [.idle, .count] ∧ SilentInFault .freqEnd

/-- R102: after a counting pass over S the table holds the number of occurrences of each byte of S and the
sentinel once. -/
def Obligations.CountingPassCountsOccurrences : Prop :=
  ∀ (S : List Byte) (s : State), Consistent s → s.phase = .idle → (∀ b, S.count b ≤ 2 ^ 32 - 1) →
    ∃ t, runAll (S.map .freqByte ++ [.freqEnd]) s = .next t ∧ t.phase = .table ∧
      (∀ b : Byte, Memory.read t.ft b.toNat =
        if b ∈ S then some (BitVec.ofNat 32 (S.count b)) else none) ∧
      Memory.read t.ft 256 = some 1 ∧ t.ftN.toNat = S.dedup.length + 1 ∧
      (t.ft.map fun e => e.2.toNat).sum = S.length + 1

/-- R103: the table after a pass does not depend on the order of the bytes. -/
def Obligations.CountingIsOrderIndependent : Prop :=
  ∀ (S S' : List Byte) (s : State), S.Perm S' → Consistent s → s.phase = .idle →
    (∀ b, S.count b ≤ 2 ^ 32 - 1) →
    ∃ t, runAll (S.map .freqByte ++ [.freqEnd]) s = .next t ∧
      runAll (S'.map .freqByte ++ [.freqEnd]) s = .next t

/-! ## The tree -/

/-- R111, R115, R116: BUILD_TREE in phase TABLE completes, writes only NODE, the tree registers and PHASE, and
leaves L = max(FT_N, 2) leaves in ascending order of symbol and L - 1 internal nodes of two children each; an
internal node's weight is the sum of the leaves below it, the root's the sum of all counts, twice the count of a
single entry. -/
def Obligations.BuildTreeBuildsTheArena : Prop :=
  HasWord .buildTree 0x1000#16 ∧
  ∀ s : State, Consistent s → s.phase = .table → ∃ nodes,
    exec .buildTree s = .next (responded 0 { s with
      node := nodes, root := BitVec.ofNat 10 (2 * leafCount s.ft - 2),
      nodeCnt := BitVec.ofNat 10 (2 * leafCount s.ft - 1),
      cur := BitVec.ofNat 10 (2 * leafCount s.ft - 2), treeValid := true, phase := .tree }) ∧
    Arena s.ft nodes ∧ nodes.length ≤ Config.nodeCap ∧
    (∀ i, i < nodes.length → weightAt nodes i = leafSum nodes (i + 1) (BitVec.ofNat 10 i)) ∧
    weightAt nodes (2 * leafCount s.ft - 2) =
      (if s.ft.length = 1 then 2 else 1) * (s.ft.map fun e => e.2.toNat).sum

/-- R113, R114: every merge takes the least and the next least of the nodes not yet combined, in the order
by weight and then by index; the first removed is the zero-child, the new node has no symbol and the sum of
the weights. -/
def Obligations.BuildTreeMergesTheLeastPair : Prop :=
  ∀ s t : State, Consistent s → s.phase = .table → exec .buildTree s = .next t →
    GreedyMerges s.ft t.node ∧
    ∀ i, leafCount s.ft ≤ i → i < t.node.length →
      (nodeAt t.node i).sym = 257 ∧
        weightAt t.node i =
          weightAt t.node (nodeAt t.node i).zero.toNat + weightAt t.node (nodeAt t.node i).one.toNat

/-- R119 and the legal phases of R110: in IDLE the table is empty and BUILD_TREE raises EmptyFrequencyTable;
in any other phase but TABLE and FAULT it raises IllegalCommand. -/
def Obligations.BuildTreeOutsideTable : Prop :=
  (∀ s : State, s.phase = .idle → Raises .buildTree .emptyFrequencyTable s ∧
    (Consistent s → s.ftN = 0 ∧ ∀ x, s.ftPresent x = false)) ∧
  IllegalOutside .buildTree [.table, .idle] ∧ SilentInFault .buildTree

/-- R120: the tree is a function of FT alone. -/
def Obligations.BuildTreeDependsOnTheTableAlone : Prop :=
  ∀ s t s' t' : State, s.phase = .table → s'.phase = .table → s.ft = s'.ft →
    exec .buildTree s = .next t → exec .buildTree s' = .next t' →
    t.node = t'.node ∧ t.root = t'.root ∧ t.nodeCnt = t'.nodeCnt

/-! ## The code table -/

/-- R127, R128: BUILD_CODES in phase TREE completes, writes only CT and PHASE, gives a code exactly to the
present symbols, and each code is the path from the root to a leaf of its symbol, 1 to 256 bits, no code the
prefix of another. -/
def Obligations.BuildCodesRecordsTheLeafPaths : Prop :=
  HasWord .buildCodes 0x1400#16 ∧
  (∀ s : State, Consistent s → s.phase = .tree → ∃ ct,
    exec .buildCodes s = .next (responded 0 { s with ct := ct, phase := .codes }) ∧
    (∀ x, (Memory.read ct x).isSome = (Memory.read s.ft x).isSome) ∧
    (∀ x e, Memory.read ct x = some e → EntryOk e ∧ LeafPath s.node s.root x e.code) ∧
    ∀ x y e f, x ≠ y → Memory.read ct x = some e → Memory.read ct y = some f → ¬ e.code <+: f.code) ∧
  IllegalOutside .buildCodes [.tree] ∧ SilentInFault .buildCodes

/-- R129: the code table is a function of NODE and ROOT alone. -/
def Obligations.CodesDependOnTheTreeAlone : Prop :=
  ∀ s t s' t' : State, Consistent s → Consistent s' → s.phase = .tree → s'.phase = .tree →
    s.node = s'.node → s.root = s'.root → exec .buildCodes s = .next t → exec .buildCodes s' = .next t' →
    t.ct = t'.ct

/-- While codes are used no code in CT is the prefix of another (R128, R35 (e)). -/
def Obligations.CodesArePrefixFree : Prop :=
  ∀ s : State, Consistent s → s.phase = .codes ∨ s.phase = .enc → ∀ x y, x ≠ y →
    s.ctValid x = true → s.ctValid y = true → ¬ codeOf s x <+: codeOf s y

/-- R112: a table with one entry, the sentinel, gives the tree with two sentinel leaves; the first of them,
reached with "0", gives the code (R126). -/
def Obligations.SingleEntryHasCodeZero : Prop :=
  ∀ s : State, Consistent s → s.phase = .table → s.ft.length = 1 → ∃ t u n c,
    Memory.read s.ft 256 = some n ∧ c = n.setWidth 41 ∧
    exec .buildTree s = .next t ∧ exec .buildCodes t = .next u ∧
    t.node = [⟨256, c, 1023, 1023⟩, ⟨256, c, 1023, 1023⟩, ⟨257, c + c, 0, 1⟩] ∧ t.root = 2 ∧ t.nodeCnt = 3 ∧
    Memory.read u.ct 256 = some { len := 1, bits := 0 } ∧ ∀ x, x ≠ 256 → Memory.read u.ct x = none

/-! ## The encoder -/

/-- R135, R137: ENC_BYTE b appends the code of b to the bits of the payload; bits of full bytes go to OUT,
the rest stays in the packer; BITCNT counts the code's bits; a byte with no code raises MalformedInput before
any bit is packed. -/
def Obligations.EncByteAppendsTheCode : Prop :=
  ∀ b : Byte, HasWord (.encByte b) (0x1C00#16 ||| b.setWidth 16) ∧
    (∀ s : State, s.phase = .codes ∨ s.phase = .enc →
      (s.ctValid b.toNat = false → Raises (.encByte b) .malformedInput s) ∧
      (s.ctValid b.toNat = true → ∃ bs acc nb,
        exec (.encByte b) s = .next (responded 0 { s with
          out := s.out ++ bs, acc := acc, nb := nb,
          bitcnt := s.bitcnt + BitVec.ofNat 64 (codeOf s b.toNat).length, phase := .enc }) ∧
        (PackerClean s.nb s.acc → PackerClean nb acc ∧
          placedBits s.nb s.acc ++ codeOf s b.toNat = bytesBits bs ++ placedBits nb acc))) ∧
    IllegalOutside (.encByte b) [.codes, .enc] ∧ SilentInFault (.encByte b)

/-- R136, R138: ENC_END appends the sentinel's code, fills the last byte with 0 bits, releases the tree and
ends the encode pass; in a state a run holds the sentinel has a code. -/
def Obligations.EncEndFlushesAndReleases : Prop :=
  HasWord .encEnd 0x2000#16 ∧
  (∀ s : State, s.phase = .codes ∨ s.phase = .enc →
    (Consistent s → s.ctValid 256 = true) ∧
    (s.ctValid 256 = false → Raises .encEnd .malformedInput s) ∧
    (s.ctValid 256 = true → PackerClean s.nb s.acc → ∃ bs n,
      exec .encEnd s = .next (responded 0 { released s with
        out := s.out ++ bs, acc := 0, nb := 0,
        bitcnt := s.bitcnt + BitVec.ofNat 64 (codeOf s 256).length, phase := .encDone }) ∧
      n < 8 ∧ bytesBits bs = placedBits s.nb s.acc ++ codeOf s 256 ++ List.replicate n false)) ∧
  IllegalOutside .encEnd [.codes, .enc] ∧ SilentInFault .encEnd

/-- R139: the payload of a whole encode pass is the concatenation of the codes and the sentinel's code,
packed most significant bit first, the last byte filled with 0 bits, and BITCNT counts its bits. -/
def Obligations.EncodePassWritesThePayload : Prop :=
  ∀ (S : List Byte) (s : State), Consistent s → s.phase = .codes → (∀ b ∈ S, s.ctValid b.toNat = true) →
    let P := S.flatMap (fun b => codeOf s b.toNat) ++ codeOf s 256
    ∃ t bs, runAll (S.map .encByte ++ [.encEnd]) s = .next t ∧ t.phase = .encDone ∧
      t.out = s.out ++ bs ∧ bs.length = (P.length + 7) / 8 ∧
      t.bitcnt = s.bitcnt + BitVec.ofNat 64 P.length ∧
      ∀ k, k < 8 * bs.length → ∃ b, bs[k / 8]? = some b ∧
        b.getLsbD (7 - k % 8) = P.getD k false

/-! ## The decoder -/

/-- R150, R153: one step of the walker: to an internal node; to a literal leaf, whose byte goes to OUT, and
back to the root; or to the sentinel leaf, which releases the tree. -/
def Obligations.DecBitWalksOneStep : Prop :=
  ∀ t : BitVec 1, HasWord (.decBit t) (0x2800#16 ||| t.setWidth 16) ∧
    (∀ s : State, s.phase = .tree ∨ s.phase = .dec →
      let n := nodeAt s.node s.cur.toNat
      let c := if t = 0 then n.zero else n.one
      (symAt s.node c = 257 →
        exec (.decBit t) s = .next (responded 0 { s with cur := c, phase := .dec })) ∧
      (symAt s.node c = 256 →
        exec (.decBit t) s = .next (responded 0 { released s with phase := .decDone })) ∧
      (symAt s.node c ≠ 257 → symAt s.node c ≠ 256 →
        exec (.decBit t) s = .next (responded 0 { s with
          out := s.out ++ [(symAt s.node c).setWidth 8], cur := s.root, phase := .dec }))) ∧
    (∀ s : State, s.phase = .decDone → NoEffect (.decBit t) s) ∧
    IllegalOutside (.decBit t) [.tree, .dec, .decDone] ∧ SilentInFault (.decBit t)

/-- R151, R155: DEC_BYTE gives the walker the bits of its byte, most significant first, until the sentinel
leaf is reached; the rest of the byte is ignored. -/
def Obligations.DecByteWalksItsBits : Prop :=
  ∀ b : Byte, HasWord (.decByte b) (0x2C00#16 ||| b.setWidth 16) ∧
    (∀ s : State, s.phase = .tree ∨ s.phase = .dec →
      let r := decodeBits s.node s.root s.cur (byteBits b)
      (∀ c, r.2 = some c →
        exec (.decByte b) s = .next (responded 0 { s with
          out := s.out ++ r.1, cur := c, phase := .dec })) ∧
      (r.2 = none →
        exec (.decByte b) s = .next (responded 0 { released s with
          out := s.out ++ r.1, phase := .decDone }))) ∧
    (∀ s : State, s.phase = .decDone → NoEffect (.decByte b) s) ∧
    IllegalOutside (.decByte b) [.tree, .dec, .decDone] ∧ SilentInFault (.decByte b)

/-- R155, R156: any mixture of DEC_BIT and DEC_BYTE has the effect of one DEC_BIT for each bit in command
order, a byte's bits most significant first, in every phase. -/
def Obligations.DecBytesAreTheirBits : Prop :=
  ∀ (units : List (BitVec 1 ⊕ Byte)) (s : State),
    runAll (units.map fun u => match u with | .inl t => .decBit t | .inr b => .decByte b) s =
      runAll (units.flatMap fun u =>
        match u with
        | .inl t => [.decBit t]
        | .inr b => (byteBits b).map fun t => .decBit (BitVec.ofBool t)) s

/-- R154: in DEC_DONE the decoder's commands do nothing. -/
def Obligations.DecDoneIgnoresInput : Prop :=
  ∀ s : State, s.phase = .decDone →
    (∀ t, NoEffect (.decBit t) s) ∧ (∀ b, NoEffect (.decByte b) s) ∧ NoEffect .decEnd s ∧
      (Consistent s → s.err = .none)

/-- R157: the phases of DEC_END and what it does in each. -/
def Obligations.DecEndReportsTheEnd : Prop :=
  HasWord .decEnd 0x3000#16 ∧
  ∀ s : State,
    (s.phase = .decDone → NoEffect .decEnd s) ∧
    (s.phase = .tree ∨ s.phase = .dec → Raises .decEnd .truncatedPayload s) ∧
    (s.phase = .hdr → Raises .decEnd .corruptHeader s) ∧
    (s.phase ∉ [.decDone, .tree, .dec, .hdr, .fault] → Raises .decEnd .illegalCommand s) ∧
    (s.phase = .fault → NoEffect .decEnd s)

/-- Walking a tree from the root along the code of a symbol emits the symbol and returns to the root, or,
for the sentinel, ends the decode pass with nothing emitted (R128, R150, R158). -/
def Obligations.CodesDecodeToTheirSymbol : Prop :=
  ∀ (s : State) (x : Nat) (c : Code), Consistent s → s.phase = .tree ∨ s.phase = .dec → s.cur = s.root →
    LeafPath s.node s.root x c →
    ∃ t, runAll (c.map fun t => .decBit (BitVec.ofBool t)) s = .next (responded 0 t) ∧
      (x = 256 → t = { released s with phase := .decDone }) ∧
      (x ≠ 256 → x < 256 ∧ t = { s with out := s.out ++ [BitVec.ofNat 8 x], phase := .dec })

/-- R158: decompressing what was compressed gives back the bytes given to ENC_BYTE, whatever was counted, as
long as every byte encoded was counted and no count overflows; with encoded = counted it is the round trip of
the source. Both cycles begin in any state; the second is DECOMPRESS as R194 has it, whatever bytes follow the
container and however many of them the host still sends (R154). -/
def Obligations.DecompressInvertsCompress : Prop :=
  ∀ (counted encoded : List Byte) (s s' : State),
    (∀ b ∈ encoded, b ∈ counted) → (∀ b, counted.count b ≤ 2 ^ 32 - 1) →
    ∃ t u, runAll (compressCommands counted encoded) s = .next t ∧ t.phase = .encDone ∧ t.err = .none ∧
      (∀ extra rest, decompress extra (t.out ++ rest) s' = .next u) ∧
      u.phase = .decDone ∧ u.err = .none ∧ u.out = encoded

/-! ## The pipeline -/

/-- R193: from any state COMPRESS ends in ENC_DONE, the tree released, with OUT the header of the counts of S
and then the payload, unless a byte occurs more than 2^32 - 1 times, which ends in CountOverflow; no other
fault is possible. -/
def Obligations.CompressEndsWithTheContainer : Prop :=
  ∀ (S : List Byte) (s : State), ∃ t, compress S s = .next t ∧
    ((∀ b, S.count b ≤ 2 ^ 32 - 1) →
      t.phase = .encDone ∧ t.err = .none ∧ t.treeValid = false ∧
      (∀ b : Byte, Memory.read t.ft b.toNat =
        if b ∈ S then some (BitVec.ofNat 32 (S.count b)) else none) ∧
      Memory.read t.ft 256 = some 1 ∧
      ∃ bs n, t.out = headerBytes t.ft ++ bs ∧ n < 8 ∧
        bytesBits bs = S.flatMap (fun b => codeOf t b.toNat) ++ codeOf t 256 ++ List.replicate n false) ∧
    ((∃ b, 2 ^ 32 - 1 < S.count b) → t.phase = .fault ∧ t.err = .countOverflow)

/-- R194: from any state DECOMPRESS ends the same however early the host stops after DEC_DONE: in DEC_DONE, or
in FAULT with CorruptHeader, with TruncatedPayload or, for a container of no bytes and no other,
IllegalCommand. Bytes `h` at which the header is found bad, or that end inside it, give CorruptHeader; after a
whole header `h`, OUT is what the tree of its table decodes the rest to, and the end is DEC_DONE if the
sentinel leaf was reached and TruncatedPayload if not. -/
def Obligations.DecompressEndsAsStated : Prop :=
  ∀ (c : List Byte) (s : State), ∃ u, (∀ extra, decompress extra c s = .next u) ∧
    ((u.phase = .decDone ∧ u.err = .none) ∨
      (u.phase = .fault ∧ u.err ∈ [.corruptHeader, .truncatedPayload, .illegalCommand])) ∧
    (u.err = .illegalCommand ↔ c = []) ∧
    ∀ h p t, c = h ++ p → runAll (.clear :: h.map .hdrByte) s = .next t →
      (t.err = .corruptHeader → u.err = .corruptHeader) ∧
      (t.phase = .hdr → p = [] → u.err = .corruptHeader) ∧
      (t.phase = .table → ∃ v, exec .buildTree t = .next v ∧ v.phase = .tree ∧
        let r := decodeBits v.node v.root v.root (bytesBits p)
        u.out = r.1 ∧ (r.2 = none → u.phase = .decDone) ∧ (r.2 ≠ none → u.err = .truncatedPayload))

/-! ## The serializer -/

/-- R166, R167: HDR_EMIT appends the header of FT to OUT, 2 + 6 * FT_N bytes, and changes nothing else. -/
def Obligations.HdrEmitAppendsTheHeader : Prop :=
  HasWord .hdrEmit 0x1800#16 ∧
  (∀ s : State, Consistent s → s.phase ∈ [.table, .tree, .codes] →
    exec .hdrEmit s = .next (responded 0 { s with out := s.out ++ headerBytes s.ft }) ∧
      (headerBytes s.ft).length = 2 + 6 * s.ftN.toNat) ∧
  IllegalOutside .hdrEmit [.table, .tree, .codes] ∧ SilentInFault .hdrEmit

/-- R170: what HDR_BYTE does with the byte at position p of the header, test by test. -/
def Obligations.HdrByteReceivesOneByte : Prop :=
  ∀ b : Byte, HasWord (.hdrByte b) (0x2400#16 ||| b.setWidth 16) ∧
    (∀ s : State, s.phase = .idle ∨ s.phase = .hdr →
      let p := s.hpos.toNat
      let k := (p - 2) / 6
      let j := (p - 2) % 6
      let r : State := { s with phase := .hdr, hpos := s.hpos + 1 }
      let n := s.hn ||| b.setWidth 16
      let y := s.hsym ||| b.setWidth 16
      let c := (s.hcnt <<< 8) ||| b.setWidth 32
      (p = 0 → exec (.hdrByte b) s = .next (responded 0 { r with hn := b.setWidth 16 <<< 8 })) ∧
      (p = 1 → n = 0 ∨ 257 < n.toNat →
        exec (.hdrByte b) s = .next (faulted .corruptHeader { r with hn := n })) ∧
      (p = 1 → n ≠ 0 → n.toNat ≤ 257 →
        exec (.hdrByte b) s = .next (responded 0 { r with hn := n })) ∧
      (2 ≤ p → j = 0 →
        exec (.hdrByte b) s = .next (responded 0 { r with hsym := b.setWidth 16 <<< 8 })) ∧
      (2 ≤ p → j = 1 →
        256 < y.toNat ∨ (0 < k ∧ y.toNat ≤ s.hprev.toNat) ∨ (k + 1 = s.hn.toNat ∧ y.toNat ≠ 256) →
        exec (.hdrByte b) s = .next (faulted .corruptHeader { r with hsym := y })) ∧
      (2 ≤ p → j = 1 →
        y.toNat ≤ 256 → (0 < k → s.hprev.toNat < y.toNat) → (k + 1 = s.hn.toNat → y.toNat = 256) →
        exec (.hdrByte b) s = .next (responded 0 { r with hsym := y })) ∧
      (2 ≤ p → j ∈ [2, 3, 4] → exec (.hdrByte b) s = .next (responded 0 { r with hcnt := c })) ∧
      (2 ≤ p → j = 5 → c = 0 →
        exec (.hdrByte b) s = .next (faulted .corruptHeader { r with hcnt := c })) ∧
      (2 ≤ p → j = 5 → c ≠ 0 → s.hsym.toNat ≤ 256 → ∃ ft,
        exec (.hdrByte b) s = .next (responded 0 { r with
          hcnt := c, ft := ft, ftN := s.ftN + 1, hprev := s.hsym,
          phase := if k + 1 = s.hn.toNat then .table else .hdr }) ∧
        Memory.read ft s.hsym.toNat = some c ∧
        ∀ x, x ≠ s.hsym.toNat → Memory.read ft x = Memory.read s.ft x)) ∧
    IllegalOutside (.hdrByte b) [.idle, .hdr] ∧ SilentInFault (.hdrByte b)

/-- R174, R175: the header HDR_EMIT writes for a table, given to HDR_BYTE from IDLE, raises nothing and gives
the table back, with every other register but the deserializer's as after CLEAR; and every byte sequence that
HDR_BYTE takes from IDLE to TABLE is the header of the table it leaves. -/
def Obligations.HeaderRoundTrips : Prop :=
  (∀ s t : State, Consistent s → s.phase ∈ finalTable → Consistent t → t.phase = .idle → ∃ c,
    Memory.read s.ft 256 = some c ∧
    runAll ((headerBytes s.ft).map .hdrByte) t = .next (responded 0 { t with
      phase := .table, ft := s.ft, ftN := s.ftN, hpos := BitVec.ofNat 11 (2 + 6 * s.ftN.toNat),
      hn := s.ftN.setWidth 16, hsym := 256, hcnt := c, hprev := 256 })) ∧
  ∀ (bs : List Byte) (t u : State), Consistent t → t.phase = .idle →
    runAll (bs.map .hdrByte) t = .next u → u.phase = .table → bs = headerBytes u.ft

/-! ## Phases, errors, the whole machine -/

/-- R185: the phase table, row by row: the legal commands of a phase and the phase after each, the error of a
command that is not legal, and the row FAULT. -/
def Obligations.PhaseTableGovernsCommands : Prop :=
  ∀ (i : Instr) (s : State), Consistent s →
    (s.phase ≠ .fault → s.phase ∈ legalPhases i →
      ∃ t, exec i s = .next t ∧ (t.phase, t.err) ∈ nextPhases i s.phase) ∧
    (s.phase ≠ .fault → s.phase ∉ legalPhases i → Raises i (phaseError i s.phase) s) ∧
    (s.phase = .fault → (¬ AlwaysLegal i → NoEffect i s) ∧
      ∃ t, exec i s = .next t ∧ t.phase = if i = .clear then .idle else .fault)

/-- R187: in FAULT every command but NOP, CLEAR and the reads, and every illegal word, has no effect. -/
def Obligations.FaultPhaseIgnoresCommands : Prop :=
  ∀ s : State, s.phase = .fault →
    (∀ i, ¬ AlwaysLegal i → NoEffect i s) ∧
    ∀ w rest e, s.host = .word w :: rest → decode w = .error e →
      step s = .next (responded 0 { s with host := rest })

/-- R201, R202: a command that enters FAULT has written ERR, the released tree and PHASE, and nothing else,
but for HDR_BYTE, which may have written HPOS, HN, HSYM and HCNT before. -/
def Obligations.FaultEntryIsPrecise : Prop :=
  ∀ (i : Instr) (s t : State), s.phase ≠ .fault → exec i s = .next t → t.phase = .fault →
    t.err ≠ .none ∧
    ((∀ b, i ≠ .hdrByte b) → t = faulted t.err s) ∧
    ∀ b, i = .hdrByte b → ∃ hpos hn hsym hcnt,
      t = faulted t.err { s with hpos := hpos, hn := hn, hsym := hsym, hcnt := hcnt }

/-- R209: the only exits from FAULT are CLEAR and reset, both of which set ERR to 0; in FAULT, ERR keeps the
first error. -/
def Obligations.OnlyClearOrResetLeavesFault : Prop :=
  ∀ s t : State, s.phase = .fault → step s = .next t →
    (t.phase = .fault ∧ t.err = s.err) ∨
    (t.phase = .idle ∧ t.err = .none ∧ ∃ rest,
      s.host = .reset :: rest ∨ ∃ w, s.host = .word w :: rest ∧ decode w = .ok .clear)

/-- R90: the response to every command word has PHASE and ERR as they are after it, and data 0 but for the
read commands. -/
def Obligations.ResponseReportsTheState : Prop :=
  ∀ (s t : State) (w : CmdWord) (rest : List HostMove), s.host = .word w :: rest → step s = .next t →
    ∃ data, t.resp = some { status := t.phase.code ++ t.err.code, data := data } ∧
      ((¬ ∃ i, decode w = .ok i ∧ IsRead i) → data = 0)

/-- R60: no command sees a later command or depends on an earlier response. -/
def Obligations.CommandsSeeNoLaterCommand : Prop :=
  ∀ (i : Instr) (s t : State), exec i s = .next t →
    t.host = s.host ∧
    ∀ (later : List HostMove) (r : Option Response),
      exec i { s with host := later, resp := r } = .next { t with host := later }

/-- The column "written by" of R29 and the writers of the memories in R50 to R54: apart from CLEAR, each piece
of state is changed by its own commands only; ERR only by a raise, with what a raise leaves (R201), and PHASE by
no read and not by NOP. -/
def Obligations.StateHasItsWriters : Prop :=
  ∀ (i : Instr) (s t : State), exec i s = .next t → i ≠ .clear →
    ((t.ft, t.ftN) = (s.ft, s.ftN) ∨ (∃ b, i = .freqByte b) ∨ i = .freqEnd ∨ ∃ b, i = .hdrByte b) ∧
    (t.ct = s.ct ∨ i = .buildCodes) ∧
    ((t.acc, t.nb, t.bitcnt) = (s.acc, s.nb, s.bitcnt) ∨ (∃ b, i = .encByte b) ∨ i = .encEnd) ∧
    ((t.hpos, t.hn, t.hsym, t.hcnt, t.hprev) = (s.hpos, s.hn, s.hsym, s.hcnt, s.hprev) ∨
      ∃ b, i = .hdrByte b) ∧
    (t.out = s.out ∨ i = .hdrEmit ∨ (∃ b, i = .encByte b) ∨ i = .encEnd ∨ (∃ b, i = .decBit b) ∨
      ∃ b, i = .decByte b) ∧
    ((t.treeValid, t.nodeCnt, t.root, t.node) = (s.treeValid, s.nodeCnt, s.root, s.node) ∨
      i = .buildTree ∨ t = released t) ∧
    (t.cur = s.cur ∨ i = .buildTree ∨ (∃ b, i = .decBit b) ∨ (∃ b, i = .decByte b) ∨
      t = released t) ∧
    (t.err = s.err ∨ ∃ hpos hn hsym hcnt, s.phase ≠ .fault ∧
      t = faulted t.err { s with hpos := hpos, hn := hn, hsym := hsym, hcnt := hcnt }) ∧
    (t.phase = s.phase ∨ (i ≠ .nop ∧ ¬ IsRead i))

/-- The tables are immutable once built (R35 (c), (e)): only CLEAR changes FT from phase TABLE on, and only
CLEAR and BUILD_CODES in phase TREE change CT. -/
def Obligations.TablesAreImmutable : Prop :=
  ∀ (i : Instr) (s t : State), exec i s = .next t → i ≠ .clear →
    (s.phase ∈ finalTable ∨ s.phase = .fault → t.ft = s.ft ∧ t.ftN = s.ftN) ∧
    (s.phase ≠ .tree ∨ i ≠ .buildCodes → t.ct = s.ct)

/-- R54: HUFF only appends to OUT, and never reads it: CLEAR apart, what a command appends and all else it
does are the same whatever OUT holds. -/
def Obligations.OutIsAppendOnly : Prop :=
  ∀ (i : Instr) (s t : State), exec i s = .next t → i ≠ .clear →
    ∃ bs, t.out = s.out ++ bs ∧
      ∀ out, exec i { s with out := out } = .next { t with out := out ++ bs }

/-! ## Invariants -/

/-- The state after reset meets the invariant. -/
def Obligations.ResetIsConsistent : Prop := Consistent State.reset

/-- Every step from a state that meets the invariant leaves one that meets it (R22 to R29, R35, R50 to R52,
R116, R127, R128). -/
def Obligations.EveryStepKeepsConsistency : Prop :=
  ∀ s t : State, Consistent s → step s = .next t → Consistent t

/-- R240: every command terminates: from a state that meets the invariant no step stops. -/
def Obligations.EveryStepCompletes : Prop :=
  ∀ s : State, Consistent s → ∃ t, step s = .next t

/-- The canonical forms of the memories and the capacity of NODE (R50 to R53, R116) are kept by every step,
from every state that has them. -/
def Obligations.MemoriesStayCanonical : Prop :=
  ∀ s t : State, Memory.wf 257 s.ft → Memory.wf 257 s.ct → s.node.length ≤ 513 → step s = .next t →
    Memory.wf 257 t.ft ∧ Memory.wf 257 t.ct ∧ t.node.length ≤ 513
end

