-- ==== Sys2Proof/Laws/Merge.lean ====
section
/-! SUPPORT. The merge loop of BUILD_TREE (spec/41_tree_builder.md rules R113 to R117): the order is total,
`leastOf` finds its least element, and one invariant of the loop says everything a turn keeps. -/

set_option Elab.async false

namespace Sys2Proof.Machine

open Sys2Proof.Safety

/-! ## Reading an arena that grows -/

theorem nodeAt_of_getElem? {nodes : List Node} {i : Nat} {n : Node} (h : nodes[i]? = some n) :
    nodeAt nodes i = n := by simp [nodeAt, h]

theorem nodeAt_getElem {nodes : List Node} {i : Nat} (h : i < nodes.length) : nodeAt nodes i = nodes[i] :=
  nodeAt_of_getElem? (List.getElem?_eq_getElem h)

theorem nodeAt_append {nodes ns : List Node} {i : Nat} (h : i < nodes.length) :
    nodeAt (nodes ++ ns) i = nodeAt nodes i := by
  simp only [nodeAt, List.getElem?_append_left h]

theorem nodeAt_append_self (nodes : List Node) (n : Node) : nodeAt (nodes ++ [n]) nodes.length = n := by
  simp [nodeAt]

theorem weightAt_append {nodes ns : List Node} {i : Nat} (h : i < nodes.length) :
    weightAt (nodes ++ ns) i = weightAt nodes i := by rw [weightAt, nodeAt_append h, weightAt]

theorem isChild_append {nodes ns : List Node} {i j : Nat} (h : i < nodes.length) :
    IsChild (nodes ++ ns) j i ↔ IsChild nodes j i := by rw [IsChild, nodeAt_append h, IsChild]

/-! ## The order of R113 -/

theorem before_iff (nodes : List Node) (i j : Nat) : before nodes i j = true ↔ PriorityBefore nodes i j := by
  simp only [before, PriorityBefore, weightAt, Bool.or_eq_true, decide_eq_true_eq, Bool.and_eq_true,
    beq_iff_eq, BitVec.lt_def, BitVec.toNat_inj]

theorem priority_total {nodes : List Node} {i j : Nat} (h : i ≠ j) :
    PriorityBefore nodes i j ∨ PriorityBefore nodes j i := by
  simp only [PriorityBefore]; omega

theorem priority_trans {nodes : List Node} {i j k : Nat} (h : PriorityBefore nodes i j)
    (h' : PriorityBefore nodes j k) : PriorityBefore nodes i k := by
  simp only [PriorityBefore] at *; omega

theorem priority_irrefl (nodes : List Node) (i : Nat) : ¬ PriorityBefore nodes i i := by
  simp [PriorityBefore]

theorem leastOf_eq_none {nodes : List Node} {q : List Nat} : leastOf nodes q = none ↔ q = [] := by
  cases q with
  | nil => simp [leastOf]
  | cons i q => simp only [leastOf]; split <;> simp; split <;> simp

/-- `leastOf` answers an element of Q that is before every other one. -/
theorem leastOf_spec {nodes : List Node} {q : List Nat} {a : Nat} (h : leastOf nodes q = some a) :
    a ∈ q ∧ ∀ j ∈ q, j ≠ a → PriorityBefore nodes a j := by
  induction q generalizing a with
  | nil => simp [leastOf] at h
  | cons i q ih =>
    rw [leastOf] at h
    cases hq : leastOf nodes q with
    | none =>
      rw [hq] at h
      have := leastOf_eq_none.1 hq
      simp_all
    | some j =>
      obtain ⟨hj, hmin⟩ := ih hq
      rw [hq] at h
      simp only at h
      split at h
      · rename_i hb
        obtain rfl : i = a := by simpa using h
        rw [before_iff] at hb
        refine ⟨by simp, fun k hk hne => ?_⟩
        rcases List.mem_cons.1 hk with rfl | hk
        · exact absurd rfl hne
        · by_cases hkj : k = j
          · subst k; exact hb
          · exact priority_trans hb (hmin k hk hkj)
      · rename_i hb
        obtain rfl : j = a := by simpa using h
        rw [before_iff] at hb
        refine ⟨by simp [hj], fun k hk hne => ?_⟩
        rcases List.mem_cons.1 hk with rfl | hk
        · exact (priority_total hne).resolve_left hb
        · exact hmin k hk hne

/-! ## The invariant of the loop -/

/-- What holds after each turn of the loop of R110, for `L` leaves of total weight `T`: Q holds exactly the
nodes that are no node's child, and every node made so far is as R114 says. -/
structure LoopInv (L T : Nat) (nodes : List Node) (q : List Nat) : Prop where
  nodup : q.Nodup
  mem_lt : ∀ i ∈ q, i < nodes.length
  size : nodes.length + q.length = 2 * L
  large : L ≤ nodes.length
  last : L < nodes.length → nodes.length - 1 ∈ q
  internal : ∀ i, L ≤ i → i < nodes.length →
    (nodeAt nodes i).sym = Config.nas ∧ (nodeAt nodes i).zero.toNat < i ∧
      (nodeAt nodes i).one.toNat < i ∧ (nodeAt nodes i).zero ≠ (nodeAt nodes i).one
  sums : ∀ i, L ≤ i → i < nodes.length →
    weightAt nodes i =
      weightAt nodes (nodeAt nodes i).zero.toNat + weightAt nodes (nodeAt nodes i).one.toNat
  total : (q.map (weightAt nodes)).sum = T
  queued : ∀ j, j ∈ q → ∀ i, L ≤ i → i < nodes.length → ¬ IsChild nodes j i
  parents : ∀ j, j < nodes.length → j ∉ q →
    ∃ i, (L ≤ i ∧ i < nodes.length ∧ IsChild nodes j i) ∧
      ∀ k, L ≤ k → k < nodes.length → IsChild nodes j k → k = i
  greedy : ∀ i, L ≤ i → i < nodes.length →
    PriorityBefore nodes (nodeAt nodes i).zero.toNat (nodeAt nodes i).one.toNat ∧
      (∀ k, L ≤ k → k < i → ¬ IsChild nodes (nodeAt nodes i).zero.toNat k ∧
        ¬ IsChild nodes (nodeAt nodes i).one.toNat k) ∧
      ∀ j, j < i → j ≠ (nodeAt nodes i).zero.toNat → j ≠ (nodeAt nodes i).one.toNat →
        (∀ k, L ≤ k → k < i → ¬ IsChild nodes j k) →
        PriorityBefore nodes (nodeAt nodes i).one.toNat j

theorem sum_erase {f : Nat → Nat} {q : List Nat} {a : Nat} (h : a ∈ q) :
    f a + ((q.erase a).map f).sum = (q.map f).sum := by
  have := (List.perm_cons_erase h).map f
  rw [this.sum_eq]; simp

/-- The loop starts with the leaves, all of them queued. -/
theorem loopInv_leaves {nodes : List Node} {T : Nat}
    (hT : ((List.range nodes.length).map (weightAt nodes)).sum = T) :
    LoopInv nodes.length T nodes (List.range nodes.length) where
  nodup := List.nodup_range
  mem_lt := by simp
  size := by simp; omega
  large := Nat.le_refl _
  last := by omega
  internal := by omega
  sums := by omega
  total := hT
  queued := by omega
  parents := by intro j h h'; simp at h'; omega
  greedy := by omega

theorem priority_append {nodes ns : List Node} {i j : Nat} (hi : i < nodes.length) (hj : j < nodes.length) :
    PriorityBefore (nodes ++ ns) i j ↔ PriorityBefore nodes i j := by
  rw [PriorityBefore, weightAt_append hi, weightAt_append hj, PriorityBefore]

/-- One turn of the loop keeps the invariant (R114). -/
theorem loopInv_merge {L T : Nat} {nodes : List Node} {q : List Nat} {a b : Nat} (hT : T < 2 ^ 41)
    (hL : 2 * L ≤ 1024) (h : LoopInv L T nodes q) (ha : leastOf nodes q = some a)
    (hb : leastOf nodes (q.erase a) = some b) :
    LoopInv L T (nodes ++ [mergedNode nodes a b]) ((q.erase a).erase b ++ [nodes.length]) := by
  obtain ⟨haq, hamin⟩ := leastOf_spec ha
  obtain ⟨hbq', hbmin⟩ := leastOf_spec hb
  obtain ⟨hba, hbq⟩ := (h.nodup.mem_erase_iff).1 hbq'
  have hal := h.mem_lt a haq
  have hbl := h.mem_lt b hbq
  have hsize := h.size
  have hqlen : 2 ≤ q.length := by
    have h1 := List.length_erase_of_mem haq
    have h2 := List.length_pos_of_mem hbq'
    omega
  have hz : (mergedNode nodes a b).zero.toNat = a := by
    simp only [mergedNode, BitVec.toNat_ofNat]; omega
  have ho : (mergedNode nodes a b).one.toNat = b := by
    simp only [mergedNode, BitVec.toNat_ofNat]; omega
  have hmem : ∀ j, j ∈ (q.erase a).erase b ↔ j ≠ b ∧ j ≠ a ∧ j ∈ q := fun j => by
    rw [(h.nodup.erase a).mem_erase_iff, h.nodup.mem_erase_iff]
  have hw := sum_erase (f := weightAt nodes) haq
  have hw' := sum_erase (f := weightAt nodes) hbq'
  have hsum : weightAt nodes a + weightAt nodes b ≤ T := by have := h.total; omega
  have hself := nodeAt_append_self nodes (mergedNode nodes a b)
  have hwself : weightAt (nodes ++ [mergedNode nodes a b]) nodes.length =
      weightAt nodes a + weightAt nodes b := by
    rw [weightAt, hself]
    simp only [mergedNode, BitVec.toNat_add]
    exact Nat.mod_eq_of_lt (Nat.lt_of_le_of_lt hsum hT)
  have hchild : ∀ j, IsChild (nodes ++ [mergedNode nodes a b]) j nodes.length ↔ j = a ∨ j = b := by
    intro j; rw [IsChild, hself, hz, ho]; constructor <;> rintro (h | h) <;> simp [h]
  have hlen : (nodes ++ [mergedNode nodes a b]).length = nodes.length + 1 := by simp
  have hcases : ∀ i, i < (nodes ++ [mergedNode nodes a b]).length → i < nodes.length ∨ i = nodes.length := by
    intro i hi; omega
  refine ⟨?_, ?_, ?_, ?_, ?_, ?_, ?_, ?_, ?_, ?_, ?_⟩
  · rw [List.nodup_append]
    refine ⟨(h.nodup.erase a).erase b, by simp, ?_⟩
    intro j hj k hk
    have := h.mem_lt j ((hmem j).1 hj).2.2
    simp at hk; omega
  · intro i hi
    rw [hlen]
    rcases List.mem_append.1 hi with hi | hi
    · have := h.mem_lt i ((hmem i).1 hi).2.2; omega
    · simp at hi; omega
  · have h1 := List.length_erase_of_mem haq
    have h2 := List.length_erase_of_mem hbq'
    simp only [List.length_append, List.length_cons, List.length_nil]; omega
  · have := h.large; omega
  · intro _; simp
  · intro i hi hi'
    rcases hcases i hi' with hi' | rfl
    · rw [nodeAt_append hi']; exact h.internal i hi hi'
    · rw [hself]
      exact ⟨rfl, by omega, by omega, fun heq => hba (by rw [← ho, ← heq, hz])⟩
  · intro i hi hi'
    rcases hcases i hi' with hi' | rfl
    · obtain ⟨-, h1, h2, -⟩ := h.internal i hi hi'
      rw [nodeAt_append hi', weightAt_append hi', weightAt_append (by omega), weightAt_append (by omega)]
      exact h.sums i hi hi'
    · rw [hself, hz, ho, hwself, weightAt_append hal, weightAt_append hbl]
  · have hmap : ((q.erase a).erase b).map (weightAt (nodes ++ [mergedNode nodes a b])) =
        ((q.erase a).erase b).map (weightAt nodes) :=
      List.map_congr_left fun j hj => weightAt_append (h.mem_lt j ((hmem j).1 hj).2.2)
    have := h.total
    rw [List.map_append, List.sum_append, hmap]
    simp only [List.map_cons, List.map_nil, List.sum_cons, List.sum_nil, hwself]
    omega
  · intro j hj i hi hi'
    rcases hcases i hi' with hi' | rfl
    · rw [isChild_append hi']
      rcases List.mem_append.1 hj with hj | hj
      · exact h.queued j ((hmem j).1 hj).2.2 i hi hi'
      · obtain ⟨-, h1, h2, -⟩ := h.internal i hi hi'
        simp at hj
        simp only [IsChild]; omega
    · rw [hchild]
      rcases List.mem_append.1 hj with hj | hj
      · have := (hmem j).1 hj; omega
      · simp at hj; omega
  · intro j hj hj'
    have hjn : j ≠ nodes.length := fun heq => hj' (by simp [heq])
    have hjl : j < nodes.length := by omega
    by_cases hjab : j = a ∨ j = b
    · refine ⟨nodes.length, ⟨h.large, by omega, (hchild j).2 hjab⟩, fun k hk hk' hc => ?_⟩
      rcases hcases k hk' with hk' | rfl
      · rw [isChild_append hk'] at hc
        refine absurd hc (h.queued j ?_ k hk hk')
        rcases hjab with rfl | rfl
        · exact haq
        · exact hbq
      · rfl
    · have hjq : j ∉ q := fun hq => hj' (List.mem_append_left _ ((hmem j).2 ⟨by omega, by omega, hq⟩))
      obtain ⟨i, ⟨hi, hi', hc⟩, huniq⟩ := h.parents j hjl hjq
      refine ⟨i, ⟨hi, by omega, (isChild_append hi').2 hc⟩, fun k hk hk' hc' => ?_⟩
      rcases hcases k hk' with hk' | rfl
      · exact huniq k hk hk' ((isChild_append hk').1 hc')
      · exact absurd ((hchild j).1 hc') hjab
  · intro i hi hi'
    rcases hcases i hi' with hi' | rfl
    · obtain ⟨-, h1, h2, -⟩ := h.internal i hi hi'
      obtain ⟨h3, h4, h5⟩ := h.greedy i hi hi'
      rw [nodeAt_append hi']
      refine ⟨(priority_append (by omega) (by omega)).2 h3, fun k hk hk' => ?_, fun j hj hja hjb hm => ?_⟩
      · rw [isChild_append (by omega), isChild_append (by omega)]; exact h4 k hk hk'
      · refine (priority_append (by omega) (by omega)).2 (h5 j hj hja hjb fun k hk hk' => ?_)
        have := hm k hk hk'
        rwa [isChild_append (by omega)] at this
    · rw [hself, hz, ho]
      refine ⟨(priority_append hal hbl).2 (hamin b hbq hba), fun k hk hk' => ?_, fun j hj hja hjb hm => ?_⟩
      · rw [isChild_append hk', isChild_append hk']
        exact ⟨h.queued a haq k hk hk', h.queued b hbq k hk hk'⟩
      · refine (priority_append hbl hj).2 (hbmin j ((h.nodup.mem_erase_iff).2 ⟨hja, ?_⟩) hjb)
        by_contra hjq
        obtain ⟨i, ⟨hi, hi', hc⟩, -⟩ := h.parents j hj hjq
        have := hm i hi hi'
        rw [isChild_append hi'] at this
        exact this hc

/-- The loop ends with one element in Q, having kept the invariant and the nodes it started with (R115). -/
theorem mergeLoop_spec {L T : Nat} (hT : T < 2 ^ 41) (hL : 2 * L ≤ 1024) (turns : Nat) {nodes : List Node}
    {q : List Nat} (h : LoopInv L T nodes q) (hq : q ≠ []) (hturns : q.length ≤ turns + 1) :
    ∃ nodes' r, mergeLoop turns nodes q = (nodes', [r]) ∧ LoopInv L T nodes' [r] ∧ nodes <+: nodes' := by
  induction turns generalizing nodes q with
  | zero =>
    match q, hq, hturns with
    | [r], _, _ => exact ⟨nodes, r, rfl, h, List.prefix_refl _⟩
    | _ :: _ :: _, _, h => simp at h
  | succ turns ih =>
    cases ha : leastOf nodes q with
    | none => exact absurd (leastOf_eq_none.1 ha) hq
    | some a =>
      have haq := (leastOf_spec ha).1
      cases hb : leastOf nodes (q.erase a) with
      | none =>
        have h1 := leastOf_eq_none.1 hb
        have h2 := List.length_erase_of_mem haq
        have h3 := List.length_pos_of_mem haq
        rw [h1, List.length_nil] at h2
        obtain ⟨r, rfl⟩ := List.length_eq_one_iff.1 (by omega : q.length = 1)
        exact ⟨nodes, r, by simp only [mergeLoop, ha, hb], h, List.prefix_refl _⟩
      | some b =>
        have hbq := (leastOf_spec hb).1
        have h2 := List.length_erase_of_mem haq
        have h3 := List.length_erase_of_mem hbq
        have h4 := List.length_pos_of_mem haq
        have h5 := List.length_pos_of_mem hbq
        obtain ⟨nodes', r, h6, h7, h8⟩ := ih (loopInv_merge hT hL h ha hb) (by simp)
          (by simp only [List.length_append, List.length_cons, List.length_nil]; omega)
        exact ⟨nodes', r, by simp only [mergeLoop, ha, hb]; exact h6, h7, (List.prefix_append _ _).trans h8⟩

end Sys2Proof.Machine
end

