-- ==== Sys2Proof/Laws/Memory.lean ====
section
/-! SUPPORT. The laws of the entry-addressed memories FT and CT (spec/20_memory.md rules R50, R52, R53):
read after write, and the canonical form that every write keeps. -/

set_option Elab.async false

namespace Sys2Proof.Machine.Memory

variable {α : Type} {m : List (Nat × α)} {i j : Nat} {v w : α} {slots : Nat}

@[simp] theorem read_nil : Memory.read ([] : List (Nat × α)) i = none := rfl

@[simp] theorem read_cons : Memory.read ((j, v) :: m) i = if i = j then some v else Memory.read m i := rfl

@[simp] theorem read_write_same (m : List (Nat × α)) (i : Nat) (v : α) :
    Memory.read (Memory.write m i v) i = some v := by
  induction m with
  | nil => simp [Memory.write]
  | cons e m ih =>
    obtain ⟨j, w⟩ := e
    simp only [Memory.write]
    split
    · simp
    · split <;> simp_all

theorem read_write_other (m : List (Nat × α)) (v : α) (h : j ≠ i) :
    Memory.read (Memory.write m i v) j = Memory.read m j := by
  induction m with
  | nil => simp [Memory.write, h]
  | cons e m ih =>
    obtain ⟨k, w⟩ := e
    simp only [Memory.write]
    split
    · simp [h]
    · split
      · subst k; simp [h]
      · simp [ih]

theorem read_write (m : List (Nat × α)) (v : α) :
    Memory.read (Memory.write m i v) j = if j = i then some v else Memory.read m j := by
  split
  · subst j; simp
  · exact read_write_other m v ‹_›

theorem mem_of_read (h : Memory.read m i = some v) : (i, v) ∈ m := by
  induction m with
  | nil => simp at h
  | cons e m ih =>
    obtain ⟨j, w⟩ := e
    rw [read_cons] at h
    split at h
    · simp_all
    · exact List.mem_cons_of_mem _ (ih h)

theorem read_isSome : (Memory.read m i).isSome ↔ i ∈ m.map Prod.fst := by
  induction m with
  | nil => simp
  | cons e m ih =>
    obtain ⟨j, w⟩ := e
    rw [read_cons]
    split
    · simp_all
    · rw [ih]; simp_all

theorem read_eq_none : Memory.read m i = none ↔ i ∉ m.map Prod.fst := by
  rw [← read_isSome]; cases Memory.read m i <;> simp

theorem wf_nil : Memory.wf slots ([] : List (Nat × α)) := ⟨by simp, by simp⟩

theorem wf_cons :
    Memory.wf slots ((i, v) :: m) ↔ (∀ e ∈ m, i < e.1) ∧ i < slots ∧ Memory.wf slots m := by
  simp only [Memory.wf, List.map_cons, List.pairwise_cons, List.mem_map, List.mem_cons]
  constructor
  · rintro ⟨⟨h1, h2⟩, h3⟩
    exact ⟨fun e he => h1 _ ⟨e, he, rfl⟩, h3 _ (.inl rfl), h2, fun e he => h3 e (.inr he)⟩
  · rintro ⟨h1, h2, h3, h4⟩
    refine ⟨⟨?_, h3⟩, ?_⟩
    · rintro _ ⟨e, he, rfl⟩; exact h1 e he
    · rintro e (rfl | he)
      · exact h2
      · exact h4 e he

theorem read_of_mem (h : Memory.wf slots m) (hm : (i, v) ∈ m) : Memory.read m i = some v := by
  induction m with
  | nil => simp at hm
  | cons e m ih =>
    obtain ⟨j, w⟩ := e
    obtain ⟨hlt, -, hwf⟩ := wf_cons.1 h
    rw [read_cons]
    rcases List.mem_cons.1 hm with heq | hm
    · simp_all
    · have := hlt _ hm
      rw [if_neg (by simp at this; omega)]
      exact ih hwf hm

theorem mem_write_fst {e : Nat × α} (h : e ∈ Memory.write m i v) : e = (i, v) ∨ e ∈ m := by
  induction m with
  | nil => simpa [Memory.write] using h
  | cons d m ih =>
    obtain ⟨k, w⟩ := d
    simp only [Memory.write] at h
    split at h
    · simpa using h
    · split at h
      · rcases List.mem_cons.1 h with h | h
        · exact .inl h
        · exact .inr (List.mem_cons_of_mem _ h)
      · rcases List.mem_cons.1 h with h | h
        · exact .inr (by simp [h])
        · exact (ih h).imp_right (List.mem_cons_of_mem _)

/-- Every write in range keeps the canonical form. -/
theorem wf_write (h : Memory.wf slots m) (hi : i < slots) : Memory.wf slots (Memory.write m i v) := by
  induction m with
  | nil => exact ⟨by simp [Memory.write], by simpa [Memory.write] using hi⟩
  | cons e m ih =>
    obtain ⟨j, w⟩ := e
    obtain ⟨hlt, hj, hwf⟩ := wf_cons.1 h
    simp only [Memory.write]
    split
    · refine wf_cons.2 ⟨?_, hi, h⟩
      intro e he
      rcases List.mem_cons.1 he with rfl | he
      · assumption
      · exact Nat.lt_trans ‹_› (hlt e he)
    · split
      · subst j; exact wf_cons.2 ⟨hlt, hi, hwf⟩
      · refine wf_cons.2 ⟨?_, hj, ih hwf⟩
        intro e he
        rcases mem_write_fst he with rfl | he
        · simp; omega
        · exact hlt e he

/-- A write at an index with no entry adds one entry. -/
theorem length_write_of_none (h : Memory.read m i = none) : (Memory.write m i v).length = m.length + 1 := by
  induction m with
  | nil => rfl
  | cons e m ih =>
    obtain ⟨j, w⟩ := e
    rw [read_cons] at h
    split at h
    · simp at h
    · simp only [Memory.write]
      split
      · simp
      · simp [ih h]

/-- A write at an index with an entry replaces it: the indexes stay as they are. -/
theorem fst_write_of_some (hwf : Memory.wf slots m) (h : (Memory.read m i).isSome) :
    (Memory.write m i v).map Prod.fst = m.map Prod.fst := by
  induction m with
  | nil => simp at h
  | cons e m ih =>
    obtain ⟨j, w⟩ := e
    obtain ⟨hlt, -, hwf⟩ := wf_cons.1 hwf
    rw [read_cons] at h
    simp only [Memory.write]
    split at h
    · subst j; simp
    · have hm := read_isSome.1 h
      obtain ⟨e, he, rfl⟩ := List.mem_map.1 hm
      have := hlt e he
      rw [if_neg (by omega), if_neg ‹_›]
      simp [ih hwf h]

/-- A canonical memory has at most as many entries as slots. -/
theorem length_le (h : Memory.wf slots m) : m.length ≤ slots := by
  have hn : (m.map Prod.fst).Nodup := h.1.imp (fun h => Nat.ne_of_lt h)
  have hs : m.map Prod.fst ⊆ List.range slots := by
    intro i hi
    obtain ⟨e, he, rfl⟩ := List.mem_map.1 hi
    exact List.mem_range.2 (h.2 e he)
  simpa using (hn.subperm hs).length_le

/-- Two canonical memories that read alike are the same data. -/
theorem eq_of_read_eq {m' : List (Nat × α)} (h : Memory.wf slots m) (h' : Memory.wf slots m')
    (heq : ∀ i, Memory.read m i = Memory.read m' i) : m = m' := by
  induction m generalizing m' with
  | nil =>
    cases m' with
    | nil => rfl
    | cons e m' => obtain ⟨j, w⟩ := e; have := heq j; simp at this
  | cons e m ih =>
    obtain ⟨i, v⟩ := e
    cases m' with
    | nil => have := heq i; simp at this
    | cons e' m' =>
      obtain ⟨j, w⟩ := e'
      obtain ⟨hlt, hi, hm⟩ := wf_cons.1 h
      obtain ⟨hlt', hj, hm'⟩ := wf_cons.1 h'
      have hij : i = j := by
        have h1 : (j, w) ∈ (i, v) :: m := mem_of_read (by rw [heq j]; simp)
        have h2 : (i, v) ∈ (j, w) :: m' := mem_of_read (by rw [← heq i]; simp)
        rcases List.mem_cons.1 h1 with h1 | h1
        · simpa using (congrArg Prod.fst h1).symm
        · rcases List.mem_cons.1 h2 with h2 | h2
          · simpa using congrArg Prod.fst h2
          · have := hlt _ h1; have := hlt' _ h2; simp at *; omega
      subst j
      have hvw : v = w := by have := heq i; simpa using this
      subst w
      congr 1
      refine ih hm hm' fun k => ?_
      by_cases hk : k = i
      · subst k
        have h1 : Memory.read m i = none :=
          read_eq_none.2 fun hmem => by
            obtain ⟨e, he, hei⟩ := List.mem_map.1 hmem; have := hlt e he; omega
        have h2 : Memory.read m' i = none :=
          read_eq_none.2 fun hmem => by
            obtain ⟨e, he, hei⟩ := List.mem_map.1 hmem; have := hlt' e he; omega
        rw [h1, h2]
      · have := heq k; simpa [hk] using this

end Sys2Proof.Machine.Memory
end

