-- ==== Sys2Proof/Laws/Scan.lean ====
section
/-! SUPPORT. Scans of all the slots of FT (spec/41_tree_builder.md rule R111, spec/45_serializer.md rule
R166): over a memory in canonical form a scan in ascending order meets exactly its entries, in order. -/

set_option Elab.async false

namespace Sys2Proof.Machine

open Sys2Proof.Safety

namespace Memory

variable {α : Type}

theorem read_none_of_lt {m : List (Nat × α)} {i : Nat} (h : ∀ e ∈ m, i < e.1) : Memory.read m i = none :=
  read_eq_none.2 fun hm => by
    obtain ⟨e, he, rfl⟩ := List.mem_map.1 hm; exact Nat.lt_irrefl _ (h e he)

theorem scan_range' (n lo : Nat) {m : List (Nat × α)} (hm : (m.map Prod.fst).Pairwise (· < ·))
    (hlo : ∀ e ∈ m, lo ≤ e.1 ∧ e.1 < lo + n) :
    (List.range' lo n).filterMap (fun x => (Memory.read m x).map (Prod.mk x)) = m := by
  induction n generalizing lo m with
  | zero =>
    cases m with
    | nil => rfl
    | cons e m => have := hlo e (by simp); omega
  | succ n ih =>
    rw [List.range'_succ, List.filterMap_cons]
    cases m with
    | nil => simp
    | cons e m =>
      obtain ⟨i, v⟩ := e
      rw [List.map_cons, List.pairwise_cons] at hm
      have hlt : ∀ e ∈ m, i < e.1 := fun e he => hm.1 _ (List.mem_map_of_mem he)
      have hi := hlo (i, v) (by simp)
      rcases Nat.lt_or_ge lo i with h | h
      · rw [Memory.read_none_of_lt (by
          intro e he
          rcases List.mem_cons.1 he with rfl | he
          · exact h
          · exact Nat.lt_trans h (hlt e he))]
        refine ih (lo + 1) (by rw [List.map_cons, List.pairwise_cons]; exact hm) fun e he => ?_
        have := hlo e he
        rcases List.mem_cons.1 he with rfl | he
        · simp only at *; omega
        · have := hlt e he; omega
      · obtain rfl : i = lo := by simp only at hi; omega
        simp only [read_cons, if_true, Option.map_some]
        congr 1
        refine Eq.trans ?_ (ih (i + 1) hm.2 fun e he => by
          have := hlt e he; have := hlo e (List.mem_cons_of_mem _ he); omega)
        apply List.filterMap_congr
        intro x hx
        rw [List.mem_range'_1] at hx
        rw [if_neg (by omega)]

/-- A scan of every slot in ascending order meets exactly the entries of a canonical memory. -/
theorem scan_eq {slots : Nat} {m : List (Nat × α)} (h : Memory.wf slots m) :
    (List.range slots).filterMap (fun x => (Memory.read m x).map (Prod.mk x)) = m := by
  rw [List.range_eq_range']
  exact scan_range' slots 0 h.1 fun e he => ⟨Nat.zero_le _, by simpa using h.2 e he⟩

end Memory

/-- The leaves of a canonical table (R111). -/
theorem presentLeaves_eq {ft : List (Nat × Count)} (h : Memory.wf Config.nsym ft) :
    presentLeaves ft = ft.map fun e => leafOf e.1 e.2 := by
  conv => rhs; rw [← Memory.scan_eq h]
  rw [presentLeaves, List.map_filterMap]
  simp [Function.comp_def]

/-- The leaves of the arena of a canonical table (R111, R112). -/
theorem leavesOf_eq {ft : List (Nat × Count)} (h : Memory.wf Config.nsym ft) :
    leavesOf ft = expectedLeaves ft := by
  rw [leavesOf, presentLeaves_eq h]
  match ft with
  | [] => rfl
  | [e] => rfl
  | e :: e' :: ft => simp [expectedLeaves, leafOf]

theorem headerEntry_eq (x : Nat) (c : Count) : headerEntry x c = entryBytes x c := by
  simp only [headerEntry, bytesOf16, bytesOf32, entryBytes, List.cons_append, List.nil_append,
    List.cons.injEq, and_true]
  refine ⟨?_, ?_, ?_, ?_, ?_, ?_⟩ <;> apply BitVec.eq_of_toNat_eq <;>
    simp only [BitVec.extractLsb'_toNat, BitVec.toNat_ofNat, Nat.shiftRight_eq_div_pow] <;> omega

/-- The header of a canonical table (R166, R167). -/
theorem headerOf_eq {ftN : BitVec 9} {ft : List (Nat × Count)} (h : Memory.wf Config.nsym ft)
    (hn : ftN.toNat = ft.length) : headerOf ftN ft = headerBytes ft := by
  have hbody : ((List.range Config.nsym).flatMap fun x =>
      match Memory.read ft x with
      | some c => headerEntry x c
      | none => []) = ft.flatMap fun e => entryBytes e.1 e.2 := by
    conv => rhs; rw [← Memory.scan_eq h]
    generalize List.range Config.nsym = l
    induction l with
    | nil => rfl
    | cons x l ih =>
      rw [List.flatMap_cons, ih, List.filterMap_cons]
      cases Memory.read ft x <;> simp [headerEntry_eq]
  rw [headerOf]
  refine (congrArg (bytesOf16 (ftN.setWidth 16) ++ ·) hbody).trans ?_
  rw [headerBytes, bytesOf16, ← hn]
  have := ftN.isLt
  simp only [List.cons_append, List.nil_append, List.cons.injEq, and_true]
  constructor <;> apply BitVec.eq_of_toNat_eq <;>
    simp only [BitVec.extractLsb'_toNat, BitVec.toNat_ofNat, Nat.shiftRight_eq_div_pow,
      BitVec.toNat_setWidth] <;> omega

theorem length_flatMap_entryBytes (ft : List (Nat × Count)) :
    (ft.flatMap fun e => entryBytes e.1 e.2).length = 6 * ft.length := by
  induction ft with
  | nil => rfl
  | cons e ft ih => rw [List.flatMap_cons, List.length_append, ih]; simp [entryBytes]; omega

theorem length_headerBytes (ft : List (Nat × Count)) : (headerBytes ft).length = 2 + 6 * ft.length := by
  rw [headerBytes, List.length_cons, List.length_cons, length_flatMap_entryBytes]; omega

end Sys2Proof.Machine
end

