-- ==== Sys2Proof/Laws/Tree.lean ====
section
/-! SUPPORT. The tree BUILD_TREE builds from a table in canonical form (spec/41_tree_builder.md rules R110 to
R117), said once: it is an arena of 2L - 1 nodes, merged in the order of R113, its root the last node. -/

set_option Elab.async false

namespace Sys2Proof.Machine

open Sys2Proof.Safety

theorem length_expectedLeaves {ft : List (Nat × Count)} (h : ft ≠ []) :
    (expectedLeaves ft).length = leafCount ft := by
  have := List.length_pos_iff.2 h
  simp only [expectedLeaves, leafCount]
  split <;> simp <;> omega

theorem map_weightAt_range (nodes : List Node) :
    (List.range nodes.length).map (weightAt nodes) = nodes.map fun n => n.weight.toNat := by
  apply List.ext_getElem (by simp)
  intro i h h'
  simp only [List.length_map, List.length_range] at h h'
  simp [weightAt, nodeAt_getElem h]

/-- The sum of all table counts, twice the count of a single entry (R116). -/
def totalWeight (ft : List (Nat × Count)) : Nat :=
  (if ft.length = 1 then 2 else 1) * (ft.map fun e => e.2.toNat).sum

theorem sum_expectedLeaves (ft : List (Nat × Count)) :
    ((expectedLeaves ft).map fun n => n.weight.toNat).sum = totalWeight ft := by
  have hw : ∀ c : Count, (c.setWidth 41).toNat = c.toNat := fun c => by
    rw [BitVec.toNat_setWidth]; have := c.isLt; omega
  simp only [expectedLeaves, totalWeight]
  split <;> (simp [Function.comp_def, hw, -BitVec.toNat_setWidth]; try omega)

theorem sum_counts_le (ft : List (Nat × Count)) :
    (ft.map fun e => e.2.toNat).sum ≤ ft.length * (2 ^ 32 - 1) := by
  induction ft with
  | nil => simp
  | cons e ft ih =>
    have := e.2.isLt
    simp only [List.map_cons, List.sum_cons, List.length_cons, Nat.add_mul]
    omega

/-- The root's weight fits in 41 bits (R117). -/
theorem totalWeight_lt {ft : List (Nat × Count)} (h : ft.length ≤ Config.nsym) : totalWeight ft < 2 ^ 41 := by
  have h1 := sum_counts_le ft
  have h2 : ft.length ≤ 257 := h
  rw [totalWeight]
  split <;> omega

/-- Everything BUILD_TREE leaves in NODE and ROOT (R110 to R117). -/
theorem builtTree_spec {ft : List (Nat × Count)} (hwf : Memory.wf Config.nsym ft) (hne : ft ≠ []) :
    ∃ nodes, builtTree ft = (nodes, [2 * leafCount ft - 2]) ∧ Arena ft nodes ∧ GreedyMerges ft nodes ∧
      weightAt nodes (2 * leafCount ft - 2) = totalWeight ft := by
  have hlen := length_expectedLeaves hne
  have hft : ft.length ≤ 257 := Memory.length_le hwf
  have hL : leafCount ft ≤ 257 := by rw [leafCount]; omega
  have hL2 : 2 ≤ leafCount ft := by rw [leafCount]; omega
  have hinv := loopInv_leaves (nodes := expectedLeaves ft) (T := totalWeight ft)
    (by rw [map_weightAt_range, sum_expectedLeaves])
  rw [hlen] at hinv
  obtain ⟨nodes, r, hloop, h, hpre⟩ := mergeLoop_spec (totalWeight_lt hft) (by omega) (leafCount ft) hinv
    (by intro hq; have := congrArg List.length hq; simp at this; omega) (by simp)
  have hsize : nodes.length + 1 = 2 * leafCount ft := by simpa using h.size
  have hr : nodes.length - 1 = r := by simpa using h.last (by omega)
  obtain rfl : 2 * leafCount ft - 2 = r := by omega
  refine ⟨nodes, ?_, ⟨by omega, ?_, h.internal, h.sums, fun j hj => ?_⟩, fun i hi hi' => ?_, ?_⟩
  · simp only [builtTree, leavesOf_eq hwf, hlen, hloop]
  · rw [← hlen]; exact (List.prefix_iff_eq_take.1 hpre).symm
  · exact h.parents j (by omega) (by simp; omega)
  · obtain ⟨h1, h2, h3⟩ := h.greedy i hi hi'
    refine ⟨?_, ?_, h1, fun j hj hja hjb hm => h3 j hj hja hjb fun k hk hk' hc => hm ⟨k, hk, hk', hc⟩⟩
    · rintro ⟨k, hk, hk', hc⟩; exact (h2 k hk hk').1 hc
    · rintro ⟨k, hk, hk', hc⟩; exact (h2 k hk hk').2 hc
  · simpa using h.total

end Sys2Proof.Machine
end

