-- ==== Sys2Proof/Laws/Paths.lean ====
section
/-! SUPPORT. Paths in a built tree (spec/41_tree_builder.md rules R116, R117, spec/42_code_table.md rule R128):
its nodes are leaves or internal by index, every node is reached from the root, no path is longer than the
number of internal nodes, and codes read along paths decode to their symbols. -/

set_option Elab.async false

namespace Sys2Proof.Machine

open Sys2Proof.Safety

variable {ft : List (Nat × Count)} {nodes : List Node}

/-! ## Leaves and internal nodes by index -/

theorem leafOf_sym {x : Nat} {c : Count} (h : x < Config.nsym) : (leafOf x c).sym.toNat = x := by
  simp only [leafOf, BitVec.toNat_ofNat]
  exact Nat.mod_eq_of_lt (Nat.lt_trans h (by decide))

theorem leafOf_sym_ne {x : Nat} {c : Count} (h : x < Config.nsym) : (leafOf x c).sym ≠ Config.nas := by
  intro he
  have h1 := leafOf_sym (c := c) h
  rw [he] at h1
  have h2 : Config.nas.toNat = 257 := by decide
  have h3 : Config.nsym = 257 := rfl
  omega

theorem mem_expectedLeaves {n : Node} : n ∈ expectedLeaves ft ↔ ∃ e ∈ ft, n = leafOf e.1 e.2 := by
  simp only [expectedLeaves, leafOf]
  split <;> simp [eq_comm]

/-- Every node below L is the leaf of an entry of the table (R111). -/
theorem arena_leaf (hne : ft ≠ []) (A : Arena ft nodes) {i : Nat} (h : i < leafCount ft) :
    ∃ e ∈ ft, nodeAt nodes i = leafOf e.1 e.2 := by
  rw [← mem_expectedLeaves, ← A.leaves]
  have hl := congrArg List.length A.leaves
  rw [length_expectedLeaves hne, List.length_take] at hl
  have hi : i < (nodes.take (leafCount ft)).length := by rw [List.length_take]; omega
  have := List.getElem_mem hi
  rwa [List.getElem_take, ← nodeAt_getElem (by omega)] at this

/-- Every entry of the table has a leaf (R111). -/
theorem arena_leaf_of_entry (A : Arena ft nodes) {e : Nat × Count} (h : e ∈ ft) :
    ∃ i, i < leafCount ft ∧ nodeAt nodes i = leafOf e.1 e.2 := by
  have hm : leafOf e.1 e.2 ∈ nodes.take (leafCount ft) := by
    rw [A.leaves]; exact mem_expectedLeaves.2 ⟨e, h, rfl⟩
  obtain ⟨i, hi, heq⟩ := List.mem_iff_getElem.1 hm
  rw [List.length_take] at hi
  rw [List.getElem_take, ← nodeAt_getElem (by omega)] at heq
  exact ⟨i, by omega, heq⟩

theorem leafCount_bounds (hwf : Memory.wf Config.nsym ft) : 2 ≤ leafCount ft ∧ leafCount ft ≤ 257 := by
  have : ft.length ≤ 257 := Memory.length_le hwf
  rw [leafCount]; omega

/-- A node is a leaf exactly when its index is below L (R116). -/
theorem arena_leaf_iff (hwf : Memory.wf Config.nsym ft) (hne : ft ≠ []) (A : Arena ft nodes) {i : Nat}
    (h : i < nodes.length) : (nodeAt nodes i).sym ≠ Config.nas ↔ i < leafCount ft := by
  constructor
  · intro hs
    by_contra hi
    exact hs (A.internal i (by omega) h).1
  · intro hi
    obtain ⟨e, he, heq⟩ := arena_leaf hne A hi
    rw [heq]; exact leafOf_sym_ne (hwf.2 e he)

/-- A leaf's symbol is present in the table. -/
theorem arena_leaf_sym (hwf : Memory.wf Config.nsym ft) (hne : ft ≠ []) (A : Arena ft nodes) {i : Nat}
    (h : i < leafCount ft) :
    (nodeAt nodes i).sym.toNat < Config.nsym ∧ (Memory.read ft (nodeAt nodes i).sym.toNat).isSome := by
  obtain ⟨e, he, heq⟩ := arena_leaf hne A h
  rw [heq, leafOf_sym (hwf.2 e he)]
  exact ⟨hwf.2 e he, Memory.read_isSome.2 (List.mem_map_of_mem he)⟩

/-! ## Paths -/

/-- `c` leads from node i to a leaf, through internal nodes only. -/
def LeafBelow (nodes : List Node) (i : NodeIdx) (c : Code) : Prop :=
  symAt nodes (descend nodes i c) ≠ Config.nas ∧
    ∀ k, k < c.length → symAt nodes (descend nodes i (c.take k)) = Config.nas

/-- The child a bit leads to (R8). -/
theorem descend_cons (i : NodeIdx) (t : Bool) (c : Code) :
    descend nodes i (t :: c) = descend nodes (childOf (nodeAt nodes i.toNat) t) c := rfl

theorem descend_append (i : NodeIdx) (c d : Code) :
    descend nodes i (c ++ d) = descend nodes (descend nodes i c) d := by
  induction c generalizing i with
  | nil => rfl
  | cons t c ih => rw [List.cons_append, descend_cons, descend_cons, ih]

theorem leafBelow_nil {i : NodeIdx} : LeafBelow nodes i [] ↔ symAt nodes i ≠ Config.nas := by
  simp [LeafBelow, descend]

theorem leafBelow_cons {i : NodeIdx} {t : Bool} {c : Code} :
    LeafBelow nodes i (t :: c) ↔
      symAt nodes i = Config.nas ∧ LeafBelow nodes (childOf (nodeAt nodes i.toNat) t) c := by
  simp only [LeafBelow, descend_cons, List.length_cons]
  constructor
  · rintro ⟨h1, h2⟩
    exact ⟨by simpa [descend] using h2 0 (by omega), h1, fun k hk => by
      simpa [descend_cons] using h2 (k + 1) (by omega)⟩
  · rintro ⟨h1, h2, h3⟩
    refine ⟨h2, fun k hk => ?_⟩
    cases k with
    | zero => simpa [descend] using h1
    | succ k => simpa [descend_cons] using h3 k (by omega)

/-- A leaf path is a path to a leaf, with the symbol there. -/
theorem leafPath_iff {root : NodeIdx} {x : Nat} {c : Code} :
    LeafPath nodes root x c ↔ LeafBelow nodes root c ∧ (symAt nodes (descend nodes root c)).toNat = x := by
  simp only [LeafPath, LeafBelow]
  constructor
  · rintro ⟨rfl, h2, h3⟩
    exact ⟨⟨fun h => h2 (by rw [h]), h3⟩, rfl⟩
  · rintro ⟨⟨h1, h3⟩, rfl⟩
    exact ⟨rfl, fun h => h1 (BitVec.eq_of_toNat_eq h), h3⟩

/-- No leaf path is a prefix of another (R128). -/
theorem leafBelow_prefix {i : NodeIdx} {c d : Code} (hc : LeafBelow nodes i c) (hd : LeafBelow nodes i d)
    (h : c <+: d) : c = d := by
  obtain ⟨e, rfl⟩ := h
  cases e with
  | nil => simp
  | cons t e =>
    have := hd.2 c.length (by simp)
    rw [List.take_left] at this
    exact absurd this hc.1

/-- In a built tree a path is no longer than the number of internal nodes (R117). -/
theorem leafBelow_length (hwf : Memory.wf Config.nsym ft) (hne : ft ≠ []) (A : Arena ft nodes)
    {i : NodeIdx} {c : Code} (hi : i.toNat < nodes.length) (h : LeafBelow nodes i c) :
    c.length ≤ i.toNat + 1 - leafCount ft ∧ descend nodes i c ≠ Config.nil ∧
      (descend nodes i c).toNat < leafCount ft := by
  have hsz := A.size
  have hL := leafCount_bounds hwf
  induction c generalizing i with
  | nil =>
    rw [leafBelow_nil] at h
    have := (arena_leaf_iff hwf hne A hi).1 h
    refine ⟨by simp, fun he => ?_, this⟩
    rw [descend] at he
    rw [he] at this
    have : Config.nil.toNat = 1023 := by decide
    omega
  | cons t c ih =>
    rw [leafBelow_cons] at h
    have hge : ¬ i.toNat < leafCount ft := fun hlt => (arena_leaf_iff hwf hne A hi).2 hlt h.1
    obtain ⟨-, hz, ho, -⟩ := A.internal i.toNat (by omega) hi
    have hchild : (childOf (nodeAt nodes i.toNat) t).toNat < i.toNat := by
      rw [childOf]; split <;> assumption
    obtain ⟨h1, h2, h3⟩ := ih (by omega) h.2
    rw [descend_cons]
    exact ⟨by rw [List.length_cons]; omega, h2, h3⟩

/-- Every leaf of a built tree is reached from the root (R116). -/
theorem leaf_reached (hwf : Memory.wf Config.nsym ft) (hne : ft ≠ []) (A : Arena ft nodes)
    {root : NodeIdx} (hroot : root.toNat + 1 = nodes.length) {j : Nat} (hj : j < leafCount ft) :
    ∃ c, LeafBelow nodes root c ∧ (descend nodes root c).toNat = j := by
  have hsz := A.size
  have hL := leafCount_bounds hwf
  have key : ∀ d j, j + d + 1 = nodes.length → ∀ c, LeafBelow nodes (BitVec.ofNat 10 j) c →
      ∃ c', LeafBelow nodes root c' ∧ descend nodes root c' = descend nodes (BitVec.ofNat 10 j) c := by
    intro d
    induction d using Nat.strongRecOn with
    | ind d ih =>
      intro j hj c hc
      by_cases hd : d = 0
      · have : BitVec.ofNat 10 j = root := by
          apply BitVec.eq_of_toNat_eq; rw [BitVec.toNat_ofNat]; omega
        exact ⟨c, by rwa [← this], by rw [this]⟩
      · obtain ⟨i, ⟨hi, hi', hch⟩, -⟩ := A.parents j (by omega)
        obtain ⟨hn, hz, ho, -⟩ := A.internal i hi hi'
        have hi10 : (BitVec.ofNat 10 i).toNat = i := by rw [BitVec.toNat_ofNat]; omega
        obtain ⟨t, ht⟩ : ∃ t, childOf (nodeAt nodes i) t = BitVec.ofNat 10 j := by
          rcases hch with hch | hch
          · exact ⟨false, by rw [childOf, ← hch]; simp⟩
          · exact ⟨true, by rw [childOf, ← hch]; simp⟩
        have hlt : j < i := by rcases hch with rfl | rfl <;> assumption
        obtain ⟨c', h1, h2⟩ := ih (nodes.length - 1 - i) (by omega) i (by omega) (t :: c)
          (leafBelow_cons.2 ⟨by rw [symAt, hi10]; exact hn, by rw [hi10, ht]; exact hc⟩)
        exact ⟨c', h1, by rw [h2, descend_cons, hi10, ht]⟩
  have hj10 : (BitVec.ofNat 10 j).toNat = j := by rw [BitVec.toNat_ofNat]; omega
  obtain ⟨c, h1, h2⟩ := key (nodes.length - 1 - j) j (by omega) []
    (leafBelow_nil.2 (by rw [symAt, hj10]; exact (arena_leaf_iff hwf hne A (by omega)).2 hj))
  exact ⟨c, h1, by rw [h2, descend, hj10]⟩

/-! ## Decoding along paths -/

/-- Bits along a path to a leaf decode to the leaf's symbol: a literal's byte, and decoding goes on from the
root; or nothing for the sentinel, and decoding ends (R150). -/
theorem decodeBits_leafBelow {i root : NodeIdx} {c : Code} (h : LeafBelow nodes i c) (hc : c ≠ [])
    (rest : Code) :
    decodeBits nodes root i (c ++ rest) =
      if symAt nodes (descend nodes i c) = Config.eofSym then ([], none)
      else (BitVec.ofNat 8 (symAt nodes (descend nodes i c)).toNat :: (decodeBits nodes root root rest).1,
        (decodeBits nodes root root rest).2) := by
  induction c generalizing i with
  | nil => exact absurd rfl hc
  | cons t c ih =>
    have h' := (leafBelow_cons.1 h).2
    rw [List.cons_append, descend_cons]
    change (if symAt nodes (childOf (nodeAt nodes i.toNat) t) = Config.nas then _ else _) = _
    by_cases hc' : c = []
    · subst c
      rw [leafBelow_nil] at h'
      rw [if_neg h']; rfl
    · have : symAt nodes (childOf (nodeAt nodes i.toNat) t) = Config.nas := by
        simpa [descend] using h'.2 0 (List.length_pos_iff.2 hc')
      rw [if_pos this]
      exact ih h' hc'

/-- The codes of a message, then the sentinel's, decode to the message, whatever bits follow (R150, R158). -/
theorem decodeBits_message {root : NodeIdx} {codeAt : Byte → Code} {eofCode : Code} (S : List Byte)
    (hroot : symAt nodes root = Config.nas)
    (hS : ∀ b ∈ S, LeafPath nodes root b.toNat (codeAt b))
    (he : LeafPath nodes root Config.eof eofCode) (rest : Code) :
    decodeBits nodes root root (S.flatMap codeAt ++ eofCode ++ rest) = (S, none) := by
  have hnil : ∀ {c}, LeafBelow nodes root c → c ≠ [] := by
    rintro c h rfl; exact (leafBelow_nil.1 h) hroot
  have heof : ∀ x : Symbol, x = Config.eofSym ↔ x.toNat = 256 := by decide
  induction S with
  | nil =>
    obtain ⟨h1, h2⟩ := leafPath_iff.1 he
    rw [List.flatMap_nil, List.nil_append, decodeBits_leafBelow h1 (hnil h1), if_pos ((heof _).2 h2)]
  | cons b S ih =>
    obtain ⟨h1, h2⟩ := leafPath_iff.1 (hS b (by simp))
    rw [List.flatMap_cons, List.append_assoc, List.append_assoc, decodeBits_leafBelow h1 (hnil h1),
      if_neg (by rw [heof, h2]; have := b.isLt; omega), h2, ← List.append_assoc,
      ih (fun b hb => hS b (List.mem_cons_of_mem _ hb))]
    simp

end Sys2Proof.Machine
end

