-- ==== Sys2Proof/Laws/CodeTable.lean ====
section
/-! SUPPORT. The code table (spec/20_memory.md rule R52, spec/42_code_table.md rules R125 to R128): an entry
gives back the code it was made from, and what Visit records below a node, said once. -/

set_option Elab.async false

namespace Sys2Proof.Machine

open Sys2Proof.Safety

/-! ## Entries -/

theorem top_bit : ∀ k : Fin 256, (1#256 <<< 255).getMsbD k.val = decide (k.val = 0) := by decide +kernel

theorem leftAlign_getMsbD (c : Code) (k : Nat) (hk : k < 256) : (leftAlign c).getMsbD k = c.getD k false := by
  induction c generalizing k with
  | nil => simp [leftAlign]
  | cons t c ih =>
    have h1 : ((if t then 1#256 <<< 255 else 0#256) : BitVec 256).getMsbD k = (t && decide (k = 0)) := by
      cases t with
      | false => simp
      | true => simpa using top_bit ⟨k, hk⟩
    rw [leftAlign, BitVec.getMsbD_or, h1, BitVec.getMsbD_ushiftRight]
    cases k with
    | zero => simp
    | succ k => simp [ih k (by omega), hk]

/-- The code an entry holds is the one it was made from (R52, R125). -/
theorem code_codeEntryOf {c : Code} (h : c.length ≤ 256) : (codeEntryOf c).code = c := by
  have hlen : (BitVec.ofNat 9 c.length).toNat = c.length := by rw [BitVec.toNat_ofNat]; omega
  apply List.ext_getElem
  · simp [CodeEntry.code, codeEntryOf, hlen, -BitVec.toNat_ofNat]
  · intro i h1 h2
    simp only [CodeEntry.code, codeEntryOf, List.getElem_map, List.getElem_range]
    rw [leftAlign_getMsbD c i (by omega)]
    simp [h2]

theorem codeEntryOf_ok {c : Code} (h0 : c ≠ []) (h : c.length ≤ 256) : EntryOk (codeEntryOf c) := by
  have hlen : (BitVec.ofNat 9 c.length).toNat = c.length := by rw [BitVec.toNat_ofNat]; omega
  have := List.length_pos_iff.2 h0
  refine ⟨?_, ?_, fun k hk => ?_⟩ <;> simp only [codeEntryOf, hlen] at *
  · exact this
  · exact h
  · by_cases hk' : k < 256
    · rw [leftAlign_getMsbD c k hk']; simp [hk]
    · exact BitVec.getMsbD_of_ge _ _ (by omega)

/-! ## Visit -/

variable {ft : List (Nat × Count)} {nodes : List Node}

/-- What Visit does below node i of a built tree: it keeps every entry there is, and adds, for the symbols
without one, the path of a leaf below i; every leaf below i has an entry then. -/
structure Visited (nodes : List Node) (i : NodeIdx) (path : Code) (ct ct' : List (Nat × CodeEntry)) :
    Prop where
  form : Memory.wf Config.nsym ct'
  kept : ∀ x e, Memory.read ct x = some e → Memory.read ct' x = some e
  added : ∀ x e, Memory.read ct x = none → Memory.read ct' x = some e →
    ∃ c, e = codeEntryOf (path ++ c) ∧ LeafBelow nodes i c ∧ (symAt nodes (descend nodes i c)).toNat = x
  all : ∀ c, LeafBelow nodes i c →
    (Memory.read ct' (symAt nodes (descend nodes i c)).toNat).isSome

theorem recordCode_spec {i : NodeIdx} {path : Code} {ct : List (Nat × CodeEntry)}
    (hct : Memory.wf Config.nsym ct) (hi : symAt nodes i ≠ Config.nas)
    (hx : (symAt nodes i).toNat < Config.nsym) :
    ∃ ct', recordCode (symAt nodes i).toNat path ct = .ok ct' ∧ Visited nodes i path ct ct' := by
  have hall : ∀ c, LeafBelow nodes i c → c = [] := fun c hc => by
    cases c with
    | nil => rfl
    | cons t c => exact absurd (leafBelow_cons.1 hc).1 hi
  cases hr : Memory.read ct (symAt nodes i).toNat with
  | some e =>
    refine ⟨ct, by simp only [recordCode, hr], hct, fun _ _ h => h, fun x e h h' => ?_, fun c hc => ?_⟩
    · rw [h] at h'; cases h'
    · rw [hall c hc, descend, hr]; rfl
  | none =>
    refine ⟨Memory.write ct _ (codeEntryOf path), by simp only [recordCode, hr, if_pos hx], Memory.wf_write hct hx, fun x e h => ?_,
      fun x e h h' => ?_, fun c hc => ?_⟩
    · rw [Memory.read_write, if_neg (by rintro rfl; rw [hr] at h; cases h)]; exact h
    · rw [Memory.read_write] at h'
      split at h'
      · subst x
        exact ⟨[], by simpa using h'.symm, leafBelow_nil.2 hi, rfl⟩
      · rw [h] at h'; cases h'
    · rw [hall c hc, descend, Memory.read_write_same]; rfl

/-- Visit below a node of a built tree, with enough depth (R117, R125). -/
theorem visit_spec (hwf : Memory.wf Config.nsym ft) (hne : ft ≠ []) (A : Arena ft nodes) (depth : Nat)
    {i : NodeIdx} {path : Code} {ct : List (Nat × CodeEntry)} (hct : Memory.wf Config.nsym ct)
    (hi : i.toNat < nodes.length) (hd : i.toNat + 1 - leafCount ft < depth) :
    ∃ ct', visit nodes depth i path ct = .ok ct' ∧ Visited nodes i path ct ct' := by
  induction depth generalizing i path ct with
  | zero => omega
  | succ depth ih =>
    by_cases hleaf : i.toNat < leafCount ft
    · have hs := (arena_leaf_iff hwf hne A hi).2 hleaf
      obtain ⟨ct', h1, h2⟩ := recordCode_spec (path := path) hct hs (arena_leaf_sym hwf hne A hleaf).1
      exact ⟨ct', by rw [visit, if_pos (by simpa [Node.isLeaf] using hs)]; exact h1, h2⟩
    · obtain ⟨hn, hz, ho, -⟩ := A.internal i.toNat (by omega) hi
      have hL := leafCount_bounds hwf
      obtain ⟨c1, hv1, V1⟩ := ih (i := (nodeAt nodes i.toNat).zero) (path := path ++ [false]) hct
        (by omega) (by omega)
      obtain ⟨c2, hv2, V2⟩ := ih (i := (nodeAt nodes i.toNat).one) (path := path ++ [true]) V1.form
        (by omega) (by omega)
      refine ⟨c2, ?_, V2.form, fun x e h => V2.kept x e (V1.kept x e h), fun x e h h' => ?_, fun c hc => ?_⟩
      · rw [visit, if_neg (by simp [Node.isLeaf, hn])]
        simp only [hv1, hv2]
      · cases h1 : Memory.read c1 x with
        | some e1 =>
          obtain rfl : e1 = e := by have := V2.kept x e1 h1; rw [h'] at this; simpa using this.symm
          obtain ⟨c, rfl, hb, hx⟩ := V1.added x e1 h h1
          exact ⟨false :: c, by simp, leafBelow_cons.2 ⟨hn, by simpa [childOf] using hb⟩, by
            simpa [descend_cons, childOf] using hx⟩
        | none =>
          obtain ⟨c, rfl, hb, hx⟩ := V2.added x e h1 h'
          exact ⟨true :: c, by simp, leafBelow_cons.2 ⟨hn, by simpa [childOf] using hb⟩, by
            simpa [descend_cons, childOf] using hx⟩
      · cases c with
        | nil => exact absurd hn (leafBelow_nil.1 hc)
        | cons t c =>
          have hb := (leafBelow_cons.1 hc).2
          rw [descend_cons]
          cases t with
          | false =>
            have h3 := V1.all c hb
            obtain ⟨e, he⟩ := Option.isSome_iff_exists.1 h3
            exact Option.isSome_iff_exists.2 ⟨e, V2.kept _ e he⟩
          | true => exact V2.all c hb

/-- Everything BUILD_CODES records on a built tree (R125, R127, R128). -/
theorem visit_root_spec (hwf : Memory.wf Config.nsym ft) (hne : ft ≠ []) (A : Arena ft nodes)
    {root : NodeIdx} (hroot : root.toNat + 1 = nodes.length) :
    ∃ ct, visit nodes (Config.maxLen + 1) root [] [] = .ok ct ∧ Memory.wf Config.nsym ct ∧
      (∀ x, (Memory.read ct x).isSome = (Memory.read ft x).isSome) ∧
      ∀ x e, Memory.read ct x = some e → EntryOk e ∧ LeafPath nodes root x e.code := by
  have hsz := A.size
  have hL := leafCount_bounds hwf
  have hdepth : root.toNat + 1 - leafCount ft < Config.maxLen + 1 := by
    have : Config.maxLen = 256 := rfl
    omega
  obtain ⟨ct, hv, V⟩ := visit_spec hwf hne A (Config.maxLen + 1) (path := []) Memory.wf_nil
    (by omega : root.toNat < nodes.length) hdepth
  have hnas : symAt nodes root = Config.nas := (A.internal root.toNat (by omega) (by omega)).1
  refine ⟨ct, hv, V.form, fun x => ?_, fun x e h => ?_⟩
  · rw [Bool.eq_iff_iff]
    constructor
    · intro h
      obtain ⟨e, he⟩ := Option.isSome_iff_exists.1 h
      obtain ⟨c, -, hb, rfl⟩ := V.added x e (by simp) he
      exact (arena_leaf_sym hwf hne A (leafBelow_length hwf hne A (by omega) hb).2.2).2
    · intro h
      obtain ⟨e, he, rfl⟩ := List.mem_map.1 (Memory.read_isSome.1 h)
      obtain ⟨j, hj, hn⟩ := arena_leaf_of_entry A he
      obtain ⟨c, hb, hc⟩ := leaf_reached hwf hne A hroot hj
      have := V.all c hb
      rwa [symAt, hc, hn, leafOf_sym (hwf.2 e he)] at this
  · obtain ⟨c, rfl, hb, hx⟩ := V.added x e (by simp) h
    have hc : c ≠ [] := by rintro rfl; exact (leafBelow_nil.1 hb) hnas
    have hlen : c.length ≤ 256 := by
      have := (leafBelow_length hwf hne A (by omega) hb).1
      omega
    rw [List.nil_append]
    exact ⟨codeEntryOf_ok hc hlen, by rw [code_codeEntryOf hlen]; exact leafPath_iff.2 ⟨hb, hx⟩⟩

end Sys2Proof.Machine
end

