-- ==== Sys2Proof/Laws/Decode.lean ====
section
/-! SUPPORT. The small lemmas of the decoder and the encoder (spec/30_encoding.md rules R80 to R87): a word is
its two fields, and each format takes its operand apart and puts it together again. -/

set_option Elab.async false

namespace Sys2Proof

/-- A word is op followed by arg (R80). -/
theorem word_of_fields (w : CmdWord) : w.extractLsb' 10 6 ++ w.extractLsb' 0 10 = w := by
  ext i hi
  simp only [BitVec.getElem_append, BitVec.getElem_extractLsb']
  split
  · rw [← BitVec.getLsbD_eq_getElem]; simp
  · rw [← BitVec.getLsbD_eq_getElem]; congr 1; omega

theorem op_of_fields (op : BitVec 6) (arg : BitVec 10) : (op ++ arg : CmdWord).extractLsb' 10 6 = op := by
  ext i hi
  rw [BitVec.getElem_extractLsb', BitVec.getLsbD_append]
  simp [BitVec.getLsbD_eq_getElem hi]

theorem arg_of_fields (op : BitVec 6) (arg : BitVec 10) : (op ++ arg : CmdWord).extractLsb' 0 10 = arg := by
  ext i hi
  rw [BitVec.getElem_extractLsb', BitVec.getLsbD_append]
  simp [hi]

/-- The decoder reads the two fields it was put together from. -/
theorem decode_of_fields (op : BitVec 6) (arg : BitVec 10) : decode (op ++ arg) = decodeFields op arg := by
  rw [decode, op_of_fields, arg_of_fields]

/-- Format B: arg is two zeros and the byte exactly when arg[9:8] is 0 (R82). -/
theorem argB_of_zero : ∀ arg : BitVec 10, arg.extractLsb' 8 2 = 0#2 → 0#2 ++ arg.extractLsb' 0 8 = arg := by
  decide +kernel

/-- Format T (R83). -/
theorem argT_of_zero : ∀ arg : BitVec 10, arg.extractLsb' 1 9 = 0#9 → 0#9 ++ arg.extractLsb' 0 1 = arg := by
  decide +kernel

/-- Format R (R85). -/
theorem argR_of_zero : ∀ arg : BitVec 10, arg.extractLsb' 3 7 = 0#7 → 0#7 ++ arg.extractLsb' 0 3 = arg := by
  decide +kernel

theorem decodeB_of_byte (b : Byte) (c : Byte → Instr) : decodeB (0#2 ++ b) c = .ok (c b) := by
  have h : ∀ b : Byte, (0#2 ++ b).extractLsb' 8 2 = 0#2 ∧ (0#2 ++ b).extractLsb' 0 8 = b := by decide +kernel
  simp only [decodeB, (h b).1, (h b).2, if_true]

theorem decodeT_of_bit (t : BitVec 1) (c : BitVec 1 → Instr) : decodeT (0#9 ++ t) c = .ok (c t) := by
  have h : ∀ t : BitVec 1, (0#9 ++ t).extractLsb' 1 9 = 0#9 ∧ (0#9 ++ t).extractLsb' 0 1 = t := by
    decide +kernel
  simp only [decodeT, (h t).1, (h t).2, if_true]

theorem decodeR_of_number (r : BitVec 3) (c : BitVec 3 → Instr) : decodeR (0#7 ++ r) c = .ok (c r) := by
  have h : ∀ r : BitVec 3, (0#7 ++ r).extractLsb' 3 7 = 0#7 ∧ (0#7 ++ r).extractLsb' 0 3 = r := by
    decide +kernel
  simp only [decodeR, (h r).1, (h r).2, if_true]

end Sys2Proof
end

