-- ==== Sys2Proof/Laws/State.lean ====
section
/-! SUPPORT. One lemma per field per named update of State, true by rfl, so that no proof unfolds a record
update; and the two cases of `raise` (spec/60_exceptions.md rule R201). -/

set_option Elab.async false

namespace Sys2Proof.Machine

variable (s : State)

@[simp] theorem State.respond_phase (d : RData) : (s.respond d).phase = s.phase := rfl
@[simp] theorem State.respond_err (d : RData) : (s.respond d).err = s.err := rfl
@[simp] theorem State.respond_ftN (d : RData) : (s.respond d).ftN = s.ftN := rfl
@[simp] theorem State.respond_treeValid (d : RData) : (s.respond d).treeValid = s.treeValid := rfl
@[simp] theorem State.respond_nodeCnt (d : RData) : (s.respond d).nodeCnt = s.nodeCnt := rfl
@[simp] theorem State.respond_root (d : RData) : (s.respond d).root = s.root := rfl
@[simp] theorem State.respond_cur (d : RData) : (s.respond d).cur = s.cur := rfl
@[simp] theorem State.respond_acc (d : RData) : (s.respond d).acc = s.acc := rfl
@[simp] theorem State.respond_nb (d : RData) : (s.respond d).nb = s.nb := rfl
@[simp] theorem State.respond_bitcnt (d : RData) : (s.respond d).bitcnt = s.bitcnt := rfl
@[simp] theorem State.respond_hpos (d : RData) : (s.respond d).hpos = s.hpos := rfl
@[simp] theorem State.respond_hn (d : RData) : (s.respond d).hn = s.hn := rfl
@[simp] theorem State.respond_hsym (d : RData) : (s.respond d).hsym = s.hsym := rfl
@[simp] theorem State.respond_hcnt (d : RData) : (s.respond d).hcnt = s.hcnt := rfl
@[simp] theorem State.respond_hprev (d : RData) : (s.respond d).hprev = s.hprev := rfl
@[simp] theorem State.respond_ft (d : RData) : (s.respond d).ft = s.ft := rfl
@[simp] theorem State.respond_node (d : RData) : (s.respond d).node = s.node := rfl
@[simp] theorem State.respond_ct (d : RData) : (s.respond d).ct = s.ct := rfl
@[simp] theorem State.respond_out (d : RData) : (s.respond d).out = s.out := rfl
@[simp] theorem State.respond_resp (d : RData) : (s.respond d).resp = some ⟨s.status, d⟩ := rfl
@[simp] theorem State.respond_host (d : RData) : (s.respond d).host = s.host := rfl

@[simp] theorem State.emit_phase (b : Byte) : (s.emit b).phase = s.phase := rfl
@[simp] theorem State.emit_err (b : Byte) : (s.emit b).err = s.err := rfl
@[simp] theorem State.emit_ftN (b : Byte) : (s.emit b).ftN = s.ftN := rfl
@[simp] theorem State.emit_treeValid (b : Byte) : (s.emit b).treeValid = s.treeValid := rfl
@[simp] theorem State.emit_nodeCnt (b : Byte) : (s.emit b).nodeCnt = s.nodeCnt := rfl
@[simp] theorem State.emit_root (b : Byte) : (s.emit b).root = s.root := rfl
@[simp] theorem State.emit_cur (b : Byte) : (s.emit b).cur = s.cur := rfl
@[simp] theorem State.emit_acc (b : Byte) : (s.emit b).acc = s.acc := rfl
@[simp] theorem State.emit_nb (b : Byte) : (s.emit b).nb = s.nb := rfl
@[simp] theorem State.emit_bitcnt (b : Byte) : (s.emit b).bitcnt = s.bitcnt := rfl
@[simp] theorem State.emit_hpos (b : Byte) : (s.emit b).hpos = s.hpos := rfl
@[simp] theorem State.emit_hn (b : Byte) : (s.emit b).hn = s.hn := rfl
@[simp] theorem State.emit_hsym (b : Byte) : (s.emit b).hsym = s.hsym := rfl
@[simp] theorem State.emit_hcnt (b : Byte) : (s.emit b).hcnt = s.hcnt := rfl
@[simp] theorem State.emit_hprev (b : Byte) : (s.emit b).hprev = s.hprev := rfl
@[simp] theorem State.emit_ft (b : Byte) : (s.emit b).ft = s.ft := rfl
@[simp] theorem State.emit_node (b : Byte) : (s.emit b).node = s.node := rfl
@[simp] theorem State.emit_ct (b : Byte) : (s.emit b).ct = s.ct := rfl
@[simp] theorem State.emit_out (b : Byte) : (s.emit b).out = s.out ++ [b] := rfl
@[simp] theorem State.emit_resp (b : Byte) : (s.emit b).resp = s.resp := rfl
@[simp] theorem State.emit_host (b : Byte) : (s.emit b).host = s.host := rfl

@[simp] theorem State.emitAll_phase (bs : List Byte) : (s.emitAll bs).phase = s.phase := rfl
@[simp] theorem State.emitAll_err (bs : List Byte) : (s.emitAll bs).err = s.err := rfl
@[simp] theorem State.emitAll_ftN (bs : List Byte) : (s.emitAll bs).ftN = s.ftN := rfl
@[simp] theorem State.emitAll_treeValid (bs : List Byte) : (s.emitAll bs).treeValid = s.treeValid := rfl
@[simp] theorem State.emitAll_nodeCnt (bs : List Byte) : (s.emitAll bs).nodeCnt = s.nodeCnt := rfl
@[simp] theorem State.emitAll_root (bs : List Byte) : (s.emitAll bs).root = s.root := rfl
@[simp] theorem State.emitAll_cur (bs : List Byte) : (s.emitAll bs).cur = s.cur := rfl
@[simp] theorem State.emitAll_acc (bs : List Byte) : (s.emitAll bs).acc = s.acc := rfl
@[simp] theorem State.emitAll_nb (bs : List Byte) : (s.emitAll bs).nb = s.nb := rfl
@[simp] theorem State.emitAll_bitcnt (bs : List Byte) : (s.emitAll bs).bitcnt = s.bitcnt := rfl
@[simp] theorem State.emitAll_hpos (bs : List Byte) : (s.emitAll bs).hpos = s.hpos := rfl
@[simp] theorem State.emitAll_hn (bs : List Byte) : (s.emitAll bs).hn = s.hn := rfl
@[simp] theorem State.emitAll_hsym (bs : List Byte) : (s.emitAll bs).hsym = s.hsym := rfl
@[simp] theorem State.emitAll_hcnt (bs : List Byte) : (s.emitAll bs).hcnt = s.hcnt := rfl
@[simp] theorem State.emitAll_hprev (bs : List Byte) : (s.emitAll bs).hprev = s.hprev := rfl
@[simp] theorem State.emitAll_ft (bs : List Byte) : (s.emitAll bs).ft = s.ft := rfl
@[simp] theorem State.emitAll_node (bs : List Byte) : (s.emitAll bs).node = s.node := rfl
@[simp] theorem State.emitAll_ct (bs : List Byte) : (s.emitAll bs).ct = s.ct := rfl
@[simp] theorem State.emitAll_out (bs : List Byte) : (s.emitAll bs).out = s.out ++ bs := rfl
@[simp] theorem State.emitAll_resp (bs : List Byte) : (s.emitAll bs).resp = s.resp := rfl
@[simp] theorem State.emitAll_host (bs : List Byte) : (s.emitAll bs).host = s.host := rfl

@[simp] theorem State.releaseTree_phase : (s.releaseTree).phase = s.phase := rfl
@[simp] theorem State.releaseTree_err : (s.releaseTree).err = s.err := rfl
@[simp] theorem State.releaseTree_ftN : (s.releaseTree).ftN = s.ftN := rfl
@[simp] theorem State.releaseTree_treeValid : (s.releaseTree).treeValid = false := rfl
@[simp] theorem State.releaseTree_nodeCnt : (s.releaseTree).nodeCnt = 0 := rfl
@[simp] theorem State.releaseTree_root : (s.releaseTree).root = Config.nil := rfl
@[simp] theorem State.releaseTree_cur : (s.releaseTree).cur = Config.nil := rfl
@[simp] theorem State.releaseTree_acc : (s.releaseTree).acc = s.acc := rfl
@[simp] theorem State.releaseTree_nb : (s.releaseTree).nb = s.nb := rfl
@[simp] theorem State.releaseTree_bitcnt : (s.releaseTree).bitcnt = s.bitcnt := rfl
@[simp] theorem State.releaseTree_hpos : (s.releaseTree).hpos = s.hpos := rfl
@[simp] theorem State.releaseTree_hn : (s.releaseTree).hn = s.hn := rfl
@[simp] theorem State.releaseTree_hsym : (s.releaseTree).hsym = s.hsym := rfl
@[simp] theorem State.releaseTree_hcnt : (s.releaseTree).hcnt = s.hcnt := rfl
@[simp] theorem State.releaseTree_hprev : (s.releaseTree).hprev = s.hprev := rfl
@[simp] theorem State.releaseTree_ft : (s.releaseTree).ft = s.ft := rfl
@[simp] theorem State.releaseTree_node : (s.releaseTree).node = [] := rfl
@[simp] theorem State.releaseTree_ct : (s.releaseTree).ct = s.ct := rfl
@[simp] theorem State.releaseTree_out : (s.releaseTree).out = s.out := rfl
@[simp] theorem State.releaseTree_resp : (s.releaseTree).resp = s.resp := rfl
@[simp] theorem State.releaseTree_host : (s.releaseTree).host = s.host := rfl

@[simp] theorem State.cleared_host : s.cleared.host = s.host := rfl
@[simp] theorem State.cleared_phase : s.cleared.phase = .idle := rfl
@[simp] theorem State.resetInput_host : s.resetInput.host = s.host := rfl

/-- `raise` from a phase other than FAULT. -/
theorem State.raise_of_not_fault {s : State} (e : Err) (h : s.phase ≠ .fault) :
    s.raise e = { s.releaseTree with err := e, phase := .fault } := if_neg h

/-- `raise` in FAULT keeps the first error. -/
theorem State.raise_of_fault {s : State} (e : Err) (h : s.phase = .fault) : s.raise e = s := if_pos h

@[simp] theorem State.raise_phase (e : Err) : (s.raise e).phase = .fault := by
  unfold State.raise; split <;> simp_all

@[simp] theorem State.raise_host (e : Err) : (s.raise e).host = s.host := by
  unfold State.raise; split <;> simp

@[simp] theorem State.raise_ft (e : Err) : (s.raise e).ft = s.ft := by
  unfold State.raise; split <;> simp

@[simp] theorem State.raise_ct (e : Err) : (s.raise e).ct = s.ct := by
  unfold State.raise; split <;> simp

@[simp] theorem State.raise_out (e : Err) : (s.raise e).out = s.out := by
  unfold State.raise; split <;> simp

end Sys2Proof.Machine
end

