-- ==== Sys2Proof/Laws/Packer.lean ====
section
/-! SUPPORT. The bit_packer (spec/43_encoder_packer.md rules R135, R136): what PackBit, a whole code and
PackFlush do to the bits of the payload, said once. -/

set_option Elab.async false

namespace Sys2Proof.Machine

open Sys2Proof.Safety

/-- The bit placed by the shift of R135. -/
theorem placed_bit : ∀ (t : Bool) (n : BitVec 3) (k : Fin 8),
    ((if t then 1#8 else 0#8) <<< (7 - n.toNat)).getMsbD k.val = (t && k.val == n.toNat) := by
  decide +kernel

theorem accWith_getMsbD (t : Bool) (s : State) (h : PackerClean s.nb s.acc) (k : Nat) :
    (accWith t s).getMsbD k = if k = s.nb.toNat then t else s.acc.getMsbD k := by
  have := s.nb.isLt
  rw [accWith, BitVec.getMsbD_or]
  by_cases hk : k < 8
  · rw [placed_bit t s.nb ⟨k, hk⟩]
    split
    · subst k; simp [h _ (Nat.le_refl _)]
    · rename_i hne; simp [hne]
  · rw [if_neg (by omega : ¬ k = s.nb.toNat), BitVec.getMsbD_of_ge _ _ (by omega),
      BitVec.getMsbD_of_ge _ _ (by omega)]
    rfl

theorem nb_succ {n : BitVec 3} (h : n ≠ 7) : (n + 1).toNat = n.toNat + 1 := by
  have : n.toNat ≠ 7 := fun h' => h (BitVec.eq_of_toNat_eq h')
  have := n.isLt
  rw [BitVec.toNat_add]; simp; omega

/-- PackBit: the new bit follows the placed ones, the eighth bit emits the byte (R135). -/
theorem packBit_spec (s : State) (t : Bool) :
    ∃ bs acc nb, packBit s t =
        { s with out := s.out ++ bs, acc := acc, nb := nb, bitcnt := s.bitcnt + 1 } ∧
      (PackerClean s.nb s.acc → PackerClean nb acc ∧
        placedBits s.nb s.acc ++ [t] = bytesBits bs ++ placedBits nb acc) := by
  by_cases h7 : s.nb = 7
  · refine ⟨[accWith t s], 0, 0, by simp [packBit, h7, State.emit], fun hc => ⟨?_, ?_⟩⟩
    · intro k _; simp
    · have hb : byteBits (accWith t s) = placedBits s.nb s.acc ++ [t] := by
        have h7' : s.nb.toNat = 7 := by simp [h7]
        simp only [byteBits, placedBits, h7', List.range_succ, List.range_zero, List.map_append,
          List.map_cons, List.map_nil, List.nil_append, accWith_getMsbD t s hc]
        simp
      simp only [bytesBits, List.flatMap_cons, List.flatMap_nil, List.append_nil, hb]
      simp [placedBits]
  · refine ⟨[], accWith t s, s.nb + 1, by rw [packBit, if_neg h7]; simp, fun hc => ⟨?_, ?_⟩⟩
    · intro k hk
      rw [nb_succ h7] at hk
      rw [accWith_getMsbD t s hc, if_neg (by omega)]
      exact hc k (by omega)
    · simp only [bytesBits, placedBits, nb_succ h7, List.range_succ, List.map_append, List.map_cons,
        List.map_nil, List.flatMap_nil, List.nil_append, accWith_getMsbD t s hc, if_true]
      congr 1
      refine List.map_congr_left fun k hk => ?_
      have := List.mem_range.1 hk
      rw [accWith_getMsbD t s hc, if_neg (by omega)]

/-- A whole code: its bits follow the placed ones, BITCNT counts them, nothing else changes (R137). -/
theorem packBits_spec (c : Code) (s : State) :
    ∃ bs acc nb, packBits s c =
        { s with
          out := s.out ++ bs, acc := acc, nb := nb, bitcnt := s.bitcnt + BitVec.ofNat 64 c.length } ∧
      (PackerClean s.nb s.acc → PackerClean nb acc ∧
        placedBits s.nb s.acc ++ c = bytesBits bs ++ placedBits nb acc) := by
  induction c generalizing s with
  | nil => exact ⟨[], s.acc, s.nb, by simp [packBits], fun hc => ⟨hc, by simp [bytesBits]⟩⟩
  | cons t c ih =>
    obtain ⟨bs, acc, nb, h1, h2⟩ := packBit_spec s t
    obtain ⟨bs', acc', nb', h3, h4⟩ := ih (packBit s t)
    have hcnt : s.bitcnt + 1 + BitVec.ofNat 64 c.length = s.bitcnt + BitVec.ofNat 64 (t :: c).length := by
      rw [List.length_cons, Nat.add_comm c.length, BitVec.ofNat_add, BitVec.add_assoc]
      rfl
    refine ⟨bs ++ bs', acc', nb', ?_, fun hc => ?_⟩
    · show packBits (packBit s t) c = _
      rw [h3, h1, ← hcnt, List.append_assoc]
    · obtain ⟨h5, h6⟩ := h2 hc
      simp only [h1] at h4
      obtain ⟨h7, h8⟩ := h4 h5
      refine ⟨h7, ?_⟩
      rw [List.append_cons, h6, List.append_assoc, h8]
      simp [bytesBits]

/-- PackFlush: the placed bits, if any, are emitted with 0 bits after them (R136). -/
theorem packFlush_spec (s : State) :
    ∃ bs, packFlush s = { s with out := s.out ++ bs, acc := if s.nb = 0 then s.acc else 0, nb := 0 } ∧
      (PackerClean s.nb s.acc →
        ∃ n, n < 8 ∧ bytesBits bs = placedBits s.nb s.acc ++ List.replicate n false) := by
  by_cases h0 : s.nb = 0
  · have : packFlush s = s := by simp [packFlush, h0]
    refine ⟨[], ?_, fun _ => ⟨0, by omega, by simp [bytesBits, placedBits, h0]⟩⟩
    rw [this]; cases s; simp_all
  · refine ⟨[s.acc], by rw [packFlush, if_neg h0, if_neg h0]; rfl, fun hc => ⟨8 - s.nb.toNat, ?_, ?_⟩⟩
    · have : s.nb.toNat ≠ 0 := fun h => h0 (BitVec.eq_of_toNat_eq h)
      omega
    · have hn := s.nb.isLt
      refine List.ext_getElem (by simp [bytesBits, byteBits, placedBits]; omega) fun k h1 h2 => ?_
      simp only [bytesBits, List.flatMap_cons, List.flatMap_nil, List.append_nil, byteBits,
        List.getElem_map, List.getElem_range, List.getElem_append, placedBits, List.length_map,
        List.length_range, List.getElem_replicate]
      split
      · rfl
      · exact hc k (by omega)

/-- In a clean packer with no bit placed, ACC is 0. -/
theorem acc_eq_zero_of_clean {nb : BitVec 3} {acc : BitVec 8} (h : PackerClean nb acc) (h0 : nb = 0) :
    acc = 0 := by
  apply BitVec.eq_of_getMsbD_eq
  intro k _
  rw [h k (by simp [h0])]; simp

end Sys2Proof.Machine
end

