-- ==== Sys2Proof/Laws/Sequencer.lean ====
section
/-! SUPPORT. Every command is the checks of spec/30_encoding.md rule R89 before the command's own rule: what
each gate answers, said once, so that no proof unfolds `exec`. -/

set_option Elab.async false

namespace Sys2Proof.Machine

/-- The rule each command runs when its gate lets it. -/
def ruleOf : Instr → State → Result
  | .nop => done
  | .clear => fun s => done s.cleared
  | .freqByte b => countSymbol (symbolOfByte b) .count
  | .freqEnd => countSymbol Config.eof .table
  | .buildTree => buildTreeRule
  | .buildCodes => buildCodesRule
  | .hdrEmit => fun s => done (s.emitAll (headerOf s.ftN s.ft))
  | .encByte b => encByteRule b
  | .encEnd => encEndRule
  | .hdrByte b => fun s => hdrByteAt b s.hpos.toNat { s with phase := .hdr, hpos := s.hpos + 1 }
  | .decBit t => fun s => done (walkBits [bitOperand t] { s with phase := .dec })
  | .decByte b => fun s => done (walkBits (bitsOfByte b) { s with phase := .dec })
  | .decEnd => fail .truncatedPayload
  | .rdReg r => fun s => answer (registerData r s) s
  | .rdFreq x => fun s => answer (freqData x s) s
  | .rdNode x => fun s => answer (nodeData x s) s
  | .rdCode x => fun s => answer (codeData x s) s

/-- Every arm of `exec` is its gate and then its rule. -/
theorem exec_eq_command (i : Instr) (s : State) : exec i s = command i (ruleOf i) s := by
  cases i <;> rfl

theorem command_of_run {i : Instr} {rule : State → Result} {s : State} (h : gateOf i s.phase = .run) :
    command i rule s = rule s := by simp [command, h]

theorem command_of_noEffect {i : Instr} {rule : State → Result} {s : State}
    (h : gateOf i s.phase = .noEffect) : command i rule s = done s := by simp [command, h]

theorem command_of_raises {i : Instr} {rule : State → Result} {s : State} {e : Err}
    (h : gateOf i s.phase = .raises e) : command i rule s = fail e s := by simp [command, h]

/-- What a command can do: its rule runs, it has no effect, or it raises before its rule. -/
theorem exec_cases (i : Instr) (s : State) :
    (gateOf i s.phase = .run ∧ exec i s = ruleOf i s) ∨
    (gateOf i s.phase = .noEffect ∧ exec i s = done s) ∨
    ∃ e, gateOf i s.phase = .raises e ∧ exec i s = fail e s := by
  rw [exec_eq_command]
  cases h : gateOf i s.phase with
  | run => exact .inl ⟨rfl, command_of_run h⟩
  | noEffect => exact .inr (.inl ⟨rfl, command_of_noEffect h⟩)
  | raises e => exact .inr (.inr ⟨e, rfl, command_of_raises h⟩)

theorem Phase.legalIn_eq_run {p : Phase} {l : List Phase} (h : p ∈ l) (hf : p ≠ .fault) :
    p.legalIn l = .run := by simp [Phase.legalIn, h, hf]

theorem Phase.legalIn_fault (l : List Phase) : Phase.fault.legalIn l = .noEffect := rfl

theorem Phase.legalIn_eq_raises {p : Phase} {l : List Phase} (h : p ∉ l) (hf : p ≠ .fault) :
    p.legalIn l = .raises .illegalCommand := by simp [Phase.legalIn, h, hf]

/-- A gate raises outside FAULT only. -/
theorem gateOf_raises_not_fault {i : Instr} {p : Phase} {e : Err} (h : gateOf i p = .raises e) :
    p ≠ .fault := by
  rintro rfl; cases i <;> simp [gateOf, Phase.legalIn] at h

/-- A gate raises one of three errors. -/
theorem gateOf_raises_err {i : Instr} {p : Phase} {e : Err} (h : gateOf i p = .raises e) :
    e = .illegalCommand ∨ e = .emptyFrequencyTable ∨ e = .corruptHeader := by
  cases i <;> cases p <;> simp [gateOf, Phase.legalIn] at h <;> simp [← h]

theorem done_eq (s : State) : done s = .next (s.respond 0) := rfl

theorem answer_eq (d : RData) (s : State) : answer d s = .next (s.respond d) := rfl

/-- A command that fails from a phase other than FAULT. -/
theorem fail_of_not_fault {s : State} (e : Err) (h : s.phase ≠ .fault) :
    fail e s = .next (State.respond 0 { s.releaseTree with err := e, phase := .fault }) := by
  rw [fail, done_eq, State.raise_of_not_fault e h]

end Sys2Proof.Machine
end

