-- ==== Sys2Proof/Laws/Walker.lean ====
section
/-! SUPPORT. The walker (spec/44_decoder_unpacker.md rules R150 to R152): what a sequence of bits does, said
once, in terms of the tree alone. -/

set_option Elab.async false

namespace Sys2Proof.Machine

open Sys2Proof.Safety

theorem isLeaf_iff (n : Node) : n.isLeaf = true ↔ n.sym ≠ Config.nas := by
  simp [Node.isLeaf]

/-- The unpacker's order is the order of `byteBits` (R151). -/
theorem bitsOfByte_eq (b : Byte) : bitsOfByte b = byteBits b := by
  have : ∀ b : Byte, bitsOfByte b = byteBits b := by decide +kernel
  exact this b

/-- The byte of a literal leaf (R150). -/
theorem setWidth_eq_ofNat (x : Symbol) : x.setWidth 8 = BitVec.ofNat 8 x.toNat := by
  apply BitVec.eq_of_toNat_eq; simp

/-- A sequence of bits, walked until the sentinel (R150, R152, R155). -/
theorem walkBits_spec (bits : Code) (s : State) :
    (∀ c, (decodeBits s.node s.root s.cur bits).2 = some c →
      walkBits bits s = { s with out := s.out ++ (decodeBits s.node s.root s.cur bits).1, cur := c }) ∧
    ((decodeBits s.node s.root s.cur bits).2 = none →
      walkBits bits s = { s.releaseTree with
        out := s.out ++ (decodeBits s.node s.root s.cur bits).1, phase := .decDone }) := by
  induction bits generalizing s with
  | nil =>
    refine ⟨fun c h => ?_, fun h => ?_⟩
    · simp only [decodeBits, Option.some.injEq] at h
      subst h; simp [walkBits, decodeBits]
    · simp [decodeBits] at h
  | cons t ts ih =>
    obtain ⟨c, hd, hw⟩ : ∃ c,
        decodeBits s.node s.root s.cur (t :: ts) =
          (if symAt s.node c = Config.nas then decodeBits s.node s.root c ts
          else if symAt s.node c = Config.eofSym then ([], none)
          else (BitVec.ofNat 8 (symAt s.node c).toNat :: (decodeBits s.node s.root s.root ts).1,
            (decodeBits s.node s.root s.root ts).2)) ∧
        walk t s =
          (if symAt s.node c = Config.nas then ({ s with cur := c }, false)
          else if symAt s.node c = Config.eofSym then ({ s.releaseTree with phase := .decDone }, true)
          else ({ s.emit ((symAt s.node c).setWidth 8) with cur := s.root }, false)) := by
      refine ⟨childOf (nodeAt s.node s.cur.toNat) t, rfl, ?_⟩
      simp only [walk, symAt]
      generalize childOf (nodeAt s.node s.cur.toNat) t = c
      by_cases hn : (nodeAt s.node c.toNat).sym = Config.nas
      · simp [Node.isLeaf, hn]
      · by_cases he : (nodeAt s.node c.toNat).sym = Config.eofSym <;> simp [Node.isLeaf, hn, he]
    rw [walkBits, hd, hw]
    by_cases hn : symAt s.node c = Config.nas
    · simp only [if_pos hn]
      exact ih { s with cur := c }
    · by_cases he : symAt s.node c = Config.eofSym
      · simp only [if_neg hn, if_pos he, List.append_nil]
        exact ⟨fun _ h => absurd h (by simp), fun _ => rfl⟩
      · simp only [if_neg hn, if_neg he, ← setWidth_eq_ofNat]
        have := ih { s.emit ((symAt s.node c).setWidth 8) with cur := s.root }
        simpa only [State.emit, State.releaseTree, List.append_assoc, List.singleton_append,
          Bool.false_eq_true, if_false] using this

end Sys2Proof.Machine
end

