-- ==== Sys2Proof/Laws/Effect.lean ====
section
/-! SUPPORT. What a command can do, said once (spec/46_control.md rule R185, spec/60_exceptions.md rule R201):
if `exec` answers a next state, that state is one of the forms of `Effect`, guards included. Statements about
every command go by cases on it and never unfold `exec`. -/

set_option Elab.async false

namespace Sys2Proof.Machine

open Sys2Proof.Safety

/-- FREQ_BYTE and FREQ_END with the symbol they count and the phase they move to (R100, R101). -/
def Counts (i : Instr) (x : Nat) (p : Phase) : Prop :=
  (∃ b : Byte, i = .freqByte b ∧ x = b.toNat ∧ p = .count) ∨ (i = .freqEnd ∧ x = Config.eof ∧ p = .table)

/-- The forms of the state a command leaves. -/
inductive Effect (i : Instr) (s t : State) : Prop
  /-- No state changes: NOP, a read, or a command with no effect in its phase (R154, R186, R187, R53). -/
  | same (data : RData) (h : t = s.respond data) (hd : ¬ IsRead i → data = 0)
  /-- CLEAR (R188). -/
  | clear (hi : i = .clear) (h : t = s.cleared.respond 0)
  /-- An error raised before anything was written (R201). -/
  | raise (e : Err) (hf : s.phase ≠ .fault) (he : e ≠ .none) (h : t = (s.raise e).respond 0)
  /-- A symbol counted for the first time (R100, R101). -/
  | insert (x : Nat) (p : Phase) (hi : Counts i x p) (hs : s.phase = .idle ∨ s.phase = .count)
    (hr : Memory.read s.ft x = none)
    (h : t = State.respond 0 { s with ft := Memory.write s.ft x 1, ftN := s.ftN + 1, phase := p })
  /-- A symbol counted again (R100, R101). -/
  | add (x : Nat) (p : Phase) (c : Count) (hi : Counts i x p) (hs : s.phase = .idle ∨ s.phase = .count)
    (hr : Memory.read s.ft x = some c) (hc : c ≠ Config.countMax)
    (h : t = State.respond 0 { s with ft := Memory.write s.ft x (c + 1), phase := p })
  /-- BUILD_TREE (R110). -/
  | tree (r : Nat) (hi : i = .buildTree) (hs : s.phase = .table) (hr : (builtTree s.ft).2 = [r])
    (h : t = State.respond 0 { s with
      node := (builtTree s.ft).1, root := BitVec.ofNat 10 r, cur := BitVec.ofNat 10 r,
      nodeCnt := BitVec.ofNat 10 (builtTree s.ft).1.length, treeValid := true, phase := .tree })
  /-- BUILD_CODES (R125). -/
  | codes (ct : List (Nat × CodeEntry)) (hi : i = .buildCodes) (hs : s.phase = .tree)
    (hv : visit s.node (Config.maxLen + 1) s.root [] s.ct = .ok ct)
    (h : t = State.respond 0 { s with ct := ct, phase := .codes })
  /-- HDR_EMIT (R167). -/
  | emit (hi : i = .hdrEmit) (hs : s.phase ∈ [.table, .tree, .codes])
    (h : t = State.respond 0 { s with out := s.out ++ headerOf s.ftN s.ft })
  /-- ENC_BYTE of a byte with a code (R137). -/
  | encode (b : Byte) (e : CodeEntry) (hi : i = .encByte b) (hs : s.phase = .codes ∨ s.phase = .enc)
    (hr : Memory.read s.ct (symbolOfByte b) = some e)
    (h : t = State.respond 0 { packBits s e.code with phase := .enc })
  /-- ENC_END (R138). -/
  | encodeEnd (e : CodeEntry) (hi : i = .encEnd) (hs : s.phase = .codes ∨ s.phase = .enc)
    (hr : Memory.read s.ct Config.eof = some e)
    (h : t = State.respond 0 { (packFlush (packBits s e.code)).releaseTree with phase := .encDone })
  /-- HDR_BYTE inside a field, or at the end of a field that passes its tests (R170). -/
  | header (b : Byte) (hpos : BitVec 11) (hn hsym : BitVec 16) (hcnt : BitVec 32) (hi : i = .hdrByte b)
    (hs : s.phase = .idle ∨ s.phase = .hdr)
    (h : t = State.respond 0 { s with
      phase := .hdr, hpos := hpos, hn := hn, hsym := hsym, hcnt := hcnt })
  /-- HDR_BYTE at the end of a field that fails a test (R171, R202). -/
  | headerRaise (b : Byte) (hpos : BitVec 11) (hn hsym : BitVec 16) (hcnt : BitVec 32)
    (hi : i = .hdrByte b) (hs : s.phase = .idle ∨ s.phase = .hdr)
    (h : t = State.respond 0 (State.raise .corruptHeader { s with
      phase := .hdr, hpos := hpos, hn := hn, hsym := hsym, hcnt := hcnt }))
  /-- HDR_BYTE at the end of an entry that passes its tests (R170). -/
  | headerStore (b : Byte) (hpos : BitVec 11) (hcnt : BitVec 32) (p : Phase) (hi : i = .hdrByte b)
    (hs : s.phase = .idle ∨ s.phase = .hdr) (hp : p = .hdr ∨ p = .table)
    (hx : s.hsym.toNat < Config.nsym)
    (h : t = State.respond 0 { s with
      phase := p, hpos := hpos, hcnt := hcnt, hprev := s.hsym,
      ft := Memory.write s.ft s.hsym.toNat hcnt, ftN := s.ftN + 1 })
  /-- DEC_BIT and DEC_BYTE (R153, R155). -/
  | walk (bits : Code)
    (hi : (∃ b, i = .decBit b ∧ bits = [bitOperand b]) ∨ ∃ b, i = .decByte b ∧ bits = byteBits b)
    (hs : s.phase = .tree ∨ s.phase = .dec)
    (h : t = State.respond 0 (walkBits bits { s with phase := .dec }))

theorem Phase.mem_of_legalIn {p : Phase} {l : List Phase} (h : p.legalIn l = .run) : p ∈ l := by
  simp only [Phase.legalIn] at h
  split at h
  · cases h
  · split at h
    · assumption
    · cases h

theorem effect_count {i : Instr} {s t : State} {x : Nat} {p : Phase} (hi : Counts i x p)
    (hs : s.phase = .idle ∨ s.phase = .count) (h : countSymbol x p s = .next t) : Effect i s t := by
  have hf : s.phase ≠ .fault := by rcases hs with h | h <;> simp [h]
  simp only [countSymbol] at h
  split at h
  · injection h with h
    exact .insert x p hi hs ‹_› h.symm
  · split at h
    · injection h with h
      exact .raise _ hf (by decide) h.symm
    · injection h with h
      exact .add x p _ hi hs ‹_› ‹_› h.symm

/-- Every next state of a command is one of these forms. -/
theorem exec_effect {i : Instr} {s t : State} (h : exec i s = .next t) : Effect i s t := by
  rcases exec_cases i s with ⟨hg, he⟩ | ⟨hg, he⟩ | ⟨e, hg, he⟩ <;> rw [he] at h
  rotate_left
  · injection h with h
    exact .same 0 h.symm (fun _ => rfl)
  · injection h with h
    exact .raise e (gateOf_raises_not_fault hg) (by rcases gateOf_raises_err hg with h | h | h <;> simp [h]) h.symm
  cases i with
  | nop =>
    injection h with h
    exact .same 0 h.symm (fun _ => rfl)
  | clear =>
    injection h with h
    exact .clear rfl h.symm
  | rdReg r =>
    injection h with h
    exact .same _ h.symm (fun h => absurd trivial h)
  | rdFreq r =>
    injection h with h
    exact .same _ h.symm (fun h => absurd trivial h)
  | rdNode r =>
    injection h with h
    exact .same _ h.symm (fun h => absurd trivial h)
  | rdCode r =>
    injection h with h
    exact .same _ h.symm (fun h => absurd trivial h)
  | freqByte b =>
    have hb : symbolOfByte b = b.toNat := by
      have := b.isLt
      simp only [symbolOfByte, BitVec.toNat_setWidth]
      omega
    exact effect_count (.inl ⟨b, rfl, hb, rfl⟩) (by simpa using Phase.mem_of_legalIn hg) h
  | freqEnd => exact effect_count (.inr ⟨rfl, rfl, rfl⟩) (by simpa using Phase.mem_of_legalIn hg) h
  | buildTree =>
    have hp : s.phase = .table := by
      simp only [gateOf] at hg
      split at hg
      · cases hg
      · simpa using Phase.mem_of_legalIn hg
    simp only [ruleOf, buildTreeRule] at h
    split at h
    · rename_i r hr
      injection h with h
      exact .tree r rfl hp hr h.symm
    · cases h
  | buildCodes =>
    have hp : s.phase = .tree := by simpa using Phase.mem_of_legalIn hg
    simp only [ruleOf, buildCodesRule] at h
    split at h
    · cases h
    · injection h with h
      exact .codes _ rfl hp ‹_› h.symm
  | hdrEmit =>
    injection h with h
    exact .emit rfl (Phase.mem_of_legalIn hg) h.symm
  | encByte b =>
    have hp : s.phase = .codes ∨ s.phase = .enc := by simpa using Phase.mem_of_legalIn hg
    have hf : s.phase ≠ .fault := by rcases hp with h | h <;> simp [h]
    simp only [ruleOf, encByteRule] at h
    split at h
    · injection h with h
      exact .raise _ hf (by decide) h.symm
    · injection h with h
      exact .encode b _ rfl hp ‹_› h.symm
  | encEnd =>
    have hp : s.phase = .codes ∨ s.phase = .enc := by simpa using Phase.mem_of_legalIn hg
    have hf : s.phase ≠ .fault := by rcases hp with h | h <;> simp [h]
    simp only [ruleOf, encEndRule] at h
    split at h
    · injection h with h
      exact .raise _ hf (by decide) h.symm
    · injection h with h
      exact .encodeEnd _ rfl hp ‹_› h.symm
  | hdrByte b =>
    have hp : s.phase = .idle ∨ s.phase = .hdr := by simpa using Phase.mem_of_legalIn hg
    simp only [ruleOf, hdrByteAt] at h
    split at h
    · injection h with h
      exact .header b _ _ s.hsym s.hcnt rfl hp h.symm
    split at h
    · simp only [checkEntryCount] at h
      split at h
      · injection h with h
        exact .headerRaise b _ _ s.hsym s.hcnt rfl hp h.symm
      · injection h with h
        exact .header b _ _ s.hsym s.hcnt rfl hp h.symm
    simp only [entryByte] at h
    split at h
    · injection h with h
      exact .header b _ s.hn _ s.hcnt rfl hp h.symm
    split at h
    · simp only [checkSymbol] at h
      split at h
      · injection h with h
        exact .headerRaise b _ s.hn _ s.hcnt rfl hp h.symm
      split at h
      · injection h with h
        exact .headerRaise b _ s.hn _ s.hcnt rfl hp h.symm
      split at h
      · injection h with h
        exact .headerRaise b _ s.hn _ s.hcnt rfl hp h.symm
      · injection h with h
        exact .header b _ s.hn _ s.hcnt rfl hp h.symm
    split at h
    · simp only [storeEntry] at h
      split at h
      · injection h with h
        exact .headerRaise b _ s.hn s.hsym _ rfl hp h.symm
      split at h
      · cases h
      · rename_i hx
        injection h with h
        exact .headerStore b _ _ _ rfl hp (by split <;> simp) (Nat.not_le.1 hx) h.symm
    · injection h with h
      exact .header b _ s.hn s.hsym _ rfl hp h.symm
  | decBit t =>
    simp only [gateOf] at hg
    split at hg
    · cases hg
    injection h with h
    exact .walk _ (.inl ⟨t, rfl, rfl⟩) (by simpa using Phase.mem_of_legalIn hg) h.symm
  | decByte b =>
    simp only [gateOf] at hg
    split at hg
    · cases hg
    injection h with h
    exact .walk _ (.inr ⟨b, rfl, bitsOfByte_eq b⟩) (by simpa using Phase.mem_of_legalIn hg) h.symm
  | decEnd =>
    simp only [gateOf] at hg
    split at hg
    · cases hg
    split at hg
    · cases hg
    injection h with h
    exact .raise _ (fun hh => by simpa [hh] using Phase.mem_of_legalIn hg) (by decide) h.symm

/-! ## The shapes of the walker's and the packer's updates -/

/-- Walking bits appends to OUT and moves the cursor, or reaches the sentinel and releases the tree. -/
theorem walkBits_cases (bits : Code) (s : State) :
    (∃ bs c, walkBits bits s = { s with out := s.out ++ bs, cur := c }) ∨
      ∃ bs, walkBits bits s = { s.releaseTree with out := s.out ++ bs, phase := .decDone } := by
  obtain ⟨h1, h2⟩ := walkBits_spec bits s
  cases h : (decodeBits s.node s.root s.cur bits).2 with
  | none => exact .inr ⟨_, h2 h⟩
  | some c => exact .inl ⟨_, _, h1 c h⟩

/-- Packing a code and flushing writes only OUT and the packer. -/
theorem packFlush_packBits_cases (s : State) (c : Code) :
    ∃ bs acc nb bitcnt, packFlush (packBits s c) =
      { s with out := s.out ++ bs, acc := acc, nb := nb, bitcnt := bitcnt } := by
  obtain ⟨bs, acc, nb, h, -⟩ := packBits_spec c s
  obtain ⟨bs', h', -⟩ := packFlush_spec (packBits s c)
  rw [h', h]
  exact ⟨bs ++ bs', _, _, _, by rw [← List.append_assoc]⟩

end Sys2Proof.Machine
end

