-- ==== Sys2Proof/Laws/PerInstr.lean ====
section
/-! SUPPORT. One statement about every command as syntax (spec/30_encoding.md rules R81 to R87): its word
matches the row of the table with its mnemonic, and obeys the row's format. -/

set_option Elab.async false

namespace Sys2Proof.Laws.EncodedWord

/-- The word of a command matches its row of R87 and obeys the format of its opcode. -/
def Statement (i : Instr) : Prop :=
  (∃ row ∈ opcodeTable, row.mnemonic = i.mnemonic ∧ encode i &&& row.mask = row.pattern) ∧
    (RawWord.ofWord (encode i)).wellFormed = true

/-- The opcode field of a Format X word is its opcode (R80, R84). -/
theorem op_encodeX (op : BitVec 6) (x : BitVec 10) : (RawWord.ofWord (encodeX op x)).op = op := by
  apply BitVec.eq_of_toNat_eq
  have := x.isLt
  simp only [RawWord.ofWord, encodeX, BitVec.extractLsb'_toNat, BitVec.toNat_append]
  rw [← Nat.shiftLeft_add_eq_or_of_lt this, Nat.shiftRight_eq_div_pow, Nat.shiftLeft_eq]
  have := op.isLt
  omega

/-- Every word with a Format X opcode is well formed (R84). -/
theorem wellFormed_encodeX {op : BitVec 6} (h : opFormat op = some .x) (x : BitVec 10) :
    (RawWord.ofWord (encodeX op x)).wellFormed = true := by
  rw [RawWord.wellFormed, op_encodeX, h]
  rfl

theorem nop : Statement .nop := by unfold Statement; decide +kernel

theorem clear : Statement .clear := by unfold Statement; decide +kernel

theorem freqByte (b : Byte) : Statement (.freqByte b) := by
  have h : ∀ b, encode (.freqByte b) &&& 0xFF00#16 = 0x0800#16 ∧
      (RawWord.ofWord (encode (.freqByte b))).wellFormed = true := by decide +kernel
  exact ⟨⟨⟨0x02#6, "FREQ_BYTE", .b, 0x0800#16, 0xFF00#16⟩, by simp [opcodeTable], rfl,
    (h b).1⟩, (h b).2⟩

theorem freqEnd : Statement .freqEnd := by unfold Statement; decide +kernel

theorem buildTree : Statement .buildTree := by unfold Statement; decide +kernel

theorem buildCodes : Statement .buildCodes := by unfold Statement; decide +kernel

theorem hdrEmit : Statement .hdrEmit := by unfold Statement; decide +kernel

theorem encByte (b : Byte) : Statement (.encByte b) := by
  have h : ∀ b, encode (.encByte b) &&& 0xFF00#16 = 0x1C00#16 ∧
      (RawWord.ofWord (encode (.encByte b))).wellFormed = true := by decide +kernel
  exact ⟨⟨⟨0x07#6, "ENC_BYTE", .b, 0x1C00#16, 0xFF00#16⟩, by simp [opcodeTable], rfl,
    (h b).1⟩, (h b).2⟩

theorem encEnd : Statement .encEnd := by unfold Statement; decide +kernel

theorem hdrByte (b : Byte) : Statement (.hdrByte b) := by
  have h : ∀ b, encode (.hdrByte b) &&& 0xFF00#16 = 0x2400#16 ∧
      (RawWord.ofWord (encode (.hdrByte b))).wellFormed = true := by decide +kernel
  exact ⟨⟨⟨0x09#6, "HDR_BYTE", .b, 0x2400#16, 0xFF00#16⟩, by simp [opcodeTable], rfl,
    (h b).1⟩, (h b).2⟩

theorem decBit (t : BitVec 1) : Statement (.decBit t) := by
  have h : ∀ t, encode (.decBit t) &&& 0xFFFE#16 = 0x2800#16 ∧
      (RawWord.ofWord (encode (.decBit t))).wellFormed = true := by decide +kernel
  exact ⟨⟨⟨0x0A#6, "DEC_BIT", .t, 0x2800#16, 0xFFFE#16⟩, by simp [opcodeTable], rfl,
    (h t).1⟩, (h t).2⟩

theorem decByte (b : Byte) : Statement (.decByte b) := by
  have h : ∀ b, encode (.decByte b) &&& 0xFF00#16 = 0x2C00#16 ∧
      (RawWord.ofWord (encode (.decByte b))).wellFormed = true := by decide +kernel
  exact ⟨⟨⟨0x0B#6, "DEC_BYTE", .b, 0x2C00#16, 0xFF00#16⟩, by simp [opcodeTable], rfl,
    (h b).1⟩, (h b).2⟩

theorem decEnd : Statement .decEnd := by unfold Statement; decide +kernel

theorem rdReg (r : BitVec 3) : Statement (.rdReg r) := by
  have h : ∀ r, encode (.rdReg r) &&& 0xFFF8#16 = 0x4000#16 ∧
      (RawWord.ofWord (encode (.rdReg r))).wellFormed = true := by decide +kernel
  exact ⟨⟨⟨0x10#6, "RD_REG", .r, 0x4000#16, 0xFFF8#16⟩, by simp [opcodeTable], rfl,
    (h r).1⟩, (h r).2⟩

theorem rdFreq (x : BitVec 10) : Statement (.rdFreq x) := by
  have h : ∀ x, encode (.rdFreq x) &&& 0xFC00#16 = 0x4400#16 := by decide +kernel
  exact ⟨⟨⟨0x11#6, "RD_FREQ", .x, 0x4400#16, 0xFC00#16⟩, by simp [opcodeTable], rfl, h x⟩,
    wellFormed_encodeX (by decide +kernel) x⟩

theorem rdNode (x : BitVec 10) : Statement (.rdNode x) := by
  have h : ∀ x, encode (.rdNode x) &&& 0xFC00#16 = 0x4800#16 := by decide +kernel
  exact ⟨⟨⟨0x12#6, "RD_NODE", .x, 0x4800#16, 0xFC00#16⟩, by simp [opcodeTable], rfl, h x⟩,
    wellFormed_encodeX (by decide +kernel) x⟩

theorem rdCode (x : BitVec 10) : Statement (.rdCode x) := by
  have h : ∀ x, encode (.rdCode x) &&& 0xFC00#16 = 0x4C00#16 := by decide +kernel
  exact ⟨⟨⟨0x13#6, "RD_CODE", .x, 0x4C00#16, 0xFC00#16⟩, by simp [opcodeTable], rfl, h x⟩,
    wellFormed_encodeX (by decide +kernel) x⟩

end Sys2Proof.Laws.EncodedWord
end

