-- ==== Sys2Proof/Laws/Pipeline.lean ====
section
/-! SUPPORT. The host's procedures (spec/46_control.md rules R193, R194): sequences of commands put together and
taken apart, and what the host sees of the phase. -/

set_option Elab.async false

namespace Sys2Proof.Machine

open Sys2Proof.Safety

@[simp] theorem continueWith_next (s : State) (k : State → Result) : continueWith (.next s) k = k s := rfl
@[simp] theorem continueWith_fault (f : Fault) (k : State → Result) :
    continueWith (.fault f) k = .fault f := rfl
@[simp] theorem continueWith_refused (e : Refusal) (k : State → Result) :
    continueWith (.refused e) k = .refused e := rfl

/-- A sequence ends in a next state exactly when its first command does and the rest does from there. -/
theorem continueWith_eq_next {r : Result} {k : State → Result} {t : State} :
    continueWith r k = .next t ↔ ∃ s, r = .next s ∧ k s = .next t := by
  cases r <;> simp

theorem continueWith_assoc (r : Result) (k l : State → Result) :
    continueWith (continueWith r k) l = continueWith r fun s => continueWith (k s) l := by
  cases r <;> rfl

@[simp] theorem runAll_nil (s : State) : runAll [] s = .next s := rfl
@[simp] theorem runAll_cons (i : Instr) (is : List Instr) (s : State) :
    runAll (i :: is) s = continueWith (exec i s) (runAll is) := rfl

/-- A sequence in two parts. -/
theorem runAll_append (is js : List Instr) (s : State) :
    runAll (is ++ js) s = continueWith (runAll is s) (runAll js) := by
  induction is generalizing s with
  | nil => rfl
  | cons i is ih =>
    rw [List.cons_append, runAll_cons, runAll_cons, continueWith_assoc]
    exact congrArg _ (funext ih)

/-- A response with the status {PHASE, ERR} shows its phase and no other (R90). -/
theorem showsPhase_of_status {s : State} {q : Phase} {e : Err} {data : RData}
    (h : s.resp = some { status := q.code ++ e.code, data := data }) (p : Phase) :
    showsPhase p s = decide (q = p) := by
  have hq : (q.code ++ e.code).extractLsb' 4 4 = q.code := by cases q <;> cases e <;> rfl
  simp only [showsPhase, h, hq]
  cases q <;> cases p <;> rfl

/-- After a response, the host sees the phase as it stands (R90). -/
@[simp] theorem showsPhase_responded (p : Phase) (data : RData) (s : State) :
    showsPhase p (responded data s) = decide (s.phase = p) :=
  showsPhase_of_status rfl p

/-- After a raise, the host sees FAULT (R90, R201). -/
@[simp] theorem showsPhase_faulted (p : Phase) (e : Err) (s : State) :
    showsPhase p (faulted e s) = decide (.fault = p) :=
  showsPhase_of_status (q := .fault) rfl p

end Sys2Proof.Machine
end

