-- ==== Sys2Proof/Laws/ReadBack.lean ====
section
/-! SUPPORT. The numbers that concatenated fields and the 272-bit data field hold (spec/30_encoding.md rule
R90, spec/46_control.md rules R189 to R192). -/

set_option Elab.async false

namespace Sys2Proof.Machine

/-- A concatenation as a number: the high field times its place, plus the low field. -/
theorem toNat_concat {m n : Nat} (x : BitVec m) (y : BitVec n) :
    (x ++ y).toNat = 2 ^ n * x.toNat + y.toNat := by
  rw [BitVec.toNat_append, ← Nat.shiftLeft_add_eq_or_of_lt y.isLt, Nat.shiftLeft_eq, Nat.mul_comm]

/-- Fields of at most 272 bits stand in the data field unchanged. -/
theorem toNat_dataOf {n : Nat} (v : BitVec n) (h : n ≤ 272) : (dataOf v).toNat = v.toNat := by
  rw [dataOf, BitVec.toNat_setWidth_of_le h]

end Sys2Proof.Machine
end

