-- ==== Sys2Proof/Tests/Slice0.lean ====
section
/-! SUPPORT. Tests of the model. Every expected value is from spec/95_test_vectors.md (the vector's id stands
in the comment) or worked out by hand from the rule named; and one witness per statement with hypotheses. -/

set_option Elab.async false

namespace Sys2Proof.Tests

open Sys2Proof.Machine Sys2Proof.Safety

/-! ## Small states -/

/-- The state a result holds, if it is a next state. -/
def stateOf : Result → Option State
  | .next s => some s
  | _ => none

/-- One field, or several, of the state a result holds. -/
def look {α : Type} (f : State → α) (r : Result) : Option α := (stateOf r).map f

/-- The status of the last response. -/
def statusOf (s : State) : Option (BitVec 8) := s.resp.map Response.status

/-- The data of the last response. -/
def dataOf (s : State) : Option RData := s.resp.map Response.data

/-- The reset state in another phase. -/
def inPhase (p : Phase) : State := { State.reset with phase := p }

/-- A state in FAULT with MalformedInput (status 0xF1, vectors CR16 to CR19). -/
def faultState : State :=
  { State.reset with phase := .fault, err := .malformedInput, ft := [(0x61, 2)], ftN := 1 }

/-- Vector V1, "aab", after FREQ_END. -/
def v1Table : State :=
  { State.reset with phase := .table, ft := [(0x61, 2), (0x62, 1), (256, 1)], ftN := 3 }

/-- Vector V1, the nodes. -/
def v1Nodes : List Node :=
  [⟨0x61, 2, 1023, 1023⟩, ⟨0x62, 1, 1023, 1023⟩, ⟨256, 1, 1023, 1023⟩, ⟨257, 2, 1, 2⟩, ⟨257, 4, 0, 3⟩]

/-- Vector T1. -/
def v1Tree : State :=
  { v1Table with phase := .tree, node := v1Nodes, nodeCnt := 5, root := 4, cur := 4, treeValid := true }

/-- Vector K1. -/
def v1Codes : State :=
  { v1Tree with
    phase := .codes
    ct := [(0x61, ⟨1, 0⟩), (0x62, ⟨2, 1#256 <<< 255⟩), (256, ⟨2, 3#256 <<< 254⟩)] }

/-- Vector V2, the empty source, after FREQ_END. -/
def v2Table : State := { State.reset with phase := .table, ft := [(256, 1)], ftN := 1 }

/-- While a header is received: HPOS bytes of it have come. -/
def inHeader (hpos : BitVec 11) (hn hsym : BitVec 16) (hcnt : BitVec 32) (hprev : BitVec 16)
    (ft : List (Nat × Count)) : State :=
  { State.reset with
    phase := .hdr, hpos := hpos, hn := hn, hsym := hsym, hcnt := hcnt, hprev := hprev, ft := ft,
    ftN := BitVec.ofNat 9 ft.length }

/-- A header in which one byte was given, with the high byte of N (R170). -/
def afterHighN (hn : BitVec 16) : State := inHeader 1 hn 0 0 0 []

/-! ## Decoding: words written out from the spec's encodings (R80 to R87, vectors E1 to E26) -/

-- op 000000, arg 0000000000 (E1)
theorem test_decode_nop : decode 0b000000_0000000000#16 = .ok .nop := by decide
-- op 000001 (E2)
theorem test_decode_clear : decode 0b000001_0000000000#16 = .ok .clear := by decide
-- op 000010, arg 00 11111111 (E4)
theorem test_decode_freqByte : decode 0b000010_00_11111111#16 = .ok (.freqByte 0xFF) := by decide
-- op 000011 (E6)
theorem test_decode_freqEnd : decode 0b000011_0000000000#16 = .ok .freqEnd := by decide
-- op 000100 (E8)
theorem test_decode_buildTree : decode 0b000100_0000000000#16 = .ok .buildTree := by decide
-- op 000101 (E9)
theorem test_decode_buildCodes : decode 0b000101_0000000000#16 = .ok .buildCodes := by decide
-- op 000110 (E10)
theorem test_decode_hdrEmit : decode 0b000110_0000000000#16 = .ok .hdrEmit := by decide
-- op 000111, arg 00 01100001 (R87: ENC_BYTE 0x61 is 0x1C61)
theorem test_decode_encByte : decode 0b000111_00_01100001#16 = .ok (.encByte 0x61) := by decide
-- op 001000 (E12)
theorem test_decode_encEnd : decode 0b001000_0000000000#16 = .ok .encEnd := by decide
-- op 001001, arg 00 11111111 (E13)
theorem test_decode_hdrByte : decode 0b001001_00_11111111#16 = .ok (.hdrByte 0xFF) := by decide
-- op 001010, arg 000000000 1 (E14)
theorem test_decode_decBit : decode 0b001010_000000000_1#16 = .ok (.decBit 1) := by decide
-- op 001011, arg 00 00101100 (E16)
theorem test_decode_decByte : decode 0b001011_00_00101100#16 = .ok (.decByte 0x2C) := by decide
-- op 001100 (E17)
theorem test_decode_decEnd : decode 0b001100_0000000000#16 = .ok .decEnd := by decide
-- op 010000, arg 0000000 111 (E19)
theorem test_decode_rdReg : decode 0b010000_0000000_111#16 = .ok (.rdReg 7) := by decide
-- op 010001, arg 1111111111 (E22)
theorem test_decode_rdFreq : decode 0b010001_1111111111#16 = .ok (.rdFreq 1023) := by decide
-- op 010010, arg 1000000000 (E23)
theorem test_decode_rdNode : decode 0b010010_1000000000#16 = .ok (.rdNode 512) := by decide
-- op 010011, arg 0100000000 (E24)
theorem test_decode_rdCode : decode 0b010011_0100000000#16 = .ok (.rdCode 256) := by decide

-- E5, E7, E15, E20 and the boundaries of the reserved opcodes (E18, E25, E26)
theorem test_illegal_formatB : decode 0x0900#16 = .error .operandOfFormatB := by decide
theorem test_illegal_formatN : decode 0x0C01#16 = .error .operandOfFormatN := by decide
theorem test_illegal_formatT : decode 0x2802#16 = .error .operandOfFormatT := by decide
theorem test_illegal_formatR : decode 0x4008#16 = .error .operandOfFormatR := by decide
theorem test_illegal_opcodes :
    decode 0x3400#16 = .error .reservedOpcode ∧ decode 0x3FFF#16 = .error .reservedOpcode ∧
      decode 0x5000#16 = .error .reservedOpcode ∧ decode 0xFFFF#16 = .error .reservedOpcode := by decide

/-- No two rows of the table overlap: they differ in a bit that both masks fix (R87). -/
theorem test_rows_disjoint :
    opcodeTable.Pairwise fun r r' => r.pattern &&& (r.mask &&& r'.mask) ≠ r'.pattern &&& (r.mask &&& r'.mask) := by
  decide +kernel

/-- The table's rows are the match and mask columns of spec/opcode_table.json: pattern = op << 10 (R87). -/
theorem test_rows_patterns : ∀ row ∈ opcodeTable, row.pattern = row.op ++ 0#10 := by decide +kernel

/-! ## Well-formedness: an ill-formed word for each check (R81 to R85, R88) -/

theorem test_wellFormed_opcode : (RawWord.mk 0x14 0).wellFormed = false := by decide
theorem test_wellFormed_formatN : (RawWord.mk 0x03 1).wellFormed = false := by decide
theorem test_wellFormed_formatB : (RawWord.mk 0x02 0x100).wellFormed = false := by decide
theorem test_wellFormed_formatT : (RawWord.mk 0x0A 2).wellFormed = false := by decide
theorem test_wellFormed_formatR : (RawWord.mk 0x10 8).wellFormed = false := by decide
theorem test_wellFormed_formatX : (RawWord.mk 0x11 1023).wellFormed = true := by decide

/-! ## One step of each command -/

-- CR15: NOP in FAULT, status unchanged
theorem test_nop : look statusOf (exec .nop faultState) = some (some 0xF1) := by decide +kernel
-- CR16
theorem test_clear : look (fun t => (statusOf t, t.ft, t.phase)) (exec .clear faultState) =
    some (some 0x00, [], .idle) := by decide +kernel
-- Q5
theorem test_freqByte :
    look (fun t => (t.ft, statusOf t))
      (exec (.freqByte 0x61) { inPhase .count with ft := [(0x61, 0xFFFFFFFE)], ftN := 1 }) =
      some ([(0x61, 0xFFFFFFFF)], some 0x10) := by decide +kernel
-- Q6
theorem test_freqByte_overflow :
    look (fun t => (t.ft, statusOf t))
      (exec (.freqByte 0x61) { inPhase .count with ft := [(0x61, 0xFFFFFFFF)], ftN := 1 }) =
      some ([(0x61, 0xFFFFFFFF)], some 0xF7) := by decide +kernel
-- Q3
theorem test_freqEnd : look (fun t => (t.ft, t.ftN, statusOf t)) (exec .freqEnd State.reset) =
    some ([(256, 1)], 1, some 0x30) := by decide +kernel
-- Q8
theorem test_freqEnd_twice : look statusOf (exec .freqEnd v1Table) = some (some 0xF6) := by decide +kernel
-- T1
theorem test_buildTree :
    look (fun t => (t.node, t.root, t.nodeCnt, t.cur, statusOf t)) (exec .buildTree v1Table) =
      some (v1Nodes, 4, 5, 4, some 0x40) := by decide +kernel
-- T4: a chain, a leaf before an internal node of equal weight
theorem test_buildTree_chain :
    look (fun t => t.node.drop 5)
      (exec .buildTree { v1Table with
        ft := [(0x61, 1), (0x62, 2), (0x63, 4), (0x64, 8), (256, 1)], ftN := 5 }) =
      some [⟨257, 2, 0, 4⟩, ⟨257, 4, 1, 5⟩, ⟨257, 8, 2, 6⟩, ⟨257, 16, 3, 7⟩] := by decide +kernel
-- K1: codes "0", "10", "11"
theorem test_buildCodes : look (fun t => (t.ct, statusOf t)) (exec .buildCodes v1Tree) =
    some ([(0x61, ⟨1, 0⟩), (0x62, ⟨2, 1#256 <<< 255⟩), (256, ⟨2, 3#256 <<< 254⟩)], some 0x50) := by
  decide +kernel
-- K2: the second sentinel leaf is not recorded
theorem test_buildCodes_single :
    look (fun t => t.ct)
      (exec .buildCodes { v2Table with
        phase := .tree, node := [⟨256, 1, 1023, 1023⟩, ⟨256, 1, 1023, 1023⟩, ⟨257, 2, 0, 1⟩],
        nodeCnt := 3, root := 2, cur := 2, treeValid := true }) =
      some [(256, ⟨1, 0⟩)] := by decide +kernel
-- H1
theorem test_hdrEmit : look (fun t => (t.out, statusOf t)) (exec .hdrEmit v1Table) =
    some ([0x00, 0x03, 0x00, 0x61, 0x00, 0x00, 0x00, 0x02, 0x00, 0x62, 0x00, 0x00, 0x00, 0x01,
      0x01, 0x00, 0x00, 0x00, 0x00, 0x01], some 0x30) := by decide +kernel
-- H4
theorem test_hdrEmit_count : look (fun t => (t.out, statusOf t)) (exec .hdrEmit (inPhase .count)) =
    some ([], some 0xF6) := by decide +kernel
-- N3
theorem test_encByte :
    look (fun t => (t.acc, t.nb, t.bitcnt, t.out, statusOf t))
      (exec (.encByte 0x62) { v1Codes with phase := .enc, nb := 2, bitcnt := 2 }) =
      some (0x20, 4, 4, [], some 0x60) := by decide +kernel
-- N6
theorem test_encByte_noCode :
    look (fun t => (t.acc, t.nb, t.out, t.node, statusOf t)) (exec (.encByte 0x63) v1Codes) =
      some (0, 0, [], [], some 0xF1) := by decide +kernel
-- N4
theorem test_encEnd :
    look (fun t => (t.acc, t.bitcnt, t.out, t.root, statusOf t))
      (exec .encEnd { v1Codes with phase := .enc, acc := 0x20, nb := 4, bitcnt := 4 }) =
      some (0, 6, [0x2C], 1023, some 0x70) := by decide +kernel
-- N9, the last step: bits 11 after a whole byte
theorem test_encEnd_afterByte :
    look (fun t => (t.out, t.bitcnt)) (exec .encEnd { v1Codes with phase := .enc, bitcnt := 8, out := [0xAA] }) =
      some ([0xAA, 0xC0], 10) := by decide +kernel
-- H5, index 19
theorem test_hdrByte_last :
    look (fun t => (t.ft, t.ftN, t.hpos, t.hsym, t.hcnt, t.hprev, statusOf t))
      (exec (.hdrByte 0x01) (inHeader 19 3 256 0 0x62 [(0x61, 2), (0x62, 1)])) =
      some ([(0x61, 2), (0x62, 1), (256, 1)], 3, 20, 256, 1, 256, some 0x30) := by decide +kernel
-- H14: symbol 257
theorem test_hdrByte_symbol :
    look (fun t => (t.hsym, t.hpos, statusOf t)) (exec (.hdrByte 0x01) (inHeader 3 2 0x100 0 0 [])) =
      some (257, 4, some 0xF4) := by decide +kernel
-- W1
theorem test_decBit : look (fun t => (t.out, t.cur, statusOf t)) (exec (.decBit 0) v1Tree) =
    some ([0x61], 4, some 0x80) := by decide +kernel
-- W3
theorem test_decBit_sentinel :
    look (fun t => (t.out, t.cur, t.root, t.treeValid, statusOf t))
      (exec (.decBit 1) { v1Tree with phase := .dec, cur := 3, out := [0x61] }) =
      some ([0x61], 1023, 1023, false, some 0x90) := by decide +kernel
-- W4
theorem test_decByte : look (fun t => (t.out, statusOf t)) (exec (.decByte 0x2C) v1Tree) =
    some ([0x61, 0x61, 0x62], some 0x90) := by decide +kernel
-- the bits 0 1 0 0 1 0 1 0 of 0x4A: "0", "10", "0", "10", "10"
theorem test_decByte_order : look (fun t => (t.out, t.cur, statusOf t)) (exec (.decByte 0x4A) v1Tree) =
    some ([0x61, 0x62, 0x61, 0x62, 0x62], 4, some 0x80) := by decide +kernel
-- W6
theorem test_decEnd : look (fun t => (t.out, t.treeValid, statusOf t)) (exec .decEnd v1Tree) =
    some ([], false, some 0xF2) := by decide +kernel
-- H20: in HDR
theorem test_decEnd_header :
    look (fun t => (statusOf t, t.ft)) (exec .decEnd (inHeader 10 6 0x62 5 0x61 [(0x61, 5)])) =
      some (some 0xF4, [(0x61, 5)]) := by decide +kernel
-- CR3
theorem test_rdReg_status : look dataOf (exec (.rdReg 0) v1Tree) = some (some 0x140) := by decide +kernel
-- CR12
theorem test_rdReg_header :
    look dataOf (exec (.rdReg 7) { v1Table with hpos := 20, hn := 3 }) = some (some 0x1814) := by
  decide +kernel
-- CR13
theorem test_rdFreq :
    look dataOf (exec (.rdFreq 0x61) v1Table) = some (some 0x100000002) ∧
      look dataOf (exec (.rdFreq 256) v1Table) = some (some 0x100000001) := by decide +kernel
theorem test_rdFreq_absent :
    look dataOf (exec (.rdFreq 0x63) v1Table) = some (some 0) ∧
      look dataOf (exec (.rdFreq 257) v1Table) = some (some 0) := by decide +kernel
-- CR5, CR6
theorem test_rdNode :
    look dataOf (exec (.rdNode 4) v1Tree) = some (some 0x602000000000400003) ∧
      look dataOf (exec (.rdNode 0) v1Tree) = some (some 0x4C20000000002FFFFF) := by decide +kernel
-- CR8
theorem test_rdNode_outside : look dataOf (exec (.rdNode 5) v1Tree) = some (some 0) := by decide +kernel
-- K5
theorem test_rdCode : look dataOf (exec (.rdCode 0x62) v1Codes) =
    some (some (1#272 <<< 265 ||| 2#272 <<< 256 ||| 1#272 <<< 255)) := by decide +kernel
-- K6
theorem test_rdCode_absent : look dataOf (exec (.rdCode 0x63) v1Codes) = some (some 0) := by decide +kernel

-- CR17: an illegal word in FAULT has no effect; outside FAULT it raises
theorem test_illegalWord :
    look statusOf (step (faultState.withFetchWord 16 0xFFFF)) = some (some 0xF1) ∧
      look statusOf (step (v1Tree.withFetchWord 16 0xFFFF)) = some (some 0xF6) := by decide +kernel
-- R230
theorem test_resetInput : look (fun t => (t.phase, t.ft, t.resp)) (step { v1Tree with host := [.reset] }) =
    some (.idle, [], none) := by decide +kernel

/-! ## States that meet the invariant -/

theorem test_clean_zero : PackerClean 0 0 := fun _ _ => BitVec.getMsbD_zero

/-- Vector V1's nodes are the tree BUILD_TREE makes of its table. -/
theorem test_v1_arena : Arena v1Table.ft v1Nodes := by
  obtain ⟨nodes, h, A, -⟩ := builtTree_spec (ft := v1Table.ft) (by decide +kernel) (by decide)
  have : (builtTree v1Table.ft).1 = v1Nodes := by decide +kernel
  rw [h] at this
  rwa [← this]

/-- The idle state after a first command, a second one waiting. -/
def idleState : State := { State.reset with resp := some ⟨0, 0⟩, host := [.word 0x0C00#16] }

theorem test_idle_consistent : Consistent idleState := by
  refine ⟨?_, ?_, ?_, ?_, ?_, ?_, ?_, ?_, ?_, ?_, ?_, ?_, ?_, ?_, ?_, ?_, ?_, test_clean_zero, ?_,
    fun _ => rfl, ?_, ?_⟩ <;>
    first | decide | exact fun h => absurd h (by decide) | exact fun _ h => absurd h List.not_mem_nil

theorem test_v1Table_consistent : Consistent v1Table := by
  refine ⟨?_, ?_, ?_, ?_, ?_, ?_, ?_, ?_, ?_, ?_, ?_, ?_, ?_, ?_, ?_, ?_, ?_, test_clean_zero, ?_,
    ?_, ?_, ?_⟩ <;>
    first | decide | exact fun h => absurd h (by decide) | exact fun _ h => absurd h List.not_mem_nil

theorem test_v2Table_consistent : Consistent v2Table := by
  refine ⟨?_, ?_, ?_, ?_, ?_, ?_, ?_, ?_, ?_, ?_, ?_, ?_, ?_, ?_, ?_, ?_, ?_, test_clean_zero, ?_,
    ?_, ?_, ?_⟩ <;>
    first | decide | exact fun h => absurd h (by decide) | exact fun _ h => absurd h List.not_mem_nil

theorem test_v1Tree_consistent : Consistent v1Tree := by
  refine ⟨?_, ?_, ?_, ?_, ?_, ?_, ?_, ?_, ?_, ?_, ?_, ?_, ?_, ?_, fun _ => ⟨test_v1_arena, by decide⟩, ?_,
    ?_, test_clean_zero, ?_, ?_, ?_, ?_⟩ <;>
    first | decide | exact fun h => absurd h (by decide) | exact fun _ h => absurd h List.not_mem_nil

theorem test_v1Tree_header_consistent : Consistent { v1Tree with hpos := 20, hn := 3 } := by
  refine ⟨?_, ?_, ?_, ?_, ?_, ?_, ?_, ?_, ?_, ?_, ?_, ?_, ?_, ?_, fun _ => ⟨test_v1_arena, by decide⟩, ?_,
    ?_, test_clean_zero, ?_, ?_, ?_, ?_⟩ <;>
    first | decide | exact fun h => absurd h (by decide) | exact fun _ h => absurd h List.not_mem_nil

theorem test_decDone_consistent : Consistent { v1Table with phase := .decDone } := by
  refine ⟨?_, ?_, ?_, ?_, ?_, ?_, ?_, ?_, ?_, ?_, ?_, ?_, ?_, ?_, ?_, ?_, ?_, test_clean_zero, ?_,
    ?_, ?_, ?_⟩ <;>
    first | decide | exact fun h => absurd h (by decide) | exact fun _ h => absurd h List.not_mem_nil

theorem test_fault_consistent : Consistent faultState := by
  refine ⟨?_, ?_, ?_, ?_, ?_, ?_, ?_, ?_, ?_, ?_, ?_, ?_, ?_, ?_, ?_, ?_, ?_, test_clean_zero, ?_,
    ?_, ?_, ?_⟩ <;>
    first | decide | exact fun h => absurd h (by decide) | exact fun _ h => absurd h List.not_mem_nil

/-- K1's codes are the codes "0", "10", "11". -/
theorem test_v1_codes : v1Codes.ct =
    [(0x61, codeEntryOf [false]), (0x62, codeEntryOf [true, false]), (256, codeEntryOf [true, true])] := by
  decide +kernel

theorem test_v1_paths : LeafPath v1Nodes 4 0x61 [false] ∧ LeafPath v1Nodes 4 0x62 [true, false] ∧
    LeafPath v1Nodes 4 256 [true, true] := by
  unfold LeafPath; decide +kernel

theorem test_v1Codes_consistent : Consistent v1Codes := by
  have hok : ∀ e ∈ v1Codes.ct, EntryOk e.2 := by
    rw [test_v1_codes]
    intro e he
    rcases (by simpa using he : e = _ ∨ e = _ ∨ e = _) with rfl | rfl | rfl <;>
      exact codeEntryOf_ok (by simp) (by simp)
  have hpath : ∀ e ∈ v1Codes.ct, LeafPath v1Nodes 4 e.1 e.2.code := by
    rw [test_v1_codes]
    intro e he
    obtain ⟨h1, h2, h3⟩ := test_v1_paths
    rcases (by simpa using he : e = _ ∨ e = _ ∨ e = _) with rfl | rfl | rfl <;>
      rw [code_codeEntryOf (by simp)] <;> assumption
  refine ⟨?_, ?_, ?_, ?_, ?_, ?_, ?_, ?_, hok, ?_, ?_, fun _ => hpath, ?_, ?_,
    fun _ => ⟨test_v1_arena, by decide⟩, ?_, ?_, test_clean_zero, ?_, ?_, ?_, ?_⟩ <;>
    first | decide | exact fun h => absurd h (by decide)

/-! ## Witnesses: for each statement, a state and operands that meet its hypotheses, clause by clause -/

/-- A next state with a property, from its evaluation. -/
theorem next_of {r : Result} {p : State → Bool} (h : (stateOf r).any p = true) :
    ∃ t, r = .next t ∧ p t = true := by
  cases r with
  | next t => exact ⟨t, rfl, by simpa [stateOf] using h⟩
  | fault f => simp [stateOf] at h
  | refused r => simp [stateOf] at h

theorem test_witness_TableRowsSelectTheirCommand :
    ⟨0x02#6, "FREQ_BYTE", .b, 0x0800#16, 0xFF00#16⟩ ∈ opcodeTable ∧
      (0x0861#16 : CmdWord) &&& 0xFF00#16 = 0x0800#16 := by simp [opcodeTable]

theorem test_witness_OperandsAreSlicesOfTheWord :
    decode 0x08FF#16 = .ok (.freqByte 0xFF) ∧ decode 0x1C00#16 = .ok (.encByte 0) ∧
      decode 0x2403#16 = .ok (.hdrByte 3) ∧ decode 0x2C2C#16 = .ok (.decByte 0x2C) ∧
      decode 0x2800#16 = .ok (.decBit 0) ∧ decode 0x4007#16 = .ok (.rdReg 7) ∧
      decode 0x47FF#16 = .ok (.rdFreq 1023) ∧ decode 0x4BFF#16 = .ok (.rdNode 1023) ∧
      decode 0x4C00#16 = .ok (.rdCode 0) := by decide

theorem test_witness_IllegalEncodingsRaise :
    { v1Tree with host := [.word 0x3400#16] }.host = [HostMove.word 0x3400#16] ∧
      decode 0x3400#16 = .error .reservedOpcode ∧ v1Tree.phase ≠ .fault := by decide

theorem test_witness_StepRunsTheDecodedCommand :
    idleState.host = [HostMove.word 0x0C00#16] ∧ decode 0x0C00#16 = .ok .freqEnd := by decide

theorem test_witness_ResetInputGivesTheResetState :
    { v1Tree with host := [.reset, .word 0x0000#16] }.host = [HostMove.reset, .word 0x0000#16] := rfl

theorem test_witness_StepWaitsForTheHost : v1Tree.host = [] := rfl

theorem test_witness_ResetAndClearValues : ∃ t, exec .clear v1Tree = .next t :=
  let ⟨t, h, _⟩ := next_of (p := fun _ => true) (r := exec .clear v1Tree) (by decide +kernel)
  ⟨t, h⟩

/-- RD_FREQ: the sentinel's slot 256 is the last in range, 257 the first out of range, 0x63 is absent. -/
theorem test_witness_RdFreqAnswersTheEntry :
    ((256#10).toNat ≤ 256 ∧ Memory.read v1Table.ft (256#10).toNat = some 1) ∧ 256 < (257#10).toNat ∧
      Memory.read v1Table.ft (0x63#10).toNat = none := by decide

/-- RD_NODE: the root 4 is the last node, 5 the first index outside. -/
theorem test_witness_RdNodeAnswersTheNode :
    (v1Tree.treeValid = true ∧ (4#10).toNat < v1Tree.nodeCnt.toNat ∧
      v1Tree.node[(4#10).toNat]? = some ⟨257, 4, 0, 3⟩) ∧
      v1Tree.nodeCnt.toNat ≤ (5#10).toNat ∧ v1Table.treeValid = false := by decide

theorem test_witness_RdCodeAnswersTheCode :
    ((256#10).toNat ≤ 256 ∧ Memory.read v1Codes.ct (256#10).toNat = some ⟨2, 3#256 <<< 254⟩) ∧
      256 < (257#10).toNat ∧ Memory.read v1Codes.ct (0#10).toNat = none := by decide

/-- FREQ_BYTE 0x61: absent, present below the largest count, at the largest count; illegal in TABLE. -/
theorem test_witness_FreqByteCountsItsByte :
    (State.reset.phase = .idle ∧ Memory.read State.reset.ft 0x61 = none) ∧
      Memory.read [(0x61, 0xFFFFFFFE#32)] 0x61 = some 0xFFFFFFFE#32 ∧ 0xFFFFFFFE#32 ≠ 0xFFFFFFFF#32 ∧
      Memory.read [(0x61, 0xFFFFFFFF#32)] 0x61 = some 0xFFFFFFFF#32 ∧ (inPhase .count).phase = .count ∧
      v1Table.phase ∉ [.idle, .count] ∧ v1Table.phase ≠ .fault ∧ faultState.phase = .fault := by decide

theorem test_witness_FreqEndAddsTheSentinel :
    State.reset.phase = .idle ∧ Memory.read State.reset.ft 256 = none ∧
      Memory.read [(256, 1#32)] 256 = some 1#32 ∧ (1#32 : Count) ≠ 0xFFFFFFFF#32 ∧
      Memory.read [(256, 0xFFFFFFFF#32)] 256 = some 0xFFFFFFFF#32 ∧ v1Table.phase ∉ [.idle, .count] := by
  decide

theorem test_witness_CountingPassCountsOccurrences :
    Consistent idleState ∧ idleState.phase = .idle ∧
      ∀ b : Byte, ([0x61, 0x61, 0x62] : List Byte).count b ≤ 2 ^ 32 - 1 :=
  ⟨test_idle_consistent, rfl, fun _ => Nat.le_trans List.count_le_length (by decide)⟩

theorem test_witness_CountingIsOrderIndependent :
    ([0x61, 0x61, 0x62] : List Byte).Perm [0x62, 0x61, 0x61] ∧ Consistent idleState ∧
      idleState.phase = .idle ∧ ∀ b : Byte, ([0x61, 0x61, 0x62] : List Byte).count b ≤ 2 ^ 32 - 1 :=
  ⟨by decide, test_witness_CountingPassCountsOccurrences⟩

theorem test_witness_BuildTreeBuildsTheArena : Consistent v1Table ∧ v1Table.phase = .table :=
  ⟨test_v1Table_consistent, rfl⟩

/-- With several entries and with one. -/
theorem test_witness_BuildTreeMergesTheLeastPair :
    (Consistent v1Table ∧ v1Table.phase = .table ∧ ∃ t, exec .buildTree v1Table = .next t) ∧
      Consistent v2Table ∧ v2Table.phase = .table ∧ v2Table.ft.length = 1 ∧
        ∃ t, exec .buildTree v2Table = .next t :=
  let ⟨t, h, _⟩ := next_of (p := fun _ => true) (r := exec .buildTree v1Table) (by decide +kernel)
  let ⟨u, h', _⟩ := next_of (p := fun _ => true) (r := exec .buildTree v2Table) (by decide +kernel)
  ⟨⟨test_v1Table_consistent, rfl, t, h⟩, test_v2Table_consistent, rfl, rfl, u, h'⟩

theorem test_witness_BuildTreeOutsideTable :
    (inPhase .idle).phase = .idle ∧ Consistent idleState ∧ v1Tree.phase ∉ [.table, .idle] ∧
      v1Tree.phase ≠ .fault :=
  ⟨rfl, test_idle_consistent, by decide, by decide⟩

/-- One table, from counting and from a header. -/
theorem test_witness_BuildTreeDependsOnTheTableAlone :
    v1Table.phase = .table ∧ { v1Table with hpos := 20, hn := 3 }.phase = .table ∧
      v1Table.ft = { v1Table with hpos := 20, hn := 3 }.ft ∧
      (∃ t, exec .buildTree v1Table = .next t) ∧
      ∃ t, exec .buildTree { v1Table with hpos := 20, hn := 3 } = .next t :=
  let ⟨t, h, _⟩ := next_of (p := fun _ => true) (r := exec .buildTree v1Table) (by decide +kernel)
  let ⟨u, h', _⟩ := next_of (p := fun _ => true)
    (r := exec .buildTree { v1Table with hpos := 20, hn := 3 }) (by decide +kernel)
  ⟨rfl, rfl, rfl, ⟨t, h⟩, u, h'⟩

theorem test_witness_BuildCodesRecordsTheLeafPaths :
    Consistent v1Tree ∧ v1Tree.phase = .tree ∧ v1Table.phase ∉ [.tree] ∧ v1Table.phase ≠ .fault :=
  ⟨test_v1Tree_consistent, rfl, by decide, by decide⟩

/-- One tree, in a cycle that counted and in one that was given a header. -/
theorem test_witness_CodesDependOnTheTreeAlone :
    let v1Tree' : State := { v1Tree with hpos := 20, hn := 3 }
    Consistent v1Tree ∧ Consistent v1Tree' ∧ v1Tree.phase = .tree ∧ v1Tree'.phase = .tree ∧
      v1Tree.node = v1Tree'.node ∧ v1Tree.root = v1Tree'.root ∧ (∃ t, exec .buildCodes v1Tree = .next t) ∧
      ∃ t, exec .buildCodes v1Tree' = .next t := by
  obtain ⟨t, h, -⟩ := next_of (p := fun _ => true) (r := exec .buildCodes v1Tree) (by decide +kernel)
  obtain ⟨u, h', -⟩ := next_of (p := fun _ => true)
    (r := exec .buildCodes { v1Tree with hpos := 20, hn := 3 }) (by decide +kernel)
  exact ⟨test_v1Tree_consistent, test_v1Tree_header_consistent, rfl, rfl, rfl, rfl, ⟨t, h⟩, u, h'⟩

theorem test_witness_CodesArePrefixFree :
    Consistent v1Codes ∧ v1Codes.phase = .codes ∧ (0x61 : Nat) ≠ 256 ∧ v1Codes.ctValid 0x61 = true ∧
      v1Codes.ctValid 256 = true :=
  ⟨test_v1Codes_consistent, rfl, by decide, by decide, by decide⟩

theorem test_witness_SingleEntryHasCodeZero :
    Consistent v2Table ∧ v2Table.phase = .table ∧ v2Table.ft.length = 1 :=
  ⟨test_v2Table_consistent, rfl, rfl⟩

theorem test_witness_EncByteAppendsTheCode :
    v1Codes.phase = .codes ∧ v1Codes.ctValid (0x63#8).toNat = false ∧
      v1Codes.ctValid (0x62#8).toNat = true ∧ PackerClean v1Codes.nb v1Codes.acc ∧
      v1Table.phase ∉ [.codes, .enc] ∧ v1Table.phase ≠ .fault :=
  ⟨rfl, by decide, by decide, test_clean_zero, by decide, by decide⟩

theorem test_witness_EncEndFlushesAndReleases :
    (Consistent v1Codes ∧ v1Codes.phase = .codes ∧ v1Codes.ctValid 256 = true ∧
      PackerClean v1Codes.nb v1Codes.acc) ∧
      (inPhase .enc).phase = .enc ∧ (inPhase .enc).ctValid 256 = false ∧ v1Table.phase ∉ [.codes, .enc] :=
  ⟨⟨test_v1Codes_consistent, rfl, by decide, test_clean_zero⟩, rfl, by decide, by decide⟩

theorem test_witness_EncodePassWritesThePayload :
    Consistent v1Codes ∧ v1Codes.phase = .codes ∧
      ∀ b ∈ ([0x61, 0x61, 0x62] : List Byte), v1Codes.ctValid b.toNat = true :=
  ⟨test_v1Codes_consistent, rfl, by decide⟩

/-- DEC_BIT from T1: 0 leads to a literal leaf, 1 to an internal node, and 1 again to the sentinel. -/
theorem test_witness_DecBitWalksOneStep :
    v1Tree.phase = .tree ∧ symAt v1Nodes (nodeAt v1Nodes 4).one = 257 ∧
      symAt v1Nodes (nodeAt v1Nodes 3).one = 256 ∧ symAt v1Nodes (nodeAt v1Nodes 4).zero ≠ 257 ∧
      symAt v1Nodes (nodeAt v1Nodes 4).zero ≠ 256 ∧ v1Codes.phase ∉ [.tree, .dec, .decDone] := by decide

/-- DEC_BYTE from T1: 0x4A ends on a code boundary, 0x2C reaches the sentinel. -/
theorem test_witness_DecByteWalksItsBits :
    v1Tree.phase = .tree ∧ (decodeBits v1Nodes 4 4 (byteBits 0x4A)).2 = some 4 ∧
      (decodeBits v1Nodes 4 4 (byteBits 0x2C)).2 = none ∧ v1Codes.phase ∉ [.tree, .dec, .decDone] := by
  decide +kernel

theorem test_witness_DecDoneIgnoresInput :
    { v1Table with phase := .decDone }.phase = Phase.decDone ∧ Consistent { v1Table with phase := .decDone } :=
  ⟨rfl, test_decDone_consistent⟩

theorem test_witness_DecEndReportsTheEnd :
    (inPhase .decDone).phase = .decDone ∧ v1Tree.phase = .tree ∧ (inPhase .hdr).phase = .hdr ∧
      v1Codes.phase ∉ [.decDone, .tree, .dec, .hdr, .fault] ∧ faultState.phase = .fault := by decide

theorem test_witness_CodesDecodeToTheirSymbol :
    Consistent v1Tree ∧ v1Tree.phase = .tree ∧ v1Tree.cur = v1Tree.root ∧
      LeafPath v1Tree.node v1Tree.root 0x62 [true, false] ∧
      LeafPath v1Tree.node v1Tree.root 256 [true, true] :=
  ⟨test_v1Tree_consistent, rfl, rfl, test_v1_paths.2⟩

/-- Counted "aab", encoded "bba" (vector N13). -/
theorem test_witness_DecompressInvertsCompress :
    (∀ b ∈ ([0x62, 0x62, 0x61] : List Byte), b ∈ ([0x61, 0x61, 0x62] : List Byte)) ∧
      ∀ b : Byte, ([0x61, 0x61, 0x62] : List Byte).count b ≤ 2 ^ 32 - 1 :=
  ⟨by decide, fun _ => Nat.le_trans List.count_le_length (by decide)⟩

/-- DECOMPRESS (R194, X2): no bytes, a cut header, N = 0, a whole header with no payload, and vector P3. -/
theorem test_decompress_ends :
    look statusOf (decompress 0 [] faultState) = some (some 0xF6) ∧
    look statusOf (decompress 0 [0x00] faultState) = some (some 0xF4) ∧
    look statusOf (decompress 0 [0x00, 0x00] faultState) = some (some 0xF4) ∧
    look statusOf (decompress 0 [0x00, 0x01, 0x01, 0x00, 0x00, 0x00, 0x00, 0x01] faultState) =
      some (some 0xF2) ∧
    look statusOf (decompress 0 [0x00, 0x01, 0x01, 0x00, 0x00, 0x00, 0x00, 0x01, 0x00] faultState) =
      some (some 0x90) := by decide +kernel

/-- COMPRESS of the empty source (R193): vector P3. -/
theorem test_compress_empty :
    look (fun t => (t.phase, t.out)) (compress [] faultState) =
      some (.encDone, [0x00, 0x01, 0x01, 0x00, 0x00, 0x00, 0x00, 0x01, 0x00]) := by decide +kernel

/-- A source that meets each clause of the statement. -/
theorem test_witness_CompressEndsWithTheContainer :
    (∀ b : Byte, ([] : List Byte).count b ≤ 2 ^ 32 - 1) ∧
      ∃ b : Byte, 2 ^ 32 - 1 < (List.replicate (2 ^ 32) (0x61 : Byte)).count b :=
  ⟨fun _ => Nat.zero_le _, 0x61, by rw [List.count_replicate_self]; decide⟩

/-- Beginnings of a container that meet each clause of the statement: one byte, N = 0, a whole header. -/
theorem test_witness_DecompressEndsAsStated :
    look State.phase (runAll (.clear :: ([0x00] : List Byte).map .hdrByte) faultState) = some .hdr ∧
    look State.err (runAll (.clear :: ([0x00, 0x00] : List Byte).map .hdrByte) faultState) =
      some .corruptHeader ∧
    look State.phase (runAll (.clear ::
      ([0x00, 0x01, 0x01, 0x00, 0x00, 0x00, 0x00, 0x01] : List Byte).map .hdrByte) faultState) =
      some .table := by decide +kernel

theorem test_witness_HdrEmitAppendsTheHeader :
    Consistent v1Table ∧ v1Table.phase ∈ [.table, .tree, .codes] ∧
      (inPhase .enc).phase ∉ [.table, .tree, .codes] ∧ (inPhase .enc).phase ≠ .fault :=
  ⟨test_v1Table_consistent, by decide, by decide, by decide⟩

/-- HDR_BYTE, the two bytes of N: N = 0 and N = 258 are rejected, N = 257 is accepted (H11, H12, H13). -/
theorem test_witness_HdrByteReceivesOneByte_count :
    State.reset.hpos.toNat = 0 ∧ (afterHighN 0).hpos.toNat = 1 ∧
      (afterHighN 0).hn ||| (0x00#8).setWidth 16 = 0 ∧
      257 < ((afterHighN 0x100).hn ||| (0x02#8).setWidth 16).toNat ∧
      (afterHighN 0x100).hn ||| (0x01#8).setWidth 16 ≠ 0 ∧
      ((afterHighN 0x100).hn ||| (0x01#8).setWidth 16).toNat ≤ 257 := by decide

/-- HDR_BYTE, the second byte of a symbol: 257 is out of range (H14), 0x61 does not follow 0x62 (H15), the
last symbol is not the sentinel (H17), and the sentinel is accepted as the last one (H5). -/
theorem test_witness_HdrByteReceivesOneByte_symbol :
    let p3 := inHeader 3 2 0x100 0 0 []
    let p9 := inHeader 9 3 0 1 0x62 [(0x62, 1)]
    let q3 := inHeader 3 1 0 0 0 []
    let p15 := inHeader 15 3 0x100 1 0x62 [(0x61, 2), (0x62, 1)]
    p3.phase = .hdr ∧ (p3.hpos.toNat - 2) % 6 = 1 ∧ 256 < (p3.hsym ||| (0x01#8).setWidth 16).toNat ∧
      0 < (p9.hpos.toNat - 2) / 6 ∧ (p9.hsym ||| (0x61#8).setWidth 16).toNat ≤ p9.hprev.toNat ∧
      (q3.hpos.toNat - 2) / 6 + 1 = q3.hn.toNat ∧ (q3.hsym ||| (0x61#8).setWidth 16).toNat ≠ 256 ∧
      (p15.hpos.toNat - 2) % 6 = 1 ∧ (p15.hsym ||| (0x00#8).setWidth 16).toNat ≤ 256 ∧
      p15.hprev.toNat < (p15.hsym ||| (0x00#8).setWidth 16).toNat ∧
      (p15.hpos.toNat - 2) / 6 + 1 = p15.hn.toNat ∧
      (p15.hsym ||| (0x00#8).setWidth 16).toNat = 256 := by decide

/-- HDR_BYTE, the other bytes of an entry: the first of a symbol, the first three of a count, and the last of a
count, 0 (H19) or not, the entry being the last or not. -/
theorem test_witness_HdrByteReceivesOneByte_entry :
    ((inHeader 2 1 0 0 0 []).hpos.toNat - 2) % 6 = 0 ∧
      ((inHeader 4 1 256 0 0 []).hpos.toNat - 2) % 6 ∈ [2, 3, 4] ∧
      ((inHeader 6 1 256 0 0 []).hpos.toNat - 2) % 6 ∈ [2, 3, 4] ∧
      ((inHeader 7 1 256 0 0 []).hpos.toNat - 2) % 6 = 5 ∧
      ((0#32 : BitVec 32) <<< 8) ||| (0x00#8).setWidth 32 = 0 ∧
      ((0#32 : BitVec 32) <<< 8) ||| (0x01#8).setWidth 32 ≠ 0 ∧
      (inHeader 7 1 256 0 0 []).hsym.toNat ≤ 256 ∧
      ((inHeader 7 1 256 0 0 []).hpos.toNat - 2) / 6 + 1 = (inHeader 7 1 256 0 0 []).hn.toNat ∧
      ((inHeader 7 2 0x61 0 0 []).hpos.toNat - 2) / 6 + 1 ≠ (inHeader 7 2 0x61 0 0 []).hn.toNat ∧
      v1Table.phase ∉ [.idle, .hdr] := by decide

/-- Vector V1's table for the first half, the header of V2 (H6) for the second. -/
theorem test_witness_HeaderRoundTrips :
    (Consistent v1Table ∧ v1Table.phase ∈ finalTable ∧ Consistent idleState ∧ idleState.phase = .idle) ∧
      ∃ u, runAll (([0x00, 0x01, 0x01, 0x00, 0x00, 0x00, 0x00, 0x01] : List Byte).map .hdrByte) idleState =
        .next u ∧ u.phase = .table := by
  refine ⟨⟨test_v1Table_consistent, by decide, test_idle_consistent, rfl⟩, ?_⟩
  obtain ⟨u, h, hp⟩ := next_of (p := fun u => u.phase == .table)
    (r := runAll (([0x00, 0x01, 0x01, 0x00, 0x00, 0x00, 0x00, 0x01] : List Byte).map .hdrByte) idleState)
    (by decide +kernel)
  exact ⟨u, h, by simpa using hp⟩

theorem test_witness_PhaseTableGovernsCommands :
    Consistent v1Codes ∧ v1Codes.phase ≠ .fault ∧ v1Codes.phase ∈ legalPhases .encEnd ∧
      v1Codes.phase ∉ legalPhases .decEnd :=
  ⟨test_v1Codes_consistent, by decide, by decide, by decide⟩

theorem test_witness_PhaseTableGovernsCommands_fault :
    Consistent faultState ∧ faultState.phase = .fault ∧ ¬ AlwaysLegal .encEnd :=
  ⟨test_fault_consistent, rfl, by simp [AlwaysLegal]⟩

theorem test_witness_FaultPhaseIgnoresCommands :
    faultState.phase = .fault ∧ ¬ AlwaysLegal .decEnd ∧ decode 0x4008#16 = .error .operandOfFormatR :=
  ⟨rfl, by simp [AlwaysLegal], by decide⟩

theorem test_witness_FaultEntryIsPrecise :
    v1Tree.phase ≠ .fault ∧ (∃ t, exec .decEnd v1Tree = .next t ∧ t.phase = .fault) ∧
      ∃ t, exec (.hdrByte 0x00) (afterHighN 0) = .next t ∧ t.phase = .fault := by
  obtain ⟨t, h, hp⟩ := next_of (p := fun t => t.phase == .fault) (r := exec .decEnd v1Tree) (by decide +kernel)
  obtain ⟨u, h', hp'⟩ := next_of (p := fun t => t.phase == .fault) (r := exec (.hdrByte 0x00) (afterHighN 0))
    (by decide +kernel)
  exact ⟨by decide, ⟨t, h, by simpa using hp⟩, u, h', by simpa using hp'⟩

/-- Also for CommandsSeeNoLaterCommand, StateHasItsWriters, TablesAreImmutable and OutIsAppendOnly: a command
other than CLEAR that completes, here in FAULT and before it. -/
theorem test_witness_OnlyClearOrResetLeavesFault :
    faultState.phase = .fault ∧ (∃ t, step (faultState.withFetchWord 16 0x0400) = .next t) ∧
      (Instr.encEnd ≠ .clear ∧ ∃ t, exec .encEnd v1Codes = .next t) ∧
      (∃ t, exec .encEnd faultState = .next t) ∧ v1Codes.phase ∈ finalTable ∧ v1Codes.phase ≠ .tree := by
  obtain ⟨t, h, -⟩ := next_of (p := fun _ => true) (r := step (faultState.withFetchWord 16 0x0400))
    (by decide +kernel)
  obtain ⟨u, h', -⟩ := next_of (p := fun _ => true) (r := exec .encEnd v1Codes) (by decide +kernel)
  obtain ⟨v, h'', -⟩ := next_of (p := fun _ => true) (r := exec .encEnd faultState) (by decide +kernel)
  exact ⟨rfl, ⟨t, h⟩, ⟨by decide, u, h'⟩, ⟨v, h''⟩, by decide, by decide⟩

/-- Also for EveryStepKeepsConsistency. -/
theorem test_witness_ResponseReportsTheState :
    Consistent idleState ∧ idleState.host = [HostMove.word 0x0C00#16] ∧ ∃ t, step idleState = .next t := by
  obtain ⟨t, h, -⟩ := next_of (p := fun _ => true) (r := step idleState) (by decide +kernel)
  exact ⟨test_idle_consistent, rfl, t, h⟩

theorem test_witness_EveryStepCompletes : Consistent v1Tree := test_v1Tree_consistent

theorem test_witness_MemoriesStayCanonical :
    Memory.wf 257 v1Codes.ft ∧ Memory.wf 257 v1Codes.ct ∧ v1Codes.node.length ≤ 513 ∧
      ∃ t, step (v1Codes.withFetchWord 16 0x2000) = .next t := by
  obtain ⟨t, h, -⟩ := next_of (p := fun _ => true) (r := step (v1Codes.withFetchWord 16 0x2000))
    (by decide +kernel)
  exact ⟨by decide, by decide, by decide, t, h⟩

end Sys2Proof.Tests
end

section
/-! The values after reset and after CLEAR (spec/10_state.md rule R34). -/

namespace Sys2Proof.Machine

/-- CLEAR runs in every phase (R188). -/
theorem exec_clear (s : State) : exec .clear s = .next (s.cleared.respond 0) := rfl

/-- The two ways to a reset state leave nothing of their own but the response and the host's moves. -/
theorem eq_reset_of_reset_or_clear {t : State} (h : t = State.reset ∨ ∃ s, exec .clear s = .next t) :
    ∃ resp host, t = { State.reset with resp := resp, host := host } := by
  rcases h with rfl | ⟨s, hs⟩
  · exact ⟨_, _, rfl⟩
  · rw [exec_clear] at hs
    injection hs with ht
    exact ⟨_, _, ht.symm⟩

/-- Settles O10: the state is the reset state up to the response and the host's moves, and the table of R34
names neither. -/
theorem resetAndClearValues : Obligations.ResetAndClearValues := by
  intro t h
  obtain ⟨resp, host, rfl⟩ := eq_reset_of_reset_or_clear h
  simp [State.reset, State.ftPresent, State.ctValid, Config.nil]

end Sys2Proof.Machine
end

section
/-! The encoding of commands (spec/30_encoding.md rules R80 to R90): a decoded word is the encoding of its
command, the match and mask of a row select its opcode and the must-be-zero bits of its format, and the illegal
words raise. -/

namespace Sys2Proof

open Sys2Proof.Machine Sys2Proof.Safety Sys2Proof.Laws

/-! ## A decoded word is the encoding of its command -/

variable {op : BitVec 6} {arg : BitVec 10} {n : Nat} {i : Instr}

theorem encode_of_decodeN {j : Instr} (hop : op.toNat = n) (hj : encode j = encodeN (BitVec.ofNat 6 n))
    (h : decodeN arg j = .ok i) : encode i = op ++ arg := by
  subst hop
  simp only [decodeN, ite_eq_iff, Except.ok.injEq, reduceCtorEq, and_false, or_false] at h
  obtain ⟨harg, rfl⟩ := h
  rw [hj, encodeN, harg, BitVec.ofNat_toNat, BitVec.setWidth_eq]

theorem encode_of_decodeB {c : Byte → Instr} (hop : op.toNat = n)
    (hc : ∀ b, encode (c b) = encodeB (BitVec.ofNat 6 n) b) (h : decodeB arg c = .ok i) :
    encode i = op ++ arg := by
  subst hop
  simp only [decodeB, ite_eq_iff, Except.ok.injEq, reduceCtorEq, and_false, or_false] at h
  obtain ⟨harg, rfl⟩ := h
  rw [hc, encodeB, argB_of_zero arg harg, BitVec.ofNat_toNat, BitVec.setWidth_eq]

theorem encode_of_decodeT {c : BitVec 1 → Instr} (hop : op.toNat = n)
    (hc : ∀ t, encode (c t) = encodeT (BitVec.ofNat 6 n) t) (h : decodeT arg c = .ok i) :
    encode i = op ++ arg := by
  subst hop
  simp only [decodeT, ite_eq_iff, Except.ok.injEq, reduceCtorEq, and_false, or_false] at h
  obtain ⟨harg, rfl⟩ := h
  rw [hc, encodeT, argT_of_zero arg harg, BitVec.ofNat_toNat, BitVec.setWidth_eq]

theorem encode_of_decodeX {c : BitVec 10 → Instr} (hop : op.toNat = n)
    (hc : ∀ x, encode (c x) = encodeX (BitVec.ofNat 6 n) x) (h : decodeX arg c = .ok i) :
    encode i = op ++ arg := by
  subst hop
  injection h with h
  rw [← h, hc, encodeX, BitVec.ofNat_toNat, BitVec.setWidth_eq]

theorem encode_of_decodeR {c : BitVec 3 → Instr} (hop : op.toNat = n)
    (hc : ∀ r, encode (c r) = encodeR (BitVec.ofNat 6 n) r) (h : decodeR arg c = .ok i) :
    encode i = op ++ arg := by
  subst hop
  simp only [decodeR, ite_eq_iff, Except.ok.injEq, reduceCtorEq, and_false, or_false] at h
  obtain ⟨harg, rfl⟩ := h
  rw [hc, encodeR, argR_of_zero arg harg, BitVec.ofNat_toNat, BitVec.setWidth_eq]

theorem encode_of_decodeFields (h : decodeFields op arg = .ok i) : encode i = op ++ arg := by
  unfold decodeFields at h
  split at h <;> rename_i hop
  · exact encode_of_decodeN hop rfl h
  · exact encode_of_decodeN hop rfl h
  · exact encode_of_decodeB hop (fun _ => rfl) h
  · exact encode_of_decodeN hop rfl h
  · exact encode_of_decodeN hop rfl h
  · exact encode_of_decodeN hop rfl h
  · exact encode_of_decodeN hop rfl h
  · exact encode_of_decodeB hop (fun _ => rfl) h
  · exact encode_of_decodeN hop rfl h
  · exact encode_of_decodeB hop (fun _ => rfl) h
  · exact encode_of_decodeT hop (fun _ => rfl) h
  · exact encode_of_decodeB hop (fun _ => rfl) h
  · exact encode_of_decodeN hop rfl h
  · exact encode_of_decodeR hop (fun _ => rfl) h
  · exact encode_of_decodeX hop (fun _ => rfl) h
  · exact encode_of_decodeX hop (fun _ => rfl) h
  · exact encode_of_decodeX hop (fun _ => rfl) h
  · cases h

theorem encode_of_decode {w : CmdWord} (h : decode w = .ok i) : encode i = w := by
  rw [encode_of_decodeFields h, word_of_fields]

/-! ## Operands as numbers (R86) -/

theorem toNat_encodeB_mod (op : BitVec 6) (b : Byte) : (encodeB op b).toNat % 2 ^ 8 = b.toNat := by
  have := b.isLt
  simp only [encodeB, toNat_concat]
  omega

theorem toNat_encodeT_mod (op : BitVec 6) (t : BitVec 1) : (encodeT op t).toNat % 2 = t.toNat := by
  have := t.isLt
  simp only [encodeT, toNat_concat]
  omega

theorem toNat_encodeX_mod (op : BitVec 6) (x : BitVec 10) : (encodeX op x).toNat % 2 ^ 10 = x.toNat := by
  have := x.isLt
  simp only [encodeX, toNat_concat]
  omega

theorem toNat_encodeR_mod (op : BitVec 6) (r : BitVec 3) : (encodeR op r).toNat % 2 ^ 3 = r.toNat := by
  have := r.isLt
  simp only [encodeR, toNat_concat]
  omega

theorem symbolOfByte_eq_toNat (b : Byte) : symbolOfByte b = b.toNat :=
  BitVec.toNat_setWidth_of_le (by decide)

/-- A byte as a symbol is below EOF and NAS (R86). -/
theorem symbolOfByte_lt_eof (b : Byte) : symbolOfByte b < Config.eof :=
  symbolOfByte_eq_toNat b ▸ b.isLt

/-- Settles O3: the word is the encoding of the command it decodes to, and each format puts its operand at the
low end of the word. -/
theorem operandsAreSlicesOfTheWord : Obligations.OperandsAreSlicesOfTheWord := by
  intro w
  refine ⟨fun b h => ?_, fun t h => ?_, fun r h => ?_, fun x h => ?_⟩
  · have hw : ∃ op, encodeB op b = w := by
      rcases h with h | h | h | h <;> exact ⟨_, encode_of_decode h⟩
    obtain ⟨op, rfl⟩ := hw
    have hlt := symbolOfByte_lt_eof b
    exact ⟨(toNat_encodeB_mod op b).symm, symbolOfByte_eq_toNat b, hlt.ne,
      (hlt.trans (by decide : Config.eof < Config.nas.toNat)).ne⟩
  · exact encode_of_decode h ▸ (toNat_encodeT_mod _ t).symm
  · exact encode_of_decode h ▸ (toNat_encodeR_mod _ r).symm
  · have hw : ∃ op, encodeX op x = w := by
      rcases h with h | h | h <;> exact ⟨_, encode_of_decode h⟩
    obtain ⟨op, rfl⟩ := hw
    exact (toNat_encodeX_mod op x).symm

/-! ## The rows of the table (R87) -/

/-- The must-be-zero bits of a format, as a mask of arg (R81 to R85). -/
def Format.argMask : Format → BitVec 10
  | .n => 0x3FF
  | .b => 0x300
  | .t => 0x3FE
  | .x => 0
  | .r => 0x3F8

theorem argOk_iff_and_argMask (f : Format) (arg : BitVec 10) :
    f.argOk arg = true ↔ arg &&& f.argMask = 0#10 := by
  revert arg
  cases f <;> decide +kernel

/-- A row's match is its op, and its mask is the whole of op and the must-be-zero bits of its format (R87). -/
theorem pattern_and_mask_of_row : ∀ row ∈ opcodeTable,
    row.pattern = row.op ++ 0#10 ∧ row.mask = BitVec.allOnes 6 ++ row.format.argMask := by
  decide +kernel

/-- A row is known by its mnemonic (R87). -/
theorem row_eq_of_mnemonic_eq : ∀ row ∈ opcodeTable, ∀ row' ∈ opcodeTable,
    row.mnemonic = row'.mnemonic → row = row' := by
  decide +kernel

theorem fields_match_row_iff {row : OpcodeRow} (hrow : row ∈ opcodeTable) (op : BitVec 6) (arg : BitVec 10) :
    (op ++ arg : CmdWord) &&& row.mask = row.pattern ↔ op = row.op ∧ row.format.argOk arg = true := by
  obtain ⟨hpattern, hmask⟩ := pattern_and_mask_of_row row hrow
  rw [hpattern, hmask, BitVec.and_append, BitVec.and_allOnes, argOk_iff_and_argMask]
  constructor
  · intro h
    have hop := congrArg (BitVec.extractLsb' 10 6) h
    have harg := congrArg (BitVec.extractLsb' 0 10) h
    rw [op_of_fields, op_of_fields] at hop
    rw [arg_of_fields, arg_of_fields] at harg
    exact ⟨hop, harg⟩
  · rintro ⟨rfl, h⟩
    rw [h]

/-- A word matches a row exactly when its op is the row's and its arg obeys the row's format. -/
theorem word_matches_row_iff {row : OpcodeRow} (hrow : row ∈ opcodeTable) (w : CmdWord) :
    w &&& row.mask = row.pattern ↔
      w.extractLsb' 10 6 = row.op ∧ row.format.argOk (w.extractLsb' 0 10) = true := by
  rw [← fields_match_row_iff hrow, word_of_fields]

theorem decodeN_of_argOk {j : Instr} (h : Format.n.argOk arg = true) : decodeN arg j = .ok j :=
  if_pos (eq_of_beq h)

theorem decodeB_of_argOk {c : Byte → Instr} (h : Format.b.argOk arg = true) :
    decodeB arg c = .ok (c (arg.extractLsb' 0 8)) :=
  if_pos (eq_of_beq h)

theorem decodeT_of_argOk {c : BitVec 1 → Instr} (h : Format.t.argOk arg = true) :
    decodeT arg c = .ok (c (arg.extractLsb' 0 1)) :=
  if_pos (eq_of_beq h)

theorem decodeR_of_argOk {c : BitVec 3 → Instr} (h : Format.r.argOk arg = true) :
    decodeR arg c = .ok (c (arg.extractLsb' 0 3)) :=
  if_pos (eq_of_beq h)

/-- A row's op with an arg that obeys the row's format decodes to a command with the row's mnemonic (R87). -/
theorem decodeFields_of_row {row : OpcodeRow} (hrow : row ∈ opcodeTable)
    (h : row.format.argOk arg = true) :
    ∃ i, decodeFields row.op arg = .ok i ∧ i.mnemonic = row.mnemonic := by
  simp only [opcodeTable, List.mem_cons, List.not_mem_nil, or_false] at hrow
  rcases hrow with rfl | rfl | rfl | rfl | rfl | rfl | rfl | rfl | rfl | rfl | rfl | rfl | rfl | rfl | rfl |
    rfl | rfl
  · exact ⟨.nop, decodeN_of_argOk h, rfl⟩
  · exact ⟨.clear, decodeN_of_argOk h, rfl⟩
  · exact ⟨.freqByte _, decodeB_of_argOk h, rfl⟩
  · exact ⟨.freqEnd, decodeN_of_argOk h, rfl⟩
  · exact ⟨.buildTree, decodeN_of_argOk h, rfl⟩
  · exact ⟨.buildCodes, decodeN_of_argOk h, rfl⟩
  · exact ⟨.hdrEmit, decodeN_of_argOk h, rfl⟩
  · exact ⟨.encByte _, decodeB_of_argOk h, rfl⟩
  · exact ⟨.encEnd, decodeN_of_argOk h, rfl⟩
  · exact ⟨.hdrByte _, decodeB_of_argOk h, rfl⟩
  · exact ⟨.decBit _, decodeT_of_argOk h, rfl⟩
  · exact ⟨.decByte _, decodeB_of_argOk h, rfl⟩
  · exact ⟨.decEnd, decodeN_of_argOk h, rfl⟩
  · exact ⟨.rdReg _, decodeR_of_argOk h, rfl⟩
  · exact ⟨.rdFreq arg, rfl, rfl⟩
  · exact ⟨.rdNode arg, rfl, rfl⟩
  · exact ⟨.rdCode arg, rfl, rfl⟩

/-- The word of every command matches the row with the command's mnemonic (R87). -/
theorem encode_matches_row (i : Instr) :
    ∃ row ∈ opcodeTable, row.mnemonic = i.mnemonic ∧ encode i &&& row.mask = row.pattern := by
  cases i with
  | nop => exact EncodedWord.nop.1
  | clear => exact EncodedWord.clear.1
  | freqByte b => exact (EncodedWord.freqByte b).1
  | freqEnd => exact EncodedWord.freqEnd.1
  | buildTree => exact EncodedWord.buildTree.1
  | buildCodes => exact EncodedWord.buildCodes.1
  | hdrEmit => exact EncodedWord.hdrEmit.1
  | encByte b => exact (EncodedWord.encByte b).1
  | encEnd => exact EncodedWord.encEnd.1
  | hdrByte b => exact (EncodedWord.hdrByte b).1
  | decBit t => exact (EncodedWord.decBit t).1
  | decByte b => exact (EncodedWord.decByte b).1
  | decEnd => exact EncodedWord.decEnd.1
  | rdReg r => exact (EncodedWord.rdReg r).1
  | rdFreq x => exact (EncodedWord.rdFreq x).1
  | rdNode x => exact (EncodedWord.rdNode x).1
  | rdCode x => exact (EncodedWord.rdCode x).1

/-- Settles O2: matching a row is having its op and obeying its format, which is enough to decode to its
command; and a decoded word is the encoding of its command, which matches the row of its mnemonic. -/
theorem tableRowsSelectTheirCommand : Obligations.TableRowsSelectTheirCommand := by
  intro row hrow w
  have hmatch := word_matches_row_iff hrow w
  refine ⟨⟨fun h => ?_, ?_⟩, fun h => (hmatch.1 h).1⟩
  · obtain ⟨hop, harg⟩ := hmatch.1 h
    rw [decode, hop]
    exact decodeFields_of_row hrow harg
  · rintro ⟨i, hi, hmnemonic⟩
    obtain ⟨row', hrow', hmnemonic', h⟩ := encode_matches_row i
    obtain rfl := row_eq_of_mnemonic_eq row' hrow' row hrow (hmnemonic'.trans hmnemonic)
    rwa [encode_of_decode hi] at h

/-! ## The illegal words (R88) -/

/-- The illegal encodings by the numbers of their two fields: a reserved op, or a must-be-zero bit that is not
0 in a word of Format N, B, T or R (R88). -/
def IllegalFields (op arg : Nat) : Prop :=
  (0x0D ≤ op ∧ op ≤ 0x0F) ∨ 0x14 ≤ op ∨
    (op ∈ [0x00, 0x01, 0x03, 0x04, 0x05, 0x06, 0x08, 0x0C] ∧ arg ≠ 0) ∨
    (op ∈ [0x02, 0x07, 0x09, 0x0B] ∧ arg / 2 ^ 8 ≠ 0) ∨
    (op = 0x0A ∧ arg / 2 ≠ 0) ∨ (op = 0x10 ∧ arg / 2 ^ 3 ≠ 0)

theorem exists_error_of_ite_iff {ε α : Type} {p : Prop} [Decidable p] {a : α} {e : ε} :
    (∃ e', (if p then .ok a else .error e : Except ε α) = .error e') ↔ ¬ p := by
  split <;> simp [*]

theorem high_bits_eq_zero_iff (arg : BitVec 10) {k m : Nat} (h : m + k = 10) :
    arg.extractLsb' k m = 0#m ↔ arg.toNat / 2 ^ k = 0 := by
  have hlt : arg.toNat / 2 ^ k < 2 ^ m :=
    Nat.div_lt_of_lt_mul (by rw [← Nat.pow_add, Nat.add_comm, h]; exact arg.isLt)
  rw [← BitVec.toNat_inj, BitVec.extractLsb'_toNat, Nat.shiftRight_eq_div_pow, BitVec.toNat_zero,
    Nat.mod_eq_of_lt hlt]

theorem decodeN_error_iff {j : Instr} : (∃ e, decodeN arg j = .error e) ↔ arg.toNat ≠ 0 :=
  exists_error_of_ite_iff.trans (not_congr BitVec.toNat_inj.symm)

theorem decodeB_error_iff {c : Byte → Instr} : (∃ e, decodeB arg c = .error e) ↔ arg.toNat / 2 ^ 8 ≠ 0 :=
  exists_error_of_ite_iff.trans (not_congr (high_bits_eq_zero_iff arg rfl))

theorem decodeT_error_iff {c : BitVec 1 → Instr} : (∃ e, decodeT arg c = .error e) ↔ arg.toNat / 2 ≠ 0 :=
  exists_error_of_ite_iff.trans (not_congr (high_bits_eq_zero_iff arg rfl))

theorem decodeR_error_iff {c : BitVec 3 → Instr} :
    (∃ e, decodeR arg c = .error e) ↔ arg.toNat / 2 ^ 3 ≠ 0 :=
  exists_error_of_ite_iff.trans (not_congr (high_bits_eq_zero_iff arg rfl))

theorem decodeX_not_error {c : BitVec 10 → Instr} : ¬ ∃ e, decodeX arg c = .error e := nofun

theorem decodeFields_error_iff :
    (∃ e, decodeFields op arg = .error e) ↔ IllegalFields op.toNat arg.toNat := by
  unfold decodeFields
  split
  case h_18 =>
    have hreserved : (0x0D ≤ op.toNat ∧ op.toNat ≤ 0x0F) ∨ 0x14 ≤ op.toNat := by
      simp only [imp_false] at *
      omega
    exact iff_of_true ⟨_, rfl⟩ (hreserved.imp_right .inl)
  all_goals
    rename_i hop
    simp [IllegalFields, hop, decodeN_error_iff, decodeB_error_iff, decodeT_error_iff, decodeR_error_iff,
      decodeX_not_error]

theorem toNat_op (w : CmdWord) : (w.extractLsb' 10 6).toNat = w.toNat / 2 ^ 10 := by
  have := w.isLt
  rw [BitVec.extractLsb'_toNat, Nat.shiftRight_eq_div_pow]
  omega

theorem toNat_arg (w : CmdWord) : (w.extractLsb' 0 10).toNat = w.toNat % 2 ^ 10 := by
  rw [BitVec.extractLsb'_toNat, Nat.shiftRight_zero]

/-- The decoder refuses exactly the words of R88's list. -/
theorem decode_error_iff (w : CmdWord) :
    (∃ e, decode w = .error e) ↔ IllegalFields (w.toNat / 2 ^ 10) (w.toNat % 2 ^ 10) := by
  rw [decode, decodeFields_error_iff, toNat_op, toNat_arg]

end Sys2Proof

namespace Sys2Proof.Machine

open Sys2Proof.Safety

/-! ## One command word of the host (R88 to R90) -/

theorem step_of_legal_word {s : State} {w : CmdWord} {rest : List HostMove} {i : Instr}
    (hs : s.host = .word w :: rest) (hw : decode w = .ok i) : step s = exec i { s with host := rest } := by
  simp only [step, hs, hw]

theorem step_of_illegal_word {s : State} {w : CmdWord} {rest : List HostMove} {e : IllegalWord}
    (hs : s.host = .word w :: rest) (hw : decode w = .error e) :
    step s = illegalWord { s with host := rest } := by
  simp only [step, hs, hw]

/-- A raise from a phase other than FAULT, written out field by field (R201). -/
theorem fail_eq_faulted {s : State} (e : Err) (h : s.phase ≠ .fault) : fail e s = .next (faulted e s) :=
  fail_of_not_fault e h

theorem illegalWord_of_not_fault {s : State} (h : s.phase ≠ .fault) :
    illegalWord s = .next (faulted .illegalCommand s) := by
  rw [illegalWord, if_neg h, fail_eq_faulted _ h]

/-- Settles O4: the decoder refuses by op and by the must-be-zero bits of each format, and the step on a word it
refuses is a raise from the state as it stands. -/
theorem illegalEncodingsRaise : Obligations.IllegalEncodingsRaise := by
  refine ⟨decode_error_iff, fun s w rest e hs hw hf => ?_⟩
  exact (step_of_illegal_word hs hw).trans (illegalWord_of_not_fault hf)

/-- Every command ends with a response, whose data is 0 but for a read (R90). -/
theorem Effect.responds {i : Instr} {s t : State} (h : Effect i s t) :
    ∃ data u, t = State.respond data u ∧ (¬ IsRead i → data = 0) := by
  cases h with
  | same data h hd => exact ⟨data, s, h, hd⟩
  | clear _ h | raise _ _ _ h | insert _ _ _ _ _ h | add _ _ _ _ _ _ _ h | tree _ _ _ _ h
  | codes _ _ _ _ h | emit _ _ h | encode _ _ _ _ _ h | encodeEnd _ _ _ _ h | header _ _ _ _ _ _ _ h
  | headerRaise _ _ _ _ _ _ _ h | headerStore _ _ _ _ _ _ _ _ h | walk _ _ _ h =>
    exact ⟨0, _, h, fun _ => rfl⟩

/-- An illegal word ends with a response with data 0 (R88, R90). -/
theorem illegalWord_responds {s t : State} (h : illegalWord s = .next t) : ∃ u, t = State.respond 0 u := by
  unfold illegalWord at h
  split at h <;> injection h with h <;> exact ⟨_, h.symm⟩

/-- Settles O48: a step on a command word runs the command, whose every effect ends with a response, or raises;
and a response holds PHASE and ERR of the state it leaves. -/
theorem responseReportsTheState : Obligations.ResponseReportsTheState := by
  intro s t w rest hs ht
  cases hw : decode w with
  | ok i =>
    rw [step_of_legal_word hs hw] at ht
    obtain ⟨data, u, rfl, hdata⟩ := (exec_effect ht).responds
    exact ⟨data, rfl, fun hread => hdata fun hi => hread ⟨i, rfl, hi⟩⟩
  | error e =>
    rw [step_of_illegal_word hs hw] at ht
    obtain ⟨u, rfl⟩ := illegalWord_responds ht
    exact ⟨0, rfl, fun _ => rfl⟩

end Sys2Proof.Machine
end

section
/-! Commands by their gate and their format (spec/30_encoding.md rules R82, R87, R89): what holds of every command
that is legal in a list of phases, and of every command with a byte operand. -/

namespace Sys2Proof.Machine

open Sys2Proof.Safety

/-- A command legal in the listed phases only raises IllegalCommand in the others (R185). -/
theorem illegalOutside_of_gateOf {i : Instr} {legal : List Phase} (h : ∀ p, gateOf i p = p.legalIn legal) :
    IllegalOutside i legal := by
  intro s hs hf
  have hg : gateOf i s.phase = .raises .illegalCommand := (h _).trans (Phase.legalIn_eq_raises hs hf)
  rw [Raises, exec_eq_command, command_of_raises hg, fail_eq_faulted _ hf]

/-- A command legal in the listed phases only has no effect in FAULT (R187). -/
theorem silentInFault_of_gateOf {i : Instr} {legal : List Phase} (h : ∀ p, gateOf i p = p.legalIn legal) :
    SilentInFault i := by
  intro s hs
  have hg : gateOf i s.phase = .noEffect := by rw [hs, h, Phase.legalIn_fault]
  rw [NoEffect, exec_eq_command, command_of_noEffect hg]
  rfl

/-- A Format B word is the pattern of its opcode with the byte in its low bits (R82, R87). -/
theorem encodeB_eq_pattern_or (op : BitVec 6) (b : Byte) :
    encodeB op b = (op ++ 0#10 : CmdWord) ||| b.setWidth 16 := by
  apply BitVec.eq_of_getLsbD_eq
  intro k hk
  rw [encodeB, BitVec.getLsbD_append, BitVec.getLsbD_append, BitVec.getLsbD_or, BitVec.getLsbD_append,
    BitVec.getLsbD_setWidth]
  by_cases h8 : k < 8
  · have h10 : k < 10 := by omega
    simp [h8, h10, hk]
  · have hb : b.getLsbD k = false := BitVec.getLsbD_of_ge b k (by omega)
    simp [h8, hb]

/-- The word of a command with a byte operand, both ways. -/
theorem hasWord_of_formatB {op : BitVec 6} {c : Byte → Instr} (henc : ∀ b, encode (c b) = encodeB op b)
    (hdec : ∀ arg, decodeFields op arg = decodeB arg c) (b : Byte) :
    HasWord (c b) ((op ++ 0#10 : CmdWord) ||| b.setWidth 16) := by
  rw [HasWord, ← encodeB_eq_pattern_or]
  exact ⟨henc b, by rw [encodeB, decode_of_fields, hdec, decodeB_of_byte]⟩

end Sys2Proof.Machine
end

section
/-! The frequency counter (spec/40_frequency.md rules R100 to R103): one count, a whole counting pass, and the
table the pass leaves. -/

namespace Sys2Proof.Machine

open Sys2Proof.Safety

variable {i : Instr} {x : Nat} {p : Phase} {s : State} {c : Count}

/-! ## One count (R100, R101) -/

theorem counts_freqByte (b : Byte) : Counts (.freqByte b) b.toNat .count := .inl ⟨b, rfl, rfl, rfl⟩

theorem counts_freqEnd : Counts .freqEnd Config.eof .table := .inr ⟨rfl, rfl, rfl⟩

theorem Counts.gateOf_eq (hi : Counts i x p) (q : Phase) : gateOf i q = q.legalIn [.idle, .count] := by
  rcases hi with ⟨b, rfl, -, -⟩ | ⟨rfl, -, -⟩ <;> rfl

theorem Counts.ruleOf_eq (hi : Counts i x p) : ruleOf i = countSymbol x p := by
  rcases hi with ⟨b, rfl, rfl, rfl⟩ | ⟨rfl, rfl, rfl⟩
  · rw [ruleOf, symbolOfByte_eq_toNat]
  · rfl

/-- A counting command counts in IDLE and COUNT. -/
theorem Counts.exec_eq (hi : Counts i x p) (hs : s.phase = .idle ∨ s.phase = .count) :
    exec i s = countSymbol x p s := by
  have hg : gateOf i s.phase = .run := by rcases hs with h | h <;> rw [h, hi.gateOf_eq] <;> rfl
  rw [exec_eq_command, command_of_run hg, hi.ruleOf_eq]

theorem countSymbol_of_absent (h : Memory.read s.ft x = none) : countSymbol x p s =
    .next (responded 0 { s with ft := Memory.write s.ft x 1, ftN := s.ftN + 1, phase := p }) := by
  rw [countSymbol, h]; rfl

theorem countSymbol_of_present (h : Memory.read s.ft x = some c) (hc : c ≠ Config.countMax) :
    countSymbol x p s = .next (responded 0 { s with ft := Memory.write s.ft x (c + 1), phase := p }) := by
  simp only [countSymbol, h, if_neg hc]; rfl

theorem countSymbol_of_max (h : Memory.read s.ft x = some Config.countMax) :
    countSymbol x p s = fail .countOverflow s := by
  simp only [countSymbol, h, if_true]

/-- A counting command in a legal phase writes the entry of its symbol and no other. -/
theorem Counts.countsSymbol (hi : Counts i x p) (hs : s.phase = .idle ∨ s.phase = .count) :
    CountsSymbol i x p s := by
  have hf : s.phase ≠ .fault := by rcases hs with h | h <;> simp [h]
  have he := hi.exec_eq hs
  refine ⟨fun h => ?_, fun c h hc => ?_, fun h => ?_⟩
  · exact ⟨_, he.trans (countSymbol_of_absent h), Memory.read_write_same .., fun _ => Memory.read_write_other _ _⟩
  · exact ⟨_, he.trans (countSymbol_of_present h hc), Memory.read_write_same ..,
      fun _ => Memory.read_write_other _ _⟩
  · exact (he.trans (countSymbol_of_max h)).trans (fail_eq_faulted _ hf)

/-- Settles O17: by the entry FREQ_BYTE finds at its byte. -/
theorem freqByteCountsItsByte : Obligations.FreqByteCountsItsByte := by
  intro b
  have hi := counts_freqByte b
  exact ⟨hasWord_of_formatB (op := 0x02) (fun _ => rfl) (fun _ => rfl) b, fun s => hi.countsSymbol,
    illegalOutside_of_gateOf hi.gateOf_eq, silentInFault_of_gateOf hi.gateOf_eq⟩

/-- In IDLE the table is empty (R34). -/
theorem ft_of_idle (hc : Consistent s) (hs : s.phase = .idle) : s.ft = [] ∧ s.ftN = 0 := by
  rw [hc.idleIsReset hs]; exact ⟨rfl, rfl⟩

/-- Before FREQ_END the sentinel is absent. -/
theorem sentinel_absent (hc : Consistent s) (hs : s.phase = .idle ∨ s.phase = .count) :
    Memory.read s.ft Config.eof = none := by
  rcases hs with hs | hs
  · rw [(ft_of_idle hc hs).1, Memory.read_nil]
  · exact hc.ftCounting hs

/-- Settles O18: FREQ_END is a count of the sentinel, which no consistent state of IDLE and COUNT holds. -/
theorem freqEndAddsTheSentinel : Obligations.FreqEndAddsTheSentinel :=
  ⟨⟨by decide, by decide⟩, fun _ hs => ⟨counts_freqEnd.countsSymbol hs, fun hc => sentinel_absent hc hs⟩,
    illegalOutside_of_gateOf counts_freqEnd.gateOf_eq, silentInFault_of_gateOf counts_freqEnd.gateOf_eq⟩

/-! ## The table that tallies a sequence of symbols (R102) -/

/-- The table holds each symbol of the sequence with its number of occurrences, and no other. -/
structure Tallies (L : List Nat) (ft : List (Nat × Count)) : Prop where
  /-- The table is in canonical form (R50). -/
  form : Memory.wf Config.nsym ft
  /-- An entry's count, as a number, is exact: no count has wrapped. -/
  counts : ∀ x, (Memory.read ft x).map BitVec.toNat = if x ∈ L then some (L.count x) else none

variable {L L' : List Nat} {ft ft' : List (Nat × Count)}

theorem tallies_nil : Tallies [] [] := ⟨Memory.wf_nil, fun _ => rfl⟩

theorem Tallies.perm (h : Tallies L ft) (hp : L.Perm L') : Tallies L' ft :=
  ⟨h.form, fun x => by rw [h.counts, hp.count_eq]; simp only [hp.mem_iff]⟩

/-- A sequence has one table. -/
theorem Tallies.unique (h : Tallies L ft) (h' : Tallies L ft') : ft = ft' :=
  Memory.eq_of_read_eq h.form h'.form fun x =>
    Option.map_injective (fun _ _ => BitVec.eq_of_toNat_eq) ((h.counts x).trans (h'.counts x).symm)

theorem Tallies.read_eq_none_iff (h : Tallies L ft) : Memory.read ft x = none ↔ x ∉ L := by
  rw [← Option.map_eq_none_iff (f := BitVec.toNat), h.counts]
  simp

theorem Tallies.toNat_of_read (h : Tallies L ft) (hr : Memory.read ft x = some c) : c.toNat = L.count x := by
  have hx := h.counts x
  rw [hr] at hx
  split at hx
  · exact Option.some.inj hx
  · cases hx

/-- The entry of each symbol, as a count. -/
theorem Tallies.read_eq (h : Tallies L ft) (x : Nat) :
    Memory.read ft x = if x ∈ L then some (BitVec.ofNat 32 (L.count x)) else none := by
  split
  · cases hr : Memory.read ft x with
    | none => exact absurd ‹_› (h.read_eq_none_iff.1 hr)
    | some c => rw [← h.toNat_of_read hr, BitVec.ofNat_toNat, BitVec.setWidth_eq]
  · exact h.read_eq_none_iff.2 ‹_›

/-- Writing the new number of occurrences of one more symbol tallies the longer sequence. -/
theorem Tallies.write (h : Tallies L ft) (hx : x < Config.nsym) (hc : c.toNat = L.count x + 1) :
    Tallies (x :: L) (Memory.write ft x c) := by
  refine ⟨Memory.wf_write h.form hx, fun y => ?_⟩
  by_cases hy : y = x
  · subst y; simp [hc]
  · rw [Memory.read_write_other _ _ hy, h.counts, List.count_cons_of_ne (Ne.symm hy)]
    simp [hy]

/-- The symbols of the table are those of the sequence, each once. -/
theorem Tallies.symbols_perm (h : Tallies L ft) : (ft.map Prod.fst).Perm L.dedup := by
  have hn : (ft.map Prod.fst).Nodup := h.form.1.imp Nat.ne_of_lt
  refine (List.perm_ext_iff_of_nodup hn L.nodup_dedup).2 fun x => ?_
  rw [List.mem_dedup, ← not_iff_not, ← Memory.read_eq_none, h.read_eq_none_iff]

theorem Tallies.length_eq (h : Tallies L ft) : ft.length = L.dedup.length := by
  simpa using h.symbols_perm.length_eq

/-- The counts of the table sum to the length of the sequence. -/
theorem Tallies.sum_eq (h : Tallies L ft) : (ft.map fun e => e.2.toNat).sum = L.length := by
  have hcount : ft.map (fun e => e.2.toNat) = (ft.map Prod.fst).map L.count := by
    rw [List.map_map]
    exact List.map_congr_left fun e he => h.toNat_of_read (Memory.read_of_mem h.form he)
  rw [hcount, (h.symbols_perm.map _).sum_eq, List.sum_map_count_dedup_eq_length]

/-! ## A counting pass (R102, R103) -/

/-- The symbols a counting pass over a source counts, up to their order. -/
def passSymbols (S : List Byte) : List Nat := Config.eof :: S.map BitVec.toNat

/-- The state counting leaves: the table, FT_N, the phase and the response are new. -/
def State.counted (ft : List (Nat × Count)) (p : Phase) (s : State) : State :=
  responded 0 { s with ft := ft, ftN := BitVec.ofNat 9 ft.length, phase := p }

/-- What counting leaves depends on no earlier count but by the table. -/
@[simp] theorem State.counted_counted (ft ft' : List (Nat × Count)) (p p' : Phase) :
    (s.counted ft p).counted ft' p' = s.counted ft' p' := rfl

@[simp] theorem State.counted_ft : (s.counted ft p).ft = ft := rfl

@[simp] theorem State.counted_ftN : (s.counted ft p).ftN = BitVec.ofNat 9 ft.length := rfl

@[simp] theorem State.counted_phase : (s.counted ft p).phase = p := rfl

theorem Counts.lt_nsym (hi : Counts i x p) : x < Config.nsym := by
  rcases hi with ⟨b, -, rfl, -⟩ | ⟨-, rfl, -⟩
  · exact Nat.lt_succ_of_lt b.isLt
  · decide

/-- One count below the largest makes the table of a sequence the table of one symbol more. -/
theorem Counts.exec_tallies (hi : Counts i x p) (hs : s.phase = .idle ∨ s.phase = .count)
    (hN : s.ftN = BitVec.ofNat 9 s.ft.length) (hT : Tallies L s.ft) (hmax : L.count x < 2 ^ 32 - 1) :
    ∃ ft, exec i s = .next (s.counted ft p) ∧ Tallies (x :: L) ft := by
  rw [hi.exec_eq hs]
  cases hr : Memory.read s.ft x with
  | none =>
    have hlen : (Memory.write s.ft x 1).length = s.ft.length + 1 := Memory.length_write_of_none hr
    refine ⟨Memory.write s.ft x 1, ?_, hT.write hi.lt_nsym ?_⟩
    · rw [countSymbol_of_absent hr, State.counted, hlen, hN, BitVec.ofNat_add]; rfl
    · rw [List.count_eq_zero_of_not_mem (hT.read_eq_none_iff.1 hr)]; rfl
  | some c =>
    have hc := hT.toNat_of_read hr
    have hne : c ≠ Config.countMax := by rintro rfl; exact absurd (hc ▸ hmax) (by decide)
    have hlen : (Memory.write s.ft x (c + 1)).length = s.ft.length := by
      simpa using congrArg List.length (Memory.fst_write_of_some (v := c + 1) hT.form (by rw [hr]; rfl))
    refine ⟨Memory.write s.ft x (c + 1), ?_, hT.write hi.lt_nsym ?_⟩
    · rw [countSymbol_of_present hr hne, State.counted, hlen, hN]
    · rw [BitVec.toNat_add, hc]
      exact Nat.mod_eq_of_lt (Nat.add_lt_of_lt_sub hmax)

/-- Counting bytes and the sentinel from the table of a sequence. -/
theorem runAll_counting (S : List Byte) (hs : s.phase = .idle ∨ s.phase = .count)
    (hN : s.ftN = BitVec.ofNat 9 s.ft.length) (hT : Tallies L s.ft)
    (hmax : ∀ x, (passSymbols S ++ L).count x ≤ 2 ^ 32 - 1) :
    ∃ ft, runAll (S.map .freqByte ++ [.freqEnd]) s = .next (s.counted ft .table) ∧
      Tallies (passSymbols S ++ L) ft := by
  induction S generalizing s L with
  | nil =>
    have hlt : L.count Config.eof < 2 ^ 32 - 1 := by simpa [passSymbols] using hmax Config.eof
    obtain ⟨ft, he, hft⟩ := counts_freqEnd.exec_tallies hs hN hT hlt
    exact ⟨ft, by simp [he], hft⟩
  | cons b S ih =>
    have hperm : (passSymbols S ++ b.toNat :: L).Perm (passSymbols (b :: S) ++ L) := List.perm_middle.cons _
    have hlt : L.count b.toNat < 2 ^ 32 - 1 := by
      have hb := hmax b.toNat
      rw [← hperm.count_eq, List.count_append, List.count_cons_self] at hb
      omega
    obtain ⟨ft, he, hft⟩ := (counts_freqByte b).exec_tallies hs hN hT hlt
    obtain ⟨ft', hrun, hft'⟩ := ih (s := s.counted ft .count) (.inr rfl) rfl hft
      fun x => hperm.count_eq x ▸ hmax x
    exact ⟨ft', by simp [he, hrun], hft'.perm hperm⟩

/-- No byte is the sentinel. -/
theorem eof_ne_toNat (b : Byte) : Config.eof ≠ b.toNat := Nat.ne_of_gt b.isLt

/-- A byte occurs among the symbols of a pass as often as in the source. -/
theorem count_passSymbols (S : List Byte) (b : Byte) :
    (passSymbols S).count b.toNat = S.count b := by
  rw [passSymbols, List.count_cons_of_ne (eof_ne_toNat b),
    List.count_map_of_injective _ _ (fun _ _ => BitVec.eq_of_toNat_eq)]

theorem eof_not_mem_bytes (S : List Byte) : Config.eof ∉ S.map BitVec.toNat := by
  simp only [List.mem_map, not_exists, not_and]
  exact fun b _ h => eof_ne_toNat b h.symm

theorem count_eof_passSymbols (S : List Byte) : (passSymbols S).count Config.eof = 1 := by
  rw [passSymbols, List.count_cons_self, List.count_eq_zero_of_not_mem (eof_not_mem_bytes S)]

theorem mem_passSymbols (S : List Byte) (b : Byte) : b.toNat ∈ passSymbols S ↔ b ∈ S := by
  rw [← List.count_pos_iff, count_passSymbols, List.count_pos_iff]

theorem count_passSymbols_le {S : List Byte} (h : ∀ b, S.count b ≤ 2 ^ 32 - 1) (x : Nat) :
    (passSymbols S).count x ≤ 2 ^ 32 - 1 := by
  by_cases hx : x ∈ passSymbols S
  · rcases List.mem_cons.1 hx with rfl | hx
    · rw [count_eof_passSymbols]; decide
    · obtain ⟨b, -, rfl⟩ := List.mem_map.1 hx
      rw [count_passSymbols]; exact h b
  · rw [List.count_eq_zero_of_not_mem hx]; exact Nat.zero_le _

theorem length_dedup_passSymbols (S : List Byte) :
    (passSymbols S).dedup.length = S.dedup.length + 1 := by
  rw [passSymbols, List.dedup_cons_of_notMem (eof_not_mem_bytes S), List.length_cons,
    List.dedup_map_of_injective (fun _ _ => BitVec.eq_of_toNat_eq), List.length_map]

/-- A counting pass from IDLE completes in TABLE with the tally of its bytes and the sentinel. -/
theorem runAll_countingPass {S : List Byte} (hc : Consistent s) (hs : s.phase = .idle)
    (hmax : ∀ b, S.count b ≤ 2 ^ 32 - 1) :
    ∃ ft, runAll (S.map .freqByte ++ [.freqEnd]) s = .next (s.counted ft .table) ∧
      Tallies (passSymbols S) ft := by
  obtain ⟨hft, hN⟩ := ft_of_idle hc hs
  have hrun := runAll_counting S (L := []) (.inl hs) (by rw [hft, hN]; rfl) (hft ▸ tallies_nil)
  rw [List.append_nil] at hrun
  exact hrun (count_passSymbols_le hmax)

/-- Settles O19: the pass leaves the tally of its symbols, whose entries, length and sum are the counts. -/
theorem countingPassCountsOccurrences : Obligations.CountingPassCountsOccurrences := by
  intro S s hc hs hmax
  obtain ⟨ft, hrun, hT⟩ := runAll_countingPass hc hs hmax
  refine ⟨_, hrun, rfl, fun b => ?_, ?_, ?_, ?_⟩
  · rw [State.counted_ft, hT.read_eq, count_passSymbols]
    simp only [mem_passSymbols]
  · rw [State.counted_ft, hT.read_eq, count_eof_passSymbols]
    exact if_pos List.mem_cons_self
  · have hle : ft.length ≤ Config.nsym := Memory.length_le hT.form
    rw [State.counted_ftN, BitVec.toNat_ofNat, Nat.mod_eq_of_lt (Nat.lt_of_le_of_lt hle (by decide)),
      hT.length_eq, length_dedup_passSymbols]
  · rw [State.counted_ft, hT.sum_eq, passSymbols, List.length_cons, List.length_map]

/-- Settles O20: both passes complete with tallies of permuted symbols, and a tally is unique. -/
theorem countingIsOrderIndependent : Obligations.CountingIsOrderIndependent := by
  intro S S' s hperm hc hs hmax
  obtain ⟨ft, hrun, hT⟩ := runAll_countingPass hc hs hmax
  obtain ⟨ft', hrun', hT'⟩ := runAll_countingPass hc hs fun b => hperm.count_eq b ▸ hmax b
  have hft : ft = ft' := (hT.perm ((hperm.map _).cons _)).unique hT'
  exact ⟨_, hrun, hft ▸ hrun'⟩

end Sys2Proof.Machine
end

section
/-! BUILD_TREE (spec/41_tree_builder.md rules R110 to R120): the gate of the command, the tree its rule builds, and
the codes of the tree of a single entry. -/

namespace Sys2Proof.Machine

open Sys2Proof.Safety

/-! ## The gate (R110, R119) -/

/-- A command whose gate raises, raises before it has written anything (R89 step 5). -/
theorem raises_of_gateOf {i : Instr} {e : Err} {s : State} (h : gateOf i s.phase = .raises e) : Raises i e s := by
  rw [Raises, exec_eq_command, command_of_raises h, fail_eq_faulted _ (gateOf_raises_not_fault h)]

/-- A command whose gate lets nothing happen only answers (R89 step 3). -/
theorem noEffect_of_gateOf {i : Instr} {s : State} (h : gateOf i s.phase = .noEffect) : NoEffect i s := by
  rw [NoEffect, exec_eq_command, command_of_noEffect h]
  rfl

theorem gateOf_buildTree {p : Phase} (h : p ≠ .idle) : gateOf .buildTree p = p.legalIn [.table] := if_neg h

/-- Settles O23: IDLE has a gate of its own, where the table is as after reset; every other phase is legal or not as
in the phase table. -/
theorem buildTreeOutsideTable : Obligations.BuildTreeOutsideTable := by
  refine ⟨fun s hs => ⟨raises_of_gateOf (by rw [hs]; rfl), fun hc => ?_⟩, fun s hs hf => ?_,
    fun s hs => noEffect_of_gateOf (by rw [hs]; rfl)⟩
  · obtain ⟨hft, hN⟩ := ft_of_idle hc hs
    exact ⟨hN, fun x => by rw [State.ftPresent, hft]; rfl⟩
  · simp only [List.mem_cons, List.not_mem_nil, or_false, not_or] at hs
    obtain ⟨htable, hidle⟩ := hs
    exact raises_of_gateOf ((gateOf_buildTree hidle).trans (Phase.legalIn_eq_raises (by simpa using htable) hf))

/-! ## The rule (R110) -/

variable {s t : State} {nodes : List Node} {r : Nat}

/-- The state BUILD_TREE leaves when its loop ends with the arena `nodes` and the root `r` (R110). -/
def State.withTree (s : State) (nodes : List Node) (r : Nat) : State :=
  { s with
    node := nodes, root := BitVec.ofNat 10 r, nodeCnt := BitVec.ofNat 10 nodes.length,
    cur := BitVec.ofNat 10 r, treeValid := true, phase := .tree }

theorem exec_buildTree_of_table (hs : s.phase = .table) : exec .buildTree s = buildTreeRule s := by
  have hg : gateOf .buildTree s.phase = .run := by rw [hs]; rfl
  rw [exec_eq_command, command_of_run hg, ruleOf]

theorem buildTreeRule_of_built (h : builtTree s.ft = (nodes, [r])) :
    buildTreeRule s = .next (responded 0 (s.withTree nodes r)) := by
  simp only [buildTreeRule, h]
  rfl

/-- BUILD_TREE completes only with one element left in Q. -/
theorem buildTreeRule_eq_next (h : buildTreeRule s = .next t) :
    ∃ nodes r, builtTree s.ft = (nodes, [r]) ∧ t = responded 0 (s.withTree nodes r) := by
  rcases hb : builtTree s.ft with ⟨nodes, q⟩
  match q with
  | [r] =>
    rw [buildTreeRule_of_built hb] at h
    injection h with h
    exact ⟨nodes, r, rfl, h.symm⟩
  | [] | _ :: _ :: _ =>
    simp only [buildTreeRule, hb] at h
    cases h

/-- Settles O24: NODE, ROOT and NODE_CNT are read off the arena and the queue the loop ends with, which are made from
FT. -/
theorem buildTreeDependsOnTheTableAlone : Obligations.BuildTreeDependsOnTheTableAlone := by
  intro s t s' t' hs hs' hft ht ht'
  rw [exec_buildTree_of_table hs] at ht
  rw [exec_buildTree_of_table hs'] at ht'
  obtain ⟨nodes, r, hb, rfl⟩ := buildTreeRule_eq_next ht
  obtain ⟨nodes', r', hb', rfl⟩ := buildTreeRule_eq_next ht'
  rw [← hft, hb] at hb'
  cases hb'
  exact ⟨rfl, rfl, rfl⟩

/-! ## The arena (R111 to R116) -/

/-- Once the table is final it is not empty, for it has the sentinel (R35 (b)). -/
theorem ft_ne_nil_of_final (hc : Consistent s) (hs : s.phase ∈ finalTable) : s.ft ≠ [] := by
  intro hft
  have hsent := hc.ftSentinel hs
  rw [hft] at hsent
  cases hsent

/-- BUILD_TREE completes in phase TABLE, with an arena merged in the order of R113. -/
theorem exec_buildTree_spec (hc : Consistent s) (hs : s.phase = .table) : ∃ nodes,
    exec .buildTree s = .next (responded 0 (s.withTree nodes (2 * leafCount s.ft - 2))) ∧
      Arena s.ft nodes ∧ GreedyMerges s.ft nodes ∧
      weightAt nodes (2 * leafCount s.ft - 2) = totalWeight s.ft := by
  obtain ⟨nodes, hb, hspec⟩ := builtTree_spec hc.ftForm (ft_ne_nil_of_final hc (by rw [hs]; decide))
  exact ⟨nodes, (exec_buildTree_of_table hs).trans (buildTreeRule_of_built hb), hspec⟩

/-- The weight of every node of a built tree is the sum of the weights of the leaves below it (R116). -/
theorem leafSum_eq_weightAt {ft : List (Nat × Count)} (hwf : Memory.wf Config.nsym ft) (hne : ft ≠ [])
    (A : Arena ft nodes) (depth : Nat) {i : NodeIdx} (hi : i.toNat < nodes.length) (hd : i.toNat < depth) :
    leafSum nodes depth i = weightAt nodes i.toNat := by
  induction depth generalizing i with
  | zero => omega
  | succ depth ih =>
    rw [leafSum]
    by_cases hnas : (nodeAt nodes i.toNat).sym = Config.nas
    · have hge : leafCount ft ≤ i.toNat := by
        by_contra hlt
        exact (arena_leaf_iff hwf hne A hi).2 (by omega) hnas
      obtain ⟨-, hz, ho, -⟩ := A.internal _ hge hi
      rw [if_pos hnas, ih (by omega) (by omega), ih (by omega) (by omega), A.sums _ hge hi]
    · rw [if_neg hnas]

/-- Settles O21: the arena is what the loop of R110 ends with, and its weights add up from the leaves. -/
theorem buildTreeBuildsTheArena : Obligations.BuildTreeBuildsTheArena := by
  refine ⟨⟨by decide, by decide⟩, fun s hc hs => ?_⟩
  obtain ⟨nodes, hexec, A, -, hroot⟩ := exec_buildTree_spec hc hs
  have hsize := A.size
  have hL := leafCount_bounds hc.ftForm
  refine ⟨nodes, ?_, A, by rw [hsize]; simp only [Config.nodeCap]; omega, fun i hi => ?_, hroot⟩
  · rw [hexec, State.withTree, hsize]
  · have hi10 : (BitVec.ofNat 10 i).toNat = i := by rw [BitVec.toNat_ofNat]; omega
    have hne := ft_ne_nil_of_final hc (by rw [hs]; decide)
    rw [leafSum_eq_weightAt hc.ftForm hne A (i + 1) (by rwa [hi10]) (by omega), hi10]

/-- Settles O22: the order of the merges is part of what the loop keeps. -/
theorem buildTreeMergesTheLeastPair : Obligations.BuildTreeMergesTheLeastPair := by
  intro s t hc hs ht
  obtain ⟨nodes, hexec, A, hgreedy, -⟩ := exec_buildTree_spec hc hs
  obtain rfl : _ = t := by simpa only [Host.Outcome.next.injEq] using hexec.symm.trans ht
  exact ⟨hgreedy, fun i hi hi' => ⟨(A.internal i hi hi').1, A.sums i hi hi'⟩⟩

/-! ## A single entry (R112, R126) -/

/-- The tree of a table that has the sentinel alone, with weight `c` (R112). -/
def singleTree (c : Weight) : List Node :=
  [⟨Config.eofSym, c, Config.nil, Config.nil⟩, ⟨Config.eofSym, c, Config.nil, Config.nil⟩,
    ⟨Config.nas, c + c, 0, 1⟩]

/-- A final table with one entry has the sentinel's (R35 (b)). -/
theorem ft_eq_single_of_final (hc : Consistent s) (hs : s.phase ∈ finalTable) (hlen : s.ft.length = 1) :
    ∃ n, s.ft = [(Config.eof, n)] := by
  obtain ⟨⟨x, n⟩, hft⟩ := List.length_eq_one_iff.1 hlen
  have hx := Memory.read_isSome.1 (hc.ftSentinel hs)
  rw [hft, List.map_singleton, List.mem_singleton] at hx
  exact ⟨n, by rw [hft, hx]⟩

/-- Of two equal leaves the first is the lesser, so the one merge has children 0 and 1. -/
theorem builtTree_single (n : Count) : builtTree [(Config.eof, n)] = (singleTree (n.setWidth 41), [2]) := by
  have hwf : Memory.wf Config.nsym [(Config.eof, n)] := by simp [Memory.wf]
  have hleaves : leavesOf [(Config.eof, n)] = [leafOf Config.eof n, leafOf Config.eof n] := leavesOf_eq hwf
  have hbefore : before [leafOf Config.eof n, leafOf Config.eof n] 0 1 = true :=
    (before_iff ..).2 (.inr ⟨rfl, Nat.zero_lt_one⟩)
  have hleast : leastOf [leafOf Config.eof n, leafOf Config.eof n] [0, 1] = some 0 := if_pos hbefore
  rw [builtTree, hleaves]
  change mergeLoop 2 _ [0, 1] = _
  rw [mergeLoop, hleast]
  rfl

/-- Visit records the first of the two sentinel leaves, reached with a 0 (R126). -/
theorem visit_singleTree (c : Weight) (depth : Nat) :
    visit (singleTree c) (depth + 2) 2 [] [] = .ok [(Config.eof, { len := 1, bits := 0 })] := rfl

theorem exec_buildCodes_of_tree {ct : List (Nat × CodeEntry)} (hs : s.phase = .tree)
    (hv : visit s.node (Config.maxLen + 1) s.root [] s.ct = .ok ct) :
    exec .buildCodes s = .next (responded 0 { s with ct := ct, phase := .codes }) := by
  have hg : gateOf .buildCodes s.phase = .run := by rw [hs]; rfl
  rw [exec_eq_command, command_of_run hg, ruleOf, buildCodesRule, hv]
  rfl

/-- Settles O28: the one entry is the sentinel's, and on its tree of three nodes the loop and Visit are run. -/
theorem singleEntryHasCodeZero : Obligations.SingleEntryHasCodeZero := by
  intro s hc hs hlen
  obtain ⟨n, hft⟩ := ft_eq_single_of_final hc (by rw [hs]; decide) hlen
  have hct : s.ct = [] := by
    by_contra hne
    have hp := hc.ctPhase hne
    rw [hs] at hp
    exact absurd hp (by decide)
  have hbuild := (exec_buildTree_of_table hs).trans (buildTreeRule_of_built (by rw [hft, builtTree_single]))
  have hcodes := exec_buildCodes_of_tree (s := responded 0 (s.withTree (singleTree (n.setWidth 41)) 2)) rfl
    ((congrArg (visit _ _ _ _) hct).trans (visit_singleTree _ _))
  exact ⟨_, _, n, _, by rw [hft]; rfl, rfl, hbuild, hcodes, rfl, rfl, rfl, rfl, fun x hx => if_neg hx⟩

end Sys2Proof.Machine
end

section
/-! BUILD_CODES (spec/42_code_table.md rules R125 to R129): what Visit leaves from a built tree, and why it depends on
nothing else. -/

namespace Sys2Proof.Machine

open Sys2Proof.Safety

variable {s : State} {nodes : List Node} {root : NodeIdx} {x y : Nat} {c d : Code}

/-- Between BUILD_TREE and BUILD_CODES no code is valid (R35 (e)). -/
theorem ct_of_tree (hc : Consistent s) (hs : s.phase = .tree) : s.ct = [] := by
  by_contra hne
  have hp := hc.ctPhase hne
  rw [hs] at hp
  exact absurd hp (by decide)

/-- The leaf paths of different symbols are not prefixes of one another (R128). -/
theorem leafPath_not_prefix (hxy : x ≠ y) (hx : LeafPath nodes root x c) (hy : LeafPath nodes root y d) :
    ¬ c <+: d := by
  intro hpre
  obtain ⟨hbx, rfl⟩ := leafPath_iff.1 hx
  obtain ⟨hby, rfl⟩ := leafPath_iff.1 hy
  exact hxy (by rw [leafBelow_prefix hbx hby hpre])

/-- BUILD_CODES completes in phase TREE, with what Visit records from an empty table. -/
theorem exec_buildCodes_spec (hc : Consistent s) (hs : s.phase = .tree) : ∃ ct,
    visit s.node (Config.maxLen + 1) s.root [] [] = .ok ct ∧
      exec .buildCodes s = .next (responded 0 { s with ct := ct, phase := .codes }) ∧
      (∀ x, (Memory.read ct x).isSome = (Memory.read s.ft x).isSome) ∧
      ∀ x e, Memory.read ct x = some e → EntryOk e ∧ LeafPath s.node s.root x e.code := by
  have hne := ft_ne_nil_of_final hc (by rw [hs]; decide)
  obtain ⟨A, -, hroot⟩ := hc.treeBuilt (hc.treeInPhase.2 (by rw [hs]; decide))
  obtain ⟨ct, hv, -, hcomplete, hpaths⟩ := visit_root_spec hc.ftForm hne A hroot
  exact ⟨ct, hv, exec_buildCodes_of_tree hs (by rw [ct_of_tree hc hs, hv]), hcomplete, hpaths⟩

/-- Settles O25: Visit records the leaf paths, and those of different leaves are not prefixes of one another. -/
theorem buildCodesRecordsTheLeafPaths : Obligations.BuildCodesRecordsTheLeafPaths := by
  refine ⟨⟨by decide, by decide⟩, fun s hc hs => ?_, illegalOutside_of_gateOf fun _ => rfl,
    silentInFault_of_gateOf fun _ => rfl⟩
  obtain ⟨ct, -, hexec, hcomplete, hpaths⟩ := exec_buildCodes_spec hc hs
  exact ⟨ct, hexec, hcomplete, hpaths, fun x y e f hxy he hf =>
    leafPath_not_prefix hxy (hpaths x e he).2 (hpaths y f hf).2⟩

/-- Settles O26: Visit starts from an empty table and reads NODE and ROOT only. -/
theorem codesDependOnTheTreeAlone : Obligations.CodesDependOnTheTreeAlone := by
  intro s t s' t' hc hc' hs hs' hnode hroot ht ht'
  obtain ⟨ct, hv, hexec, -⟩ := exec_buildCodes_spec hc hs
  obtain ⟨ct', hv', hexec', -⟩ := exec_buildCodes_spec hc' hs'
  obtain rfl : _ = t := by simpa only [Host.Outcome.next.injEq] using hexec.symm.trans ht
  obtain rfl : _ = t' := by simpa only [Host.Outcome.next.injEq] using hexec'.symm.trans ht'
  rw [hnode, hroot, hv'] at hv
  cases hv
  rfl

end Sys2Proof.Machine
end

section
/-! The encoder and the bit_packer (spec/43_encoder_packer.md rules R135 to R139): one ENC_BYTE, the end of the pass,
and the payload of a whole pass. -/

namespace Sys2Proof.Machine

open Sys2Proof.Safety

variable {s : State} {x : Nat} {b : Byte}

/-! ## The look-up of a code (R127, R137) -/

/-- In a phase the phase table lists for it, a command runs its rule (R185). -/
theorem exec_of_legal {i : Instr} {legal : List Phase} (hg : ∀ p, gateOf i p = p.legalIn legal)
    (hs : s.phase ∈ legal) (hf : s.phase ≠ .fault) : exec i s = ruleOf i s := by
  rw [exec_eq_command, command_of_run ((hg _).trans (Phase.legalIn_eq_run hs hf))]

theorem phase_ne_fault_of_encoding (hs : s.phase = .codes ∨ s.phase = .enc) : s.phase ≠ .fault := by
  rcases hs with h | h <;> simp [h]

theorem ctValid_eq_false_iff : s.ctValid x = false ↔ Memory.read s.ct x = none := by
  rw [State.ctValid, Option.isSome_eq_false_iff, Option.isNone_iff_eq_none]

/-- A valid entry holds the symbol's code (R52). -/
theorem read_of_ctValid (h : s.ctValid x = true) :
    ∃ e, Memory.read s.ct x = some e ∧ codeOf s x = e.code := by
  obtain ⟨e, he⟩ := Option.isSome_iff_exists.1 h
  exact ⟨e, he, by rw [codeOf, he]; rfl⟩

/-- While codes are used the sentinel has one (R35 (b), R127). -/
theorem ctValid_eof (hc : Consistent s) (hs : s.phase = .codes ∨ s.phase = .enc) :
    s.ctValid Config.eof = true := by
  have hct : s.ct.map Prod.fst = s.ft.map Prod.fst := hc.ctComplete (by rcases hs with h | h <;> simp [h])
  have hft : (Memory.read s.ft Config.eof).isSome :=
    hc.ftSentinel (by rcases hs with h | h <;> simp [h, finalTable])
  exact Memory.read_isSome.2 (hct ▸ Memory.read_isSome.1 hft)

/-! ## ENC_BYTE (R135, R137) -/

/-- The state ENC_BYTE leaves: `n` more bits packed, which filled the bytes `bs` and left ACC and NB. -/
def State.packed (bs : List Byte) (acc : BitVec 8) (nb : BitVec 3) (n : Nat) (s : State) : State :=
  responded 0 { s with
    out := s.out ++ bs, acc := acc, nb := nb, bitcnt := s.bitcnt + BitVec.ofNat 64 n, phase := .enc }

theorem exec_encByte (hs : s.phase = .codes ∨ s.phase = .enc) : exec (.encByte b) s = encByteRule b s :=
  exec_of_legal (fun _ => rfl) (by simpa using hs) (phase_ne_fault_of_encoding hs)

theorem exec_encByte_of_absent (hs : s.phase = .codes ∨ s.phase = .enc) (h : s.ctValid b.toNat = false) :
    Raises (.encByte b) .malformedInput s := by
  rw [Raises, exec_encByte hs, encByteRule, symbolOfByte_eq_toNat, ctValid_eq_false_iff.1 h,
    ← fail_eq_faulted _ (phase_ne_fault_of_encoding hs)]

theorem exec_encByte_of_valid (hs : s.phase = .codes ∨ s.phase = .enc) (h : s.ctValid b.toNat = true) :
    ∃ bs acc nb, exec (.encByte b) s = .next (s.packed bs acc nb (codeOf s b.toNat).length) ∧
      (PackerClean s.nb s.acc → PackerClean nb acc ∧
        placedBits s.nb s.acc ++ codeOf s b.toNat = bytesBits bs ++ placedBits nb acc) := by
  obtain ⟨e, he, hcode⟩ := read_of_ctValid h
  obtain ⟨bs, acc, nb, hpack, hbits⟩ := packBits_spec e.code s
  refine ⟨bs, acc, nb, ?_, hcode ▸ hbits⟩
  rw [exec_encByte hs, encByteRule, symbolOfByte_eq_toNat, he, hcode]
  simp only [hpack]
  rfl

/-- Settles O29: by the look-up, which comes before the packer; the packer appends a code bit by bit. -/
theorem encByteAppendsTheCode : Obligations.EncByteAppendsTheCode := fun b =>
  ⟨hasWord_of_formatB (op := 0x07) (fun _ => rfl) (fun _ => rfl) b,
    fun _ hs => ⟨exec_encByte_of_absent hs, exec_encByte_of_valid hs⟩,
    illegalOutside_of_gateOf fun _ => rfl, silentInFault_of_gateOf fun _ => rfl⟩

/-! ## ENC_END (R136, R138) -/

/-- The state ENC_END leaves: `n` more bits packed, all of them emitted in the bytes `bs`, and no tree. -/
def State.encodeEnded (bs : List Byte) (n : Nat) (s : State) : State :=
  responded 0 { released s with
    out := s.out ++ bs, acc := 0, nb := 0, bitcnt := s.bitcnt + BitVec.ofNat 64 n, phase := .encDone }

theorem bytesBits_append (bs bs' : List Byte) : bytesBits (bs ++ bs') = bytesBits bs ++ bytesBits bs' :=
  List.flatMap_append

/-- A code, packed and flushed, leaves an empty packer: the last byte is filled with 0 bits. -/
theorem packFlush_packBits_spec (c : Code) (hp : PackerClean s.nb s.acc) : ∃ bs n,
    packFlush (packBits s c) = { s with
      out := s.out ++ bs, acc := 0, nb := 0, bitcnt := s.bitcnt + BitVec.ofNat 64 c.length } ∧
    n < 8 ∧ bytesBits bs = placedBits s.nb s.acc ++ c ++ List.replicate n false := by
  obtain ⟨bs, acc, nb, hpack, hbits⟩ := packBits_spec c s
  obtain ⟨hclean, hplaced⟩ := hbits hp
  obtain ⟨bs', hflush, hpad⟩ := packFlush_spec (packBits s c)
  simp only [hpack] at hflush hpad
  obtain ⟨n, hn, hpadded⟩ := hpad hclean
  have hacc : (if nb = 0 then acc else 0) = 0 := ite_eq_right_iff.2 (acc_eq_zero_of_clean hclean)
  refine ⟨bs ++ bs', n, ?_, hn, ?_⟩
  · rw [hpack, hflush, hacc, List.append_assoc]
  · rw [bytesBits_append, hpadded, ← List.append_assoc, hplaced]

theorem exec_encEnd (hs : s.phase = .codes ∨ s.phase = .enc) : exec .encEnd s = encEndRule s :=
  exec_of_legal (fun _ => rfl) (by simpa using hs) (phase_ne_fault_of_encoding hs)

theorem exec_encEnd_of_absent (hs : s.phase = .codes ∨ s.phase = .enc) (h : s.ctValid Config.eof = false) :
    Raises .encEnd .malformedInput s := by
  rw [Raises, exec_encEnd hs, encEndRule, ctValid_eq_false_iff.1 h,
    ← fail_eq_faulted _ (phase_ne_fault_of_encoding hs)]

theorem exec_encEnd_of_valid (hs : s.phase = .codes ∨ s.phase = .enc) (h : s.ctValid Config.eof = true)
    (hp : PackerClean s.nb s.acc) : ∃ bs n,
    exec .encEnd s = .next (s.encodeEnded bs (codeOf s Config.eof).length) ∧
      n < 8 ∧ bytesBits bs = placedBits s.nb s.acc ++ codeOf s Config.eof ++ List.replicate n false := by
  obtain ⟨e, he, hcode⟩ := read_of_ctValid h
  obtain ⟨bs, n, hflush, hbits⟩ := packFlush_packBits_spec e.code hp
  refine ⟨bs, n, ?_, hcode ▸ hbits⟩
  rw [exec_encEnd hs, encEndRule, he, hcode]
  simp only [hflush]
  rfl

/-- Settles O30: the flush follows the sentinel's code, which every consistent state of CODES and ENC holds. -/
theorem encEndFlushesAndReleases : Obligations.EncEndFlushesAndReleases :=
  ⟨⟨by decide, by decide⟩,
    fun _ hs => ⟨fun hc => ctValid_eof hc hs, exec_encEnd_of_absent hs, exec_encEnd_of_valid hs⟩,
    illegalOutside_of_gateOf fun _ => rfl, silentInFault_of_gateOf fun _ => rfl⟩

/-! ## A whole encode pass (R139) -/

/-- The bits of the payload of `S`: the codes in order, then the sentinel's code (R139). -/
def payloadBits (s : State) (S : List Byte) : Code :=
  S.flatMap (fun b => codeOf s b.toNat) ++ codeOf s Config.eof

/-- Packing writes no code. -/
theorem payloadBits_packed (bs : List Byte) (acc : BitVec 8) (nb : BitVec 3) (n : Nat) (S : List Byte) :
    payloadBits (s.packed bs acc nb n) S = payloadBits s S := rfl

theorem payloadBits_cons (b : Byte) (S : List Byte) :
    payloadBits s (b :: S) = codeOf s b.toNat ++ payloadBits s S := by
  rw [payloadBits, List.flatMap_cons, List.append_assoc, payloadBits]

/-- What is packed before the end of the pass counts with what the end packs. -/
theorem encodeEnded_packed (bs bs' : List Byte) (acc : BitVec 8) (nb : BitVec 3) (m n : Nat) :
    (s.packed bs acc nb m).encodeEnded bs' n = s.encodeEnded (bs ++ bs') (m + n) := by
  simp only [State.encodeEnded, State.packed, responded, released, List.append_assoc, BitVec.ofNat_add,
    BitVec.add_assoc]

/-- Encoding bytes that have codes, and the end, from any clean packer. -/
theorem runAll_encoding (S : List Byte) (hs : s.phase = .codes ∨ s.phase = .enc)
    (hvalid : ∀ b ∈ S, s.ctValid b.toNat = true) (heof : s.ctValid Config.eof = true)
    (hp : PackerClean s.nb s.acc) : ∃ bs n,
    runAll (S.map .encByte ++ [.encEnd]) s = .next (s.encodeEnded bs (payloadBits s S).length) ∧
      n < 8 ∧ bytesBits bs = placedBits s.nb s.acc ++ payloadBits s S ++ List.replicate n false := by
  induction S generalizing s with
  | nil =>
    obtain ⟨bs, n, hexec, hbits⟩ := exec_encEnd_of_valid hs heof hp
    exact ⟨bs, n, by simp [hexec, payloadBits], hbits⟩
  | cons b S ih =>
    obtain ⟨hb, hS⟩ := List.forall_mem_cons.1 hvalid
    obtain ⟨bs, acc, nb, hexec, hpacked⟩ := exec_encByte_of_valid hs hb
    obtain ⟨hclean, hplaced⟩ := hpacked hp
    obtain ⟨bs', n, hrun, hn, hbits⟩ :=
      ih (s := s.packed bs acc nb (codeOf s b.toNat).length) (.inr rfl) hS heof hclean
    refine ⟨bs ++ bs', n, ?_, hn, ?_⟩
    · rw [List.map_cons, List.cons_append, runAll_cons, hexec, continueWith_next, hrun, encodeEnded_packed,
        payloadBits_packed, payloadBits_cons, List.length_append]
    · calc bytesBits (bs ++ bs')
        _ = bytesBits bs ++ (placedBits nb acc ++ payloadBits s S ++ List.replicate n false) := by
          rw [bytesBits_append, hbits]; rfl
        _ = placedBits s.nb s.acc ++ payloadBits s (b :: S) ++ List.replicate n false := by
          simp only [payloadBits_cons, ← List.append_assoc, hplaced]

/-! ## The bits of a sequence of bytes (R55) -/

theorem length_bytesBits (bs : List Byte) : (bytesBits bs).length = 8 * bs.length := by
  simp [bytesBits, byteBits, Nat.mul_comm]

/-- Bit k of a sequence of bytes is bit 7 - k mod 8 of byte k div 8. -/
theorem getD_bytesBits {bs : List Byte} {k : Nat} (h : k / 8 < bs.length) :
    (bytesBits bs).getD k false = bs[k / 8].getLsbD (7 - k % 8) := by
  induction bs generalizing k with
  | nil => exact absurd h (Nat.not_lt_zero _)
  | cons b bs ih =>
    have hcons : bytesBits (b :: bs) = byteBits b ++ bytesBits bs := List.flatMap_cons
    have hlen : (byteBits b).length = 8 := rfl
    by_cases hk : k < 8
    · rw [hcons, List.getD_append _ _ _ _ (hlen ▸ hk)]
      simp [byteBits, Nat.div_eq_of_lt hk, Nat.mod_eq_of_lt hk, hk, BitVec.getMsbD]
    · obtain ⟨j, rfl⟩ := Nat.exists_eq_add_of_le' (Nat.not_lt.1 hk)
      have hj : j / 8 < bs.length := by rw [List.length_cons] at h; omega
      rw [hcons, List.getD_append_right _ _ _ _ (by omega), hlen, Nat.add_sub_cancel, ih hj]
      simp

/-- The bits past the end read as 0, with or without the filling zeros. -/
theorem getD_append_replicate (c : Code) (n k : Nat) :
    (c ++ List.replicate n false).getD k false = c.getD k false := by
  rcases Nat.lt_or_ge k c.length with hk | hk
  · exact List.getD_append _ _ _ _ hk
  · rw [List.getD_append_right _ _ _ _ hk, List.getD_eq_default _ _ hk]
    exact List.getElem?_getD_replicate_default_eq ..

/-- Settles O31: in CODES the packer is empty, so the bytes appended hold the payload's bits and fewer than 8
zeros. -/
theorem encodePassWritesThePayload : Obligations.EncodePassWritesThePayload := by
  intro S s hc hs hvalid P
  obtain ⟨bs, n, hrun, hn, hbits⟩ :=
    runAll_encoding S (.inl hs) hvalid (ctValid_eof hc (.inl hs)) hc.packerPlaced
  have hempty : placedBits s.nb s.acc = [] := by
    rw [(hc.packerEmpty (by simp [hs])).1]; rfl
  have hpayload : bytesBits bs = P ++ List.replicate n false := by rw [hbits, hempty]; rfl
  have hlen : 8 * bs.length = P.length + n := by
    rw [← length_bytesBits, hpayload, List.length_append, List.length_replicate]
  refine ⟨_, bs, hrun, rfl, rfl, by omega, rfl, fun k hk => ?_⟩
  have hk8 : k / 8 < bs.length := Nat.div_lt_of_lt_mul hk
  refine ⟨bs[k / 8], List.getElem?_eq_getElem hk8, ?_⟩
  rw [← getD_bytesBits hk8, hpayload, getD_append_replicate]

end Sys2Proof.Machine
end

section
/-! The decoder (spec/44_decoder_unpacker.md rules R150 to R157): what a sequence of bits does to the state, in every
phase, and the commands that give bits to the walker or end the payload. -/

namespace Sys2Proof.Machine

open Sys2Proof.Safety

variable {s : State} {i : Instr} {bits c d : Code}

/-! ## Bits in two parts (R152) -/

section decodeBits

variable {nodes : List Node} {root cur cur' : NodeIdx}

/-- One bit, by the symbol of the child it leads to (R150). -/
theorem decodeBits_cons (t : Bool) (c : Code) :
    decodeBits nodes root cur (t :: c) =
      if symAt nodes (childOf (nodeAt nodes cur.toNat) t) = Config.nas then
        decodeBits nodes root (childOf (nodeAt nodes cur.toNat) t) c
      else if symAt nodes (childOf (nodeAt nodes cur.toNat) t) = Config.eofSym then ([], none)
      else (BitVec.ofNat 8 (symAt nodes (childOf (nodeAt nodes cur.toNat) t)).toNat ::
        (decodeBits nodes root root c).1, (decodeBits nodes root root c).2) := rfl

/-- Bits after the sentinel leaf are not examined. -/
theorem decodeBits_append_of_none (h : (decodeBits nodes root cur c).2 = none) (d : Code) :
    decodeBits nodes root cur (c ++ d) = decodeBits nodes root cur c := by
  induction c generalizing cur with
  | nil => cases h
  | cons t c ih =>
    rw [decodeBits_cons] at h
    rw [List.cons_append, decodeBits_cons, decodeBits_cons]
    split_ifs at h ⊢
    · exact ih h
    · rfl
    · rw [ih h]

/-- Before the sentinel leaf, later bits go on from the cursor the earlier ones leave. -/
theorem decodeBits_append_of_some (h : (decodeBits nodes root cur c).2 = some cur') (d : Code) :
    decodeBits nodes root cur (c ++ d) =
      ((decodeBits nodes root cur c).1 ++ (decodeBits nodes root cur' d).1,
        (decodeBits nodes root cur' d).2) := by
  induction c generalizing cur with
  | nil =>
    obtain rfl : cur = cur' := Option.some.inj h
    rfl
  | cons t c ih =>
    rw [decodeBits_cons] at h
    rw [List.cons_append, decodeBits_cons, decodeBits_cons]
    split_ifs at h ⊢
    · exact ih h
    · rw [ih h, List.cons_append]

end decodeBits

/-! ## What bits do to the state (R150 to R155) -/

/-- The state the walker leaves in phases TREE and DEC (R150, R152). -/
def State.walked (bits : Code) (s : State) : State :=
  match decodeBits s.node s.root s.cur bits with
  | (bs, some cur) => { s with out := s.out ++ bs, cur := cur, phase := .dec }
  | (bs, none) => { released s with out := s.out ++ bs, phase := .decDone }

theorem walked_of_some {cur : NodeIdx} (h : (decodeBits s.node s.root s.cur bits).2 = some cur) :
    s.walked bits =
      { s with out := s.out ++ (decodeBits s.node s.root s.cur bits).1, cur := cur, phase := .dec } := by
  rw [State.walked, ← Prod.mk.eta (p := decodeBits s.node s.root s.cur bits), h]

theorem walked_of_none (h : (decodeBits s.node s.root s.cur bits).2 = none) :
    s.walked bits =
      { released s with
        out := s.out ++ (decodeBits s.node s.root s.cur bits).1, phase := .decDone } := by
  rw [State.walked, ← Prod.mk.eta (p := decodeBits s.node s.root s.cur bits), h]

/-- The walker, with PHASE written before the first bit (R153, R155). -/
theorem walkBits_eq_walked (bits : Code) (s : State) :
    walkBits bits { s with phase := .dec } = s.walked bits := by
  obtain ⟨hsome, hnone⟩ := walkBits_spec bits { s with phase := .dec }
  cases h : (decodeBits s.node s.root s.cur bits).2 with
  | some cur => rw [hsome cur h, walked_of_some h]
  | none => rw [hnone h, walked_of_none h]; rfl

/-- The state after a command that gives the walker bits, in every phase: the bits are walked in TREE and DEC, and
nothing is done in DEC_DONE (R154) and FAULT (R187); the command is illegal elsewhere. -/
def State.decoded (bits : Code) (s : State) : State :=
  if s.phase = .tree ∨ s.phase = .dec then responded 0 (s.walked bits)
  else if s.phase = .decDone ∨ s.phase = .fault then responded 0 s
  else faulted .illegalCommand s

theorem decoded_of_walking (hs : s.phase = .tree ∨ s.phase = .dec) :
    s.decoded bits = responded 0 (s.walked bits) := if_pos hs

theorem decoded_of_silent (hs : s.phase = .decDone ∨ s.phase = .fault) : s.decoded bits = responded 0 s := by
  rw [State.decoded, if_neg (by rcases hs with h | h <;> simp [h]), if_pos hs]

theorem decoded_of_illegal (hs : s.phase ∉ [.tree, .dec, .decDone]) (hf : s.phase ≠ .fault) :
    s.decoded bits = faulted .illegalCommand s := by
  simp only [List.mem_cons, List.not_mem_nil, or_false, not_or] at hs
  obtain ⟨htree, hdec, hdone⟩ := hs
  rw [State.decoded, if_neg (not_or.2 ⟨htree, hdec⟩), if_neg (not_or.2 ⟨hdone, hf⟩)]

/-- Bits that reach the sentinel leaf end the pass (R150, R152). -/
theorem decoded_of_sentinel {bs : List Byte} (hs : s.phase = .tree ∨ s.phase = .dec)
    (h : decodeBits s.node s.root s.cur bits = (bs, none)) :
    s.decoded bits = responded 0 { released s with out := s.out ++ bs, phase := .decDone } := by
  rw [decoded_of_walking hs, State.walked, h]

/-- The three cases of `State.decoded`. -/
theorem decoding_phases (p : Phase) :
    (p = .tree ∨ p = .dec) ∨ (p = .decDone ∨ p = .fault) ∨
      (p ∉ [.tree, .dec, .decDone] ∧ p ≠ .fault) := by
  cases p <;> simp

/-- Bits may come in two parts, in every phase (R156). -/
theorem decoded_decoded (c d : Code) (s : State) : (s.decoded c).decoded d = s.decoded (c ++ d) := by
  rcases decoding_phases s.phase with hs | hs | ⟨hs, hf⟩
  · rw [decoded_of_walking hs, decoded_of_walking hs]
    cases h : (decodeBits s.node s.root s.cur c).2 with
    | none =>
      have hcd := decodeBits_append_of_none h d
      rw [walked_of_none h, walked_of_none (by rw [hcd, h]), decoded_of_silent (.inl rfl), hcd]
      rfl
    | some cur =>
      have hcd := decodeBits_append_of_some h d
      rw [walked_of_some h, decoded_of_walking (.inr rfl)]
      simp only [State.walked, hcd, responded, released]
      rcases decodeBits s.node s.root cur d with ⟨bs, _ | cur'⟩ <;> simp only [List.append_assoc]
  · have hs' : (responded 0 s).phase = .decDone ∨ (responded 0 s).phase = .fault := hs
    rw [decoded_of_silent hs, decoded_of_silent hs, decoded_of_silent hs']
    rfl
  · rw [decoded_of_illegal hs hf, decoded_of_illegal hs hf, decoded_of_silent (.inr rfl)]
    rfl

/-! ## The commands that give the walker bits (R153, R155) -/

/-- DEC_BIT and DEC_BYTE with their bits. -/
def Walks (i : Instr) (bits : Code) : Prop :=
  (∃ t, i = .decBit t ∧ bits = [bitOperand t]) ∨ ∃ b, i = .decByte b ∧ bits = byteBits b

theorem walks_decBit (t : BitVec 1) : Walks (.decBit t) [bitOperand t] := .inl ⟨t, rfl, rfl⟩

theorem walks_decByte (b : Byte) : Walks (.decByte b) (byteBits b) := .inr ⟨b, rfl, rfl⟩

theorem Walks.gateOf_eq (hi : Walks i bits) (p : Phase) :
    gateOf i p = if p = .decDone then .noEffect else p.legalIn [.tree, .dec] := by
  rcases hi with ⟨t, rfl, -⟩ | ⟨b, rfl, -⟩ <;> rfl

theorem Walks.ruleOf_eq (hi : Walks i bits) (s : State) : ruleOf i s = .next (responded 0 (s.walked bits)) := by
  rw [← walkBits_eq_walked]
  rcases hi with ⟨t, rfl, rfl⟩ | ⟨b, rfl, rfl⟩
  · rfl
  · rw [← bitsOfByte_eq]; rfl

theorem Walks.noEffect (hi : Walks i bits) (hs : s.phase = .decDone ∨ s.phase = .fault) : NoEffect i s :=
  noEffect_of_gateOf (by rw [hi.gateOf_eq]; rcases hs with h | h <;> rw [h] <;> rfl)

theorem Walks.illegalOutside (hi : Walks i bits) : IllegalOutside i [.tree, .dec, .decDone] := by
  intro s hs hf
  simp only [List.mem_cons, List.not_mem_nil, or_false, not_or] at hs
  obtain ⟨htree, hdec, hdone⟩ := hs
  refine raises_of_gateOf ?_
  rw [hi.gateOf_eq, if_neg hdone, Phase.legalIn_eq_raises (by simp [htree, hdec]) hf]

theorem Walks.exec_of_walking (hi : Walks i bits) (hs : s.phase = .tree ∨ s.phase = .dec) :
    exec i s = .next (responded 0 (s.walked bits)) := by
  have hg : gateOf i s.phase = .run := by rw [hi.gateOf_eq]; rcases hs with h | h <;> rw [h] <;> rfl
  rw [exec_eq_command, command_of_run hg, hi.ruleOf_eq]

/-- In every phase such a command does what its bits do. -/
theorem Walks.exec_eq (hi : Walks i bits) (s : State) : exec i s = .next (s.decoded bits) := by
  rcases decoding_phases s.phase with hs | hs | ⟨hs, hf⟩
  · rw [decoded_of_walking hs]; exact hi.exec_of_walking hs
  · rw [decoded_of_silent hs]; exact hi.noEffect hs
  · rw [decoded_of_illegal hs hf]; exact hi.illegalOutside s hs hf

theorem hasWord_decBit : ∀ t : BitVec 1, HasWord (.decBit t) (0x2800#16 ||| t.setWidth 16) := by
  unfold HasWord; decide +kernel

/-- The walker's path for one bit: it stands on the child the bit leads to (R150). -/
theorem decodeBits_singleton (nodes : List Node) (root cur : NodeIdx) (t : BitVec 1) :
    let n := nodeAt nodes cur.toNat
    let c := if t = 0 then n.zero else n.one
    decodeBits nodes root cur [bitOperand t] =
      if symAt nodes c = 257 then ([], some c)
      else if symAt nodes c = 256 then ([], none)
      else ([(symAt nodes c).setWidth 8], some root) := by
  have ht : t = 0 ∨ t = 1 := by revert t; decide
  simp only [setWidth_eq_ofNat]
  rcases ht with rfl | rfl <;> rfl

/-- Settles O32: by the symbol of the child, one bit is a move, an emitted byte or the end. -/
theorem decBitWalksOneStep : Obligations.DecBitWalksOneStep := by
  intro t
  have hi := walks_decBit t
  refine ⟨hasWord_decBit t, fun s hs => ?_, fun s hs => hi.noEffect (.inl hs), hi.illegalOutside,
    fun s hs => hi.noEffect (.inr hs)⟩
  intro n c
  have hone : decodeBits s.node s.root s.cur [bitOperand t] = _ := decodeBits_singleton ..
  rw [hi.exec_of_walking hs]
  refine ⟨fun hc => ?_, fun hc => ?_, fun hnas heof => ?_⟩
  · rw [if_pos hc] at hone
    rw [State.walked, hone]
    simp only [List.append_nil]; rfl
  · rw [if_neg (by rw [hc]; decide), if_pos hc] at hone
    rw [State.walked, hone]
    simp only [List.append_nil]; rfl
  · rw [if_neg hnas, if_neg heof] at hone
    rw [State.walked, hone]

/-- Settles O33: the bits of the byte are walked as one sequence. -/
theorem decByteWalksItsBits : Obligations.DecByteWalksItsBits := by
  intro b
  have hi := walks_decByte b
  refine ⟨hasWord_of_formatB (op := 0x0B) (fun _ => rfl) (fun _ => rfl) b,
    fun s hs => ⟨fun c hc => ?_, fun hn => ?_⟩, fun s hs => hi.noEffect (.inl hs),
    hi.illegalOutside, fun s hs => hi.noEffect (.inr hs)⟩
  · rw [hi.exec_of_walking hs, walked_of_some hc]
  · rw [hi.exec_of_walking hs, walked_of_none hn]

/-! ## Sequences of bits (R156) -/

theorem walks_decBit_ofBool (t : Bool) : Walks (.decBit (BitVec.ofBool t)) [t] := by
  have h : bitOperand (BitVec.ofBool t) = t := by cases t <;> rfl
  exact .inl ⟨_, rfl, by rw [h]⟩

/-- One DEC_BIT per bit, one bit at least, does what the bits do. -/
theorem runAll_decBits (t : Bool) (c : Code) (s : State) :
    runAll ((t :: c).map fun t => .decBit (BitVec.ofBool t)) s = .next (s.decoded (t :: c)) := by
  induction c generalizing t s with
  | nil => rw [List.map_singleton, runAll_cons, (walks_decBit_ofBool t).exec_eq]; rfl
  | cons u c ih =>
    rw [List.map_cons, runAll_cons, (walks_decBit_ofBool t).exec_eq, continueWith_next, ih, decoded_decoded]
    rfl

/-- DEC_BYTE is its eight bits, in every phase. -/
theorem exec_decByte_eq_runAll (b : Byte) (s : State) :
    exec (.decByte b) s = runAll ((byteBits b).map fun t => .decBit (BitVec.ofBool t)) s :=
  ((walks_decByte b).exec_eq s).trans (runAll_decBits ..).symm

/-- Settles O34: unit by unit, for a DEC_BYTE is the DEC_BITs of its bits from every state. -/
theorem decBytesAreTheirBits : Obligations.DecBytesAreTheirBits := by
  intro units s
  induction units generalizing s with
  | nil => rfl
  | cons u units ih =>
    rw [List.map_cons, runAll_cons, List.flatMap_cons, runAll_append, funext ih]
    cases u with
    | inl t => simp only [runAll_cons, continueWith_assoc]; rfl
    | inr b => exact congrArg (continueWith · _) (exec_decByte_eq_runAll b s)

/-! ## The end of the payload (R154, R157) -/

theorem gateOf_decEnd {p : Phase} (hdone : p ≠ .decDone) (hhdr : p ≠ .hdr) :
    gateOf .decEnd p = p.legalIn [.tree, .dec] := by
  rw [gateOf, if_neg hdone, if_neg hhdr]

theorem noEffect_decEnd (hs : s.phase = .decDone ∨ s.phase = .fault) : NoEffect .decEnd s :=
  noEffect_of_gateOf (by rcases hs with h | h <;> rw [h] <;> rfl)

theorem raises_decEnd_of_walking (hs : s.phase = .tree ∨ s.phase = .dec) :
    Raises .decEnd .truncatedPayload s := by
  have hg : gateOf .decEnd s.phase = .run := by rcases hs with h | h <;> rw [h] <;> rfl
  rw [Raises, exec_eq_command, command_of_run hg, ruleOf, fail_eq_faulted _ (by rcases hs with h | h <;> simp [h])]

/-- Settles O35: ERR is 0 outside FAULT (R22), and the gates let nothing happen. -/
theorem decDoneIgnoresInput : Obligations.DecDoneIgnoresInput := by
  intro s hs
  refine ⟨fun t => (walks_decBit t).noEffect (.inl hs), fun b => (walks_decByte b).noEffect (.inl hs),
    noEffect_decEnd (.inl hs), fun hc => ?_⟩
  by_contra herr
  have hf := hc.errInFault.1 herr
  rw [hs] at hf
  cases hf

/-- Settles O36: by the gate of DEC_END, phase by phase. -/
theorem decEndReportsTheEnd : Obligations.DecEndReportsTheEnd := by
  refine ⟨⟨by decide, by decide⟩, fun s => ⟨fun hs => noEffect_decEnd (.inl hs), raises_decEnd_of_walking,
    fun hs => raises_of_gateOf (by rw [hs]; rfl), fun hs => ?_, fun hs => noEffect_decEnd (.inr hs)⟩⟩
  simp only [List.mem_cons, List.not_mem_nil, or_false, not_or] at hs
  obtain ⟨hdone, htree, hdec, hhdr, hf⟩ := hs
  refine raises_of_gateOf ?_
  rw [gateOf_decEnd hdone hhdr, Phase.legalIn_eq_raises (by simp [htree, hdec]) hf]

end Sys2Proof.Machine
end

section
/-! The header read back (spec/45_serializer.md rules R166, R170, R174): HDR_BYTE field by field, entry by entry, and
a whole header. -/

namespace Sys2Proof.Machine

open Sys2Proof.Safety

variable {s : State} {b : Byte} {k j n x : Nat} {c : Count} {ft : List (Nat × Count)}

/-! ## Fields put together from their bytes (R56, R170) -/

theorem toNat_highByte_or_lowByte (b b' : Byte) :
    (highByte b ||| lowByte b').toNat = 2 ^ 8 * b.toNat + b'.toNat := by
  have hlow : lowByte b' = 0#8 ++ b' := by
    apply BitVec.eq_of_toNat_eq
    rw [lowByte, BitVec.toNat_setWidth_of_le (by decide), toNat_concat]
    simp
  rw [highByte, hlow, BitVec.or_append, BitVec.or_zero, BitVec.zero_or, toNat_concat]

/-- A 16-bit field from its two bytes. -/
theorem highByte_or_lowByte_ofNat (h : x < 2 ^ 16) :
    highByte (BitVec.ofNat 8 (x / 256)) ||| lowByte (BitVec.ofNat 8 x) = BitVec.ofNat 16 x := by
  apply BitVec.eq_of_toNat_eq
  simp only [toNat_highByte_or_lowByte, BitVec.toNat_ofNat]
  omega

theorem toNat_shiftInByte (c : BitVec 32) (b : Byte) :
    (shiftInByte c b).toNat = c.toNat % 2 ^ 24 * 2 ^ 8 + b.toNat := by
  have hconcat : shiftInByte c b = c.setWidth 24 ++ b := by
    apply BitVec.eq_of_getLsbD_eq
    intro i hi
    rw [shiftInByte, BitVec.getLsbD_or, BitVec.getLsbD_shiftLeft, BitVec.getLsbD_setWidth,
      BitVec.getLsbD_append, BitVec.getLsbD_setWidth]
    by_cases h8 : i < 8
    · simp [h8, hi]
    · have hb : b.getLsbD i = false := BitVec.getLsbD_of_ge b i (by omega)
      have h24 : i - 8 < 24 := by omega
      simp [h8, hi, hb, h24]
  rw [hconcat, toNat_concat, BitVec.toNat_setWidth, Nat.mul_comm]

/-- A 32-bit field from its four bytes, whatever the register held. -/
theorem shiftInByte_ofNat (c c' : BitVec 32) :
    shiftInByte (shiftInByte (shiftInByte (shiftInByte c' (BitVec.ofNat 8 (c.toNat / 2 ^ 24)))
      (BitVec.ofNat 8 (c.toNat / 2 ^ 16))) (BitVec.ofNat 8 (c.toNat / 2 ^ 8))) (BitVec.ofNat 8 c.toNat) = c := by
  have hlt := c.isLt
  apply BitVec.eq_of_toNat_eq
  simp only [toNat_shiftInByte, BitVec.toNat_ofNat]
  omega

/-! ## One byte (R170) -/

/-- In IDLE and HDR, HDR_BYTE writes PHASE and HPOS and goes by the position of the byte. -/
theorem exec_hdrByte (hs : s.phase = .idle ∨ s.phase = .hdr) : exec (.hdrByte b) s =
    hdrByteAt b s.hpos.toNat { s with phase := .hdr, hpos := s.hpos + 1 } :=
  exec_of_legal (fun _ => rfl) (by simpa using hs) (by rcases hs with h | h <;> simp [h])

/-- The state after a byte of a header that completes nothing, `p` bytes having come. -/
def State.inHeader (s : State) (p : Nat) (hn hsym : BitVec 16) (hcnt : BitVec 32) : State :=
  responded 0 { s with phase := .hdr, hpos := BitVec.ofNat 11 p, hn := hn, hsym := hsym, hcnt := hcnt }

/-- Byte `j` of entry `k`, the entries before it having come. -/
theorem exec_hdrByte_entry (hs : s.phase = .hdr) (hp : s.hpos = BitVec.ofNat 11 (2 + 6 * k + j))
    (hk : k < Config.nsym) (hj : j < 6) : exec (.hdrByte b) s =
      entryByte b k j { s with phase := .hdr, hpos := BitVec.ofNat 11 (2 + 6 * k + j + 1) } := by
  have hk' : k < 257 := hk
  have hpos : s.hpos.toNat = 2 + 6 * k + j := by rw [hp, BitVec.toNat_ofNat]; omega
  have hentry : (2 + 6 * k + j - 2) / 6 = k := by omega
  have hbyte : (2 + 6 * k + j - 2) % 6 = j := by omega
  rw [exec_hdrByte (.inr hs), hpos, hdrByteAt, if_neg (by omega), if_neg (by omega), hentry, hbyte, hp,
    BitVec.ofNat_add (2 + 6 * k + j)]
  rfl

/-- The second byte of a symbol that passes the tests of R171 (b), (c) and (d). -/
theorem checkSymbol_of_valid (hx : s.hsym.toNat ≤ Config.eof) (hprev : 0 < k → s.hprev.toNat < s.hsym.toNat)
    (hlast : k + 1 = s.hn.toNat → s.hsym.toNat = Config.eof) : checkSymbol k s = done s := by
  rw [checkSymbol, if_neg (Nat.not_lt.2 hx), if_neg (fun h => Nat.not_lt.2 h.2 (hprev h.1)),
    if_neg (fun h => h.2 (hlast h.1))]

/-- The last byte of a count that passes the test of R171 (e). -/
theorem storeEntry_of_valid (hc : s.hcnt ≠ 0) (hx : s.hsym.toNat < Config.nsym) :
    storeEntry k s = .next (responded 0 { s with
      ft := Memory.write s.ft s.hsym.toNat s.hcnt, ftN := s.ftN + 1, hprev := s.hsym,
      phase := if k + 1 = s.hn.toNat then .table else s.phase }) := by
  rw [storeEntry, if_neg hc, if_neg (Nat.not_le.2 hx)]
  rfl

/-! ## One entry (R166, R170) -/

/-- The state after the last byte of entry `k`. -/
def State.entryStored (s : State) (k x : Nat) (c : Count) : State :=
  responded 0 { s with
    hpos := BitVec.ofNat 11 (2 + 6 * (k + 1)), hsym := BitVec.ofNat 16 x, hcnt := c, hprev := BitVec.ofNat 16 x,
    ft := Memory.write s.ft x c, ftN := s.ftN + 1, phase := if k + 1 = s.hn.toNat then .table else .hdr }

theorem toNat_ofNat_symbol (hx : x ≤ Config.eof) : (BitVec.ofNat 16 x).toNat = x := by
  have hx' : x ≤ 256 := hx
  rw [BitVec.toNat_ofNat]
  omega

/-- The two bytes of a symbol. -/
theorem runAll_symbolBytes (hs : s.phase = .hdr) (hp : s.hpos = BitVec.ofNat 11 (2 + 6 * k))
    (hk : k < Config.nsym) (hx : x ≤ Config.eof) (hprev : 0 < k → s.hprev.toNat < x)
    (hlast : k + 1 = s.hn.toNat → x = Config.eof) :
    runAll ([BitVec.ofNat 8 (x / 256), BitVec.ofNat 8 x].map .hdrByte) s =
      .next (s.inHeader (2 + 6 * k + 2) s.hn (BitVec.ofNat 16 x) s.hcnt) := by
  have hx' : x ≤ 256 := hx
  have hfirst : exec (.hdrByte (BitVec.ofNat 8 (x / 256))) s =
      .next (s.inHeader (2 + 6 * k + 1) s.hn (highByte (BitVec.ofNat 8 (x / 256))) s.hcnt) :=
    exec_hdrByte_entry (j := 0) hs hp hk (by decide)
  have hsecond := exec_hdrByte_entry (j := 1) (b := BitVec.ofNat 8 x)
    (s := s.inHeader (2 + 6 * k + 1) s.hn (highByte (BitVec.ofNat 8 (x / 256))) s.hcnt) rfl rfl hk (by decide)
  have hfield := highByte_or_lowByte_ofNat (x := x) (by omega)
  have hnum := toNat_ofNat_symbol hx
  rw [List.map_cons, List.map_singleton, runAll_cons, hfirst, continueWith_next, runAll_cons, hsecond, entryByte,
    if_neg (by decide), if_pos rfl, checkSymbol_of_valid]
  all_goals simp only [State.inHeader, responded, hfield, hnum]
  · rfl
  · exact hx
  · exact hprev
  · exact hlast

/-- A byte of a count but the last. -/
theorem exec_hdrByte_countByte {j' : Nat} (hs : s.phase = .hdr) (hp : s.hpos = BitVec.ofNat 11 (2 + 6 * k + j))
    (hk : k < Config.nsym) (hj : j = 2 ∨ j = 3 ∨ j = 4) (hj' : j' = j + 1) :
    exec (.hdrByte b) s = .next (s.inHeader (2 + 6 * k + j') s.hn s.hsym (shiftInByte s.hcnt b)) := by
  rw [exec_hdrByte_entry hs hp hk (by omega), hj']
  rcases hj with rfl | rfl | rfl <;> rfl

/-- The last byte of a count. -/
theorem exec_hdrByte_lastByte (hs : s.phase = .hdr) (hp : s.hpos = BitVec.ofNat 11 (2 + 6 * k + 5))
    (hk : k < Config.nsym) (hx : s.hsym.toNat < Config.nsym) (hc : shiftInByte s.hcnt b = c) (hne : c ≠ 0) :
    exec (.hdrByte b) s = .next (responded 0 { s with
      hpos := BitVec.ofNat 11 (2 + 6 * (k + 1)), hcnt := c, hprev := s.hsym,
      ft := Memory.write s.ft s.hsym.toNat c, ftN := s.ftN + 1,
      phase := if k + 1 = s.hn.toNat then .table else .hdr }) := by
  rw [exec_hdrByte_entry hs hp hk (by decide), entryByte, if_neg (by decide), if_neg (by decide), if_pos rfl, hc]
  exact storeEntry_of_valid hne hx

/-- The four bytes of a count. -/
theorem runAll_countBytes {b₀ b₁ b₂ b₃ : Byte} (hs : s.phase = .hdr)
    (hp : s.hpos = BitVec.ofNat 11 (2 + 6 * k + 2)) (hk : k < Config.nsym) (hx : s.hsym.toNat < Config.nsym)
    (hc : shiftInByte (shiftInByte (shiftInByte (shiftInByte s.hcnt b₀) b₁) b₂) b₃ = c) (hne : c ≠ 0) :
    runAll ([b₀, b₁, b₂, b₃].map .hdrByte) s = .next (responded 0 { s with
      hpos := BitVec.ofNat 11 (2 + 6 * (k + 1)), hcnt := c, hprev := s.hsym,
      ft := Memory.write s.ft s.hsym.toNat c, ftN := s.ftN + 1,
      phase := if k + 1 = s.hn.toNat then .table else .hdr }) := by
  simp only [List.map_cons, List.map_nil]
  rw [runAll_cons, exec_hdrByte_countByte (j := 2) (j' := 3) hs hp hk (by decide) rfl, continueWith_next,
    runAll_cons, exec_hdrByte_countByte (j := 3) (j' := 4) rfl rfl hk (by decide) rfl, continueWith_next,
    runAll_cons, exec_hdrByte_countByte (j := 4) (j' := 5) rfl rfl hk (by decide) rfl, continueWith_next,
    runAll_cons, exec_hdrByte_lastByte (k := k) ?_ ?_ hk ?_ ?_ hne]
  · rfl
  · rfl
  · rfl
  · exact hx
  · exact hc

/-- The six bytes of an entry that keeps the order of R171. -/
theorem runAll_entryBytes (hs : s.phase = .hdr) (hp : s.hpos = BitVec.ofNat 11 (2 + 6 * k))
    (hk : k < Config.nsym) (hx : x ≤ Config.eof) (hprev : 0 < k → s.hprev.toNat < x)
    (hlast : k + 1 = s.hn.toNat → x = Config.eof) (hc : c ≠ 0) :
    runAll ((entryBytes x c).map .hdrByte) s = .next (s.entryStored k x c) := by
  have hnum := toNat_ofNat_symbol hx
  have hsym := runAll_symbolBytes hs hp hk hx hprev hlast
  have hcount := runAll_countBytes (k := k) (s := s.inHeader (2 + 6 * k + 2) s.hn (BitVec.ofNat 16 x) s.hcnt) rfl rfl
    hk (hnum.trans_lt (Nat.lt_succ_of_le hx)) (shiftInByte_ofNat c s.hcnt) hc
  have hsplit : entryBytes x c = [BitVec.ofNat 8 (x / 256), BitVec.ofNat 8 x] ++
    [BitVec.ofNat 8 (c.toNat / 2 ^ 24), BitVec.ofNat 8 (c.toNat / 2 ^ 16), BitVec.ofNat 8 (c.toNat / 2 ^ 8),
      BitVec.ofNat 8 c.toNat] := rfl
  rw [hsplit, List.map_append, runAll_append, hsym, continueWith_next, hcount, State.entryStored, ← hnum]
  simp only [State.inHeader, responded, hnum]

/-! ## The entries in order, and the whole header (R166, R174) -/

/-- A write above every entry comes last. -/
theorem Memory.write_of_lt {α : Type} {m : List (Nat × α)} {i : Nat} (h : ∀ e ∈ m, e.1 < i) (v : α) :
    Memory.write m i v = m ++ [(i, v)] := by
  induction m with
  | nil => rfl
  | cons e m ih =>
    obtain ⟨he, hm⟩ := List.forall_mem_cons.1 h
    rw [Memory.write, if_neg (Nat.lt_asymm he), if_neg (Nat.ne_of_gt he), ih hm, List.cons_append]

/-- The state after the whole header of the table `ft`, in which the sentinel has count `c` (R174). -/
def State.headerRead (s : State) (ft : List (Nat × Count)) (c : Count) : State :=
  responded 0 { s with
    phase := .table, ft := ft, ftN := BitVec.ofNat 9 ft.length, hpos := BitVec.ofNat 11 (2 + 6 * ft.length),
    hn := BitVec.ofNat 16 ft.length, hsym := 256, hcnt := c, hprev := 256 }

/-- The state between two entries of a header of `n` entries: those in `ft` are stored. -/
structure Receiving (n : Nat) (ft : List (Nat × Count)) (s : State) : Prop where
  phase : s.phase = .hdr
  hpos : s.hpos = BitVec.ofNat 11 (2 + 6 * ft.length)
  hn : s.hn = BitVec.ofNat 16 n
  table : s.ft = ft
  number : s.ftN = BitVec.ofNat 9 ft.length
  /-- HPREV is the last symbol stored. -/
  hprev : ∀ e, ft.getLast? = some e → s.hprev.toNat = e.1

/-- N fits its field (R171 (a)). -/
theorem toNat_ofNat_entryCount (hn : n ≤ Config.nsym) : (BitVec.ofNat 16 n).toNat = n := by
  have hn' : n ≤ 257 := hn
  rw [BitVec.toNat_ofNat]
  omega

/-- One more entry, above those stored, the sentinel's if it is the last. -/
theorem Receiving.runAll_entry (h : Receiving n ft s) (hn : n ≤ Config.nsym) (hlt : ft.length < n)
    (hx : x ≤ Config.eof) (habove : ∀ e ∈ ft, e.1 < x) (hlast : ft.length + 1 = n → x = Config.eof)
    (hc : c ≠ 0) : runAll ((entryBytes x c).map .hdrByte) s = .next (s.entryStored ft.length x c) := by
  refine runAll_entryBytes h.phase h.hpos (Nat.lt_of_lt_of_le hlt hn) hx (fun hpos => ?_) (fun hk => ?_) hc
  · have hne : ft ≠ [] := List.length_pos_iff.1 hpos
    rw [h.hprev _ (List.getLast?_eq_some_getLast hne)]
    exact habove _ (List.getLast_mem hne)
  · rw [h.hn, toNat_ofNat_entryCount hn] at hk
    exact hlast hk

/-- Before the last entry, one more entry is stored after the others. -/
theorem Receiving.entryStored (h : Receiving n ft s) (hn : n ≤ Config.nsym) (hlt : ft.length + 1 < n)
    (hx : x ≤ Config.eof) (habove : ∀ e ∈ ft, e.1 < x) :
    Receiving n (ft ++ [(x, c)]) (s.entryStored ft.length x c) := by
  refine ⟨?_, ?_, h.hn, ?_, ?_, fun e he => ?_⟩
  · refine if_neg ?_
    rw [h.hn, toNat_ofNat_entryCount hn]
    omega
  · rw [List.length_append, List.length_singleton]; rfl
  · rw [← Memory.write_of_lt habove, ← h.table]; rfl
  · rw [List.length_append, List.length_singleton, BitVec.ofNat_add, ← h.number]; rfl
  · obtain rfl : (x, c) = e := by simpa using he
    exact toNat_ofNat_symbol hx

/-- After the last entry, the sentinel's, the header is complete. -/
theorem Receiving.entryStored_last (h : Receiving n ft s) (hn : n ≤ Config.nsym) (hlt : ft.length + 1 = n)
    (habove : ∀ e ∈ ft, e.1 < Config.eof) :
    s.entryStored ft.length Config.eof c = s.headerRead (ft ++ [(Config.eof, c)]) c := by
  have hlen : (ft ++ [(Config.eof, c)]).length = ft.length + 1 := by simp
  rw [State.entryStored, State.headerRead, if_pos (by rw [h.hn, toNat_ofNat_entryCount hn, hlt]), hlen, hlt, ← h.hn,
    ← Memory.write_of_lt habove, h.table, h.number, ← hlt,
    BitVec.ofNat_add ft.length 1]
  rfl

/-- What a header leaves depends on no register it has written before. -/
theorem headerRead_entryStored (s : State) (k x : Nat) (c c' : Count) (ft : List (Nat × Count)) :
    (s.entryStored k x c).headerRead ft c' = s.headerRead ft c' := rfl

/-- The rest of the entries of a canonical table. -/
theorem Receiving.runAll_entries {rest : List (Nat × Count)} (h : Receiving (ft ++ rest).length ft s)
    (hwf : Memory.wf Config.nsym (ft ++ rest)) (hpos : ∀ e ∈ rest, e.2 ≠ 0)
    (heof : Memory.read rest Config.eof = some c) :
    runAll ((rest.flatMap fun e => entryBytes e.1 e.2).map .hdrByte) s = .next (s.headerRead (ft ++ rest) c) := by
  have hn : (ft ++ rest).length ≤ Config.nsym := Memory.length_le hwf
  induction rest generalizing ft s with
  | nil => cases heof
  | cons e rest ih =>
    obtain ⟨x, c'⟩ := e
    obtain ⟨hc', hpos'⟩ := List.forall_mem_cons.1 hpos
    have hlen : (ft ++ (x, c') :: rest).length = ft.length + 1 + rest.length := by
      rw [List.length_append, List.length_cons]; omega
    have hx : x ≤ Config.eof := Nat.le_of_lt_succ (hwf.2 (x, c') (by simp))
    have hsorted := hwf.1
    rw [List.map_append, List.map_cons, List.pairwise_append, List.pairwise_cons] at hsorted
    obtain ⟨-, ⟨hbelow, -⟩, habove⟩ := hsorted
    have habove' : ∀ e ∈ ft, e.1 < x := fun e he => habove _ (List.mem_map_of_mem he) _ List.mem_cons_self
    rw [List.flatMap_cons, List.map_append, runAll_append]
    cases rest with
    | nil =>
      rw [Memory.read_cons] at heof
      split at heof
      · obtain rfl : c' = c := Option.some.inj heof
        subst x
        rw [h.runAll_entry hn (by omega) hx habove' (fun _ => rfl) hc', continueWith_next,
          h.entryStored_last hn hlen.symm habove']
        rfl
      · cases heof
    | cons e rest =>
      have hxe : x < e.1 := hbelow _ (by simp)
      have he : e.1 ≤ Config.eof := Nat.le_of_lt_succ (hwf.2 e (by simp))
      have hmore : ft.length + 1 < (ft ++ (x, c') :: e :: rest).length := by rw [hlen, List.length_cons]; omega
      have hsplit : ft ++ (x, c') :: e :: rest = ft ++ [(x, c')] ++ e :: rest := by simp
      rw [h.runAll_entry hn (by omega) hx habove' (fun h => absurd h hmore.ne) hc', continueWith_next]
      have hnext := h.entryStored (c := c') hn hmore hx habove'
      rw [hsplit] at hnext hwf hn ⊢
      rw [Memory.read_cons, if_neg (by omega)] at heof
      rw [ih hnext hwf hpos' heof hn, headerRead_entryStored]

/-- The two bytes of N, from a state in which no header byte has come. -/
theorem runAll_entryCountBytes (hs : s.phase = .idle) (hp : s.hpos = 0) (hn : 1 ≤ n) (hn' : n ≤ Config.nsym) :
    runAll ([BitVec.ofNat 8 (n / 256), BitVec.ofNat 8 n].map .hdrByte) s =
      .next (s.inHeader 2 (BitVec.ofNat 16 n) s.hsym s.hcnt) := by
  have hfirst : exec (.hdrByte (BitVec.ofNat 8 (n / 256))) s =
      .next (s.inHeader 1 (highByte (BitVec.ofNat 8 (n / 256))) s.hsym s.hcnt) := by
    rw [exec_hdrByte (.inl hs), hp]; rfl
  have hnum := toNat_ofNat_entryCount hn'
  have hfield := highByte_or_lowByte_ofNat (x := n) (Nat.lt_of_le_of_lt hn' (by decide))
  have hok : ¬ (BitVec.ofNat 16 n = 0 ∨ Config.nsym < (BitVec.ofNat 16 n).toNat) := by
    rw [hnum]
    rintro (h0 | h)
    · rw [h0] at hnum; exact absurd hnum (Nat.ne_of_lt hn)
    · omega
  rw [List.map_cons, List.map_singleton, runAll_cons, hfirst, continueWith_next, runAll_cons,
    exec_hdrByte (.inr rfl)]
  change continueWith (checkEntryCount { s.inHeader 2 _ s.hsym s.hcnt with
    hn := highByte (BitVec.ofNat 8 (n / 256)) ||| lowByte (BitVec.ofNat 8 n) }) _ = _
  rw [hfield, checkEntryCount, if_neg hok]
  rfl

/-- The header of a canonical table with the sentinel, read in a state with an empty table (R174). -/
theorem runAll_headerBytes (hs : s.phase = .idle) (hp : s.hpos = 0) (hft : s.ft = []) (hftN : s.ftN = 0)
    (hwf : Memory.wf Config.nsym ft) (hpos : ∀ e ∈ ft, e.2 ≠ 0) (heof : Memory.read ft Config.eof = some c) :
    runAll ((headerBytes ft).map .hdrByte) s = .next (s.headerRead ft c) := by
  have hlen : 1 ≤ ft.length := List.length_pos_of_mem (Memory.mem_of_read heof)
  have hstart : Receiving ft.length [] (s.inHeader 2 (BitVec.ofNat 16 ft.length) s.hsym s.hcnt) :=
    ⟨rfl, rfl, rfl, hft, hftN, nofun⟩
  have hsplit : headerBytes ft = [BitVec.ofNat 8 (ft.length / 256), BitVec.ofNat 8 ft.length] ++
    ft.flatMap fun e => entryBytes e.1 e.2 := rfl
  rw [hsplit, List.map_append, runAll_append, runAll_entryCountBytes hs hp hlen (Memory.length_le hwf),
    continueWith_next]
  exact hstart.runAll_entries (ft := []) (rest := ft) hwf hpos heof

end Sys2Proof.Machine
end

section
/-! Decompressing what was compressed (spec/44_decoder_unpacker.md rule R158, spec/46_control.md rules R193, R194):
DECOMPRESS as its commands, the state COMPRESS encodes in, and the round trip. -/

namespace Sys2Proof.Machine

open Sys2Proof.Safety

variable {s t : State} {extra : Nat} {bs p : List Byte} {ft : List (Nat × Count)} {nodes : List Node} {r : Nat}

/-! ## DECOMPRESS, part by part (R194) -/

/-- The host sees PHASE as it stands: the last response is that of the last command (R90). -/
def ShowsItsPhase (s : State) : Prop := ∀ q, showsPhase q s = decide (s.phase = q)

theorem showsItsPhase_responded (data : RData) (s : State) : ShowsItsPhase (responded data s) :=
  fun q => showsPhase_responded q data s

theorem showsItsPhase_of_exec {i : Instr} (h : exec i s = .next t) : ShowsItsPhase t := by
  obtain ⟨data, u, rfl, -⟩ := (exec_effect h).responds
  exact showsItsPhase_responded data u

/-- No HDR_BYTE leads out of FAULT (R187). -/
theorem runAll_hdrBytes_of_fault (hs : s.phase = .fault) (h : runAll (bs.map .hdrByte) s = .next t) :
    t.phase = .fault := by
  induction bs generalizing s with
  | nil =>
    obtain rfl : s = t := by simpa using h
    exact hs
  | cons b bs ih =>
    have hexec : NoEffect (.hdrByte b) s := silentInFault_of_gateOf (fun _ => rfl) s hs
    rw [List.map_cons, runAll_cons, hexec, continueWith_next] at h
    exact ih (s := responded 0 s) hs h

/-- While header bytes raise nothing, the host sends them all (R194). -/
theorem sendHeader_append (hshow : ShowsItsPhase s) (hrun : runAll (bs.map .hdrByte) s = .next t)
    (ht : t.phase ≠ .fault) : sendHeader extra (bs ++ p) s = sendHeader extra p t := by
  induction bs generalizing s with
  | nil =>
    obtain rfl : s = t := by simpa using hrun
    rfl
  | cons b bs ih =>
    obtain ⟨s', hexec, hrun'⟩ := continueWith_eq_next.1 hrun
    have hfault : s.phase ≠ .fault := fun hs => ht (runAll_hdrBytes_of_fault (bs := b :: bs) hs hrun)
    have htable : s.phase ≠ .table := by
      intro hs
      have hraise : Raises (.hdrByte b) .illegalCommand s :=
        illegalOutside_of_gateOf (legal := [.idle, .hdr]) (fun _ => rfl) s (by simp [hs]) hfault
      obtain rfl : faulted .illegalCommand s = s' := by
        simpa only [Host.Outcome.next.injEq] using Eq.trans hraise.symm hexec
      exact ht (runAll_hdrBytes_of_fault rfl hrun')
    rw [List.cons_append, sendHeader, hshow, hshow, decide_eq_false htable, decide_eq_false hfault]
    exact (congrArg (continueWith · _) hexec).trans (ih (showsItsPhase_of_exec hexec) hrun')

/-- Once the host sees TABLE, it builds the tree and sends the rest (R194). -/
theorem sendHeader_of_table (hshow : ShowsItsPhase s) (hs : s.phase = .table) :
    sendHeader extra p s = sendAfterHeader extra p s := by
  have htable : showsPhase .table s = true := (hshow _).trans (decide_eq_true hs)
  cases p <;> rw [sendHeader, htable] <;> rfl

/-- The end of the payload after no bits. -/
theorem exec_decEnd_decoded_nil (hs : s.phase ∈ [.tree, .dec, .decDone, .fault]) :
    exec .decEnd (s.decoded []) = exec .decEnd s := by
  rcases decoding_phases s.phase with hw | hsil | ⟨hill, hf⟩
  · have hnil : s.walked [] = { s with phase := .dec } := by
      rw [walked_of_some rfl]; simp only [decodeBits, List.append_nil]
    rw [decoded_of_walking hw, hnil, raises_decEnd_of_walking hw, raises_decEnd_of_walking (.inr rfl)]
    rfl
  · rw [decoded_of_silent hsil, noEffect_decEnd hsil, noEffect_decEnd (s := responded 0 s) hsil]
    rfl
  · simp only [List.mem_cons, List.not_mem_nil, or_false] at hs hill
    tauto

/-- No bits lead out of the phases from TREE on (R153). -/
theorem phase_decoded (bits : Code) (hs : s.phase ∈ [.tree, .dec, .decDone, .fault]) :
    (s.decoded bits).phase ∈ [.tree, .dec, .decDone, .fault] := by
  rcases decoding_phases s.phase with hw | hsil | ⟨hill, hf⟩
  · rw [decoded_of_walking hw, State.walked]
    rcases decodeBits s.node s.root s.cur bits with ⟨bs, _ | cur⟩ <;> simp [responded]
  · rw [decoded_of_silent hsil]; exact hs
  · rw [decoded_of_illegal hill hf]; simp [faulted]

/-- From TREE on, the payload does what its bits do, however early the host stops after DEC_DONE (R154, R194). -/
theorem sendPayload_eq (hshow : ShowsItsPhase s) (hs : s.phase ∈ [.tree, .dec, .decDone, .fault]) :
    sendPayload extra bs s = exec .decEnd (s.decoded (bytesBits bs)) := by
  induction bs generalizing extra s with
  | nil => rw [sendPayload]; exact (exec_decEnd_decoded_nil hs).symm
  | cons b bs ih =>
    have hbyte := (walks_decByte b).exec_eq s
    have hsend : ∀ extra, continueWith (exec (.decByte b) s) (sendPayload extra bs) =
        exec .decEnd (s.decoded (bytesBits (b :: bs))) := fun extra => by
      rw [hbyte, continueWith_next, ih (showsItsPhase_of_exec hbyte) (phase_decoded _ hs), decoded_decoded]
      rfl
    cases extra with
    | zero =>
      rw [sendPayload]
      split
      · have hdone : s.phase = .decDone := of_decide_eq_true ((hshow _).symm.trans ‹_›)
        rw [decoded_of_silent (.inl hdone), noEffect_decEnd (.inl hdone),
          noEffect_decEnd (s := responded 0 s) (.inl hdone)]
        rfl
      · exact hsend 0
    | succ extra =>
      rw [sendPayload]
      split
      · exact hsend extra
      · exact hsend (extra + 1)

/-- The state DECOMPRESS decodes the payload in, after the header of the table `ft` (R194). -/
def State.decoderReady (s : State) (ft : List (Nat × Count)) (c : Count) (nodes : List Node) (r : Nat) : State :=
  responded 0 (((s.cleared.respond 0).headerRead ft c).withTree nodes r)

/-- DECOMPRESS of the header of a canonical table with the sentinel, then any bytes. -/
theorem decompress_headerBytes {c : Count} (hwf : Memory.wf Config.nsym ft) (hpos : ∀ e ∈ ft, e.2 ≠ 0)
    (heof : Memory.read ft Config.eof = some c) (hbuilt : builtTree ft = (nodes, [r])) (s : State) :
    decompress extra (headerBytes ft ++ p) s =
      exec .decEnd ((s.decoderReady ft c nodes r).decoded (bytesBits p)) := by
  have hclear := exec_clear s
  have hread := runAll_headerBytes (s := s.cleared.respond 0) rfl rfl rfl rfl hwf hpos heof
  have hshow : ShowsItsPhase ((s.cleared.respond 0).headerRead ft c) := showsItsPhase_responded 0 _
  have hbuild : exec .buildTree ((s.cleared.respond 0).headerRead ft c) = .next (s.decoderReady ft c nodes r) :=
    (exec_buildTree_of_table rfl).trans (buildTreeRule_of_built hbuilt)
  rw [decompress, hclear, continueWith_next, sendHeader_append (showsItsPhase_of_exec hclear) hread nofun,
    sendHeader_of_table hshow rfl, sendAfterHeader, hbuild, continueWith_next,
    sendPayload_eq (showsItsPhase_of_exec hbuild) (by simp [State.decoderReady, State.withTree, responded])]

/-! ## COMPRESS up to the first ENC_BYTE (R193) -/

/-- The commands of COMPRESS before the first ENC_BYTE. -/
def setupCommands (counted : List Byte) : List Instr :=
  .clear :: (counted.map .freqByte ++ [.freqEnd]) ++ [.buildTree, .buildCodes, .hdrEmit]

theorem compressCommands_eq (counted encoded : List Byte) :
    compressCommands counted encoded = setupCommands counted ++ (encoded.map .encByte ++ [.encEnd]) := by
  simp [compressCommands, setupCommands]

/-- The state in which COMPRESS encodes: the table of the bytes counted, its tree and codes, and its header in OUT. -/
structure EncoderReady (counted : List Byte) (t : State) : Prop where
  phase : t.phase = .codes
  err : t.err = .none
  table : Tallies (passSymbols counted) t.ft
  header : t.out = headerBytes t.ft
  packer : t.nb = 0 ∧ t.acc = 0
  /-- The tree is the one BUILD_TREE builds from the table. -/
  tree : ∃ r, builtTree t.ft = (t.node, [r]) ∧ t.root = BitVec.ofNat 10 r
  /-- The root is an internal node (R116). -/
  root : symAt t.node t.root = Config.nas
  /-- The symbols with a code are those of the table (R127). -/
  valid : ∀ x, t.ctValid x = (Memory.read t.ft x).isSome
  /-- Their codes are the leaf paths of the tree (R128). -/
  paths : ∀ x, t.ctValid x = true → LeafPath t.node t.root x (codeOf t x)

/-- Every count of a tally is at least 1. -/
theorem Tallies.ne_zero {L : List Nat} (h : Tallies L ft) : ∀ e ∈ ft, e.2 ≠ 0 := by
  rintro ⟨x, c⟩ he rfl
  have hread := Memory.read_of_mem h.form he
  have hx : x ∈ L := by
    by_contra hx
    rw [h.read_eq_none_iff.2 hx] at hread
    cases hread
  have hcount := h.toNat_of_read hread
  exact absurd hcount.symm (List.count_pos_iff.2 hx).ne'

/-- After a counting pass the sentinel has count 1 (R101). -/
theorem Tallies.read_eof {S : List Byte} (h : Tallies (passSymbols S) ft) :
    Memory.read ft Config.eof = some 1 := by
  rw [h.read_eq, count_eof_passSymbols]
  exact if_pos List.mem_cons_self

/-- The root of a built tree, the last node, is internal, and fits its register (R116, R117). -/
theorem arena_root (hwf : Memory.wf Config.nsym ft) (A : Arena ft nodes) :
    (BitVec.ofNat 10 (2 * leafCount ft - 2)).toNat + 1 = nodes.length ∧
      symAt nodes (BitVec.ofNat 10 (2 * leafCount ft - 2)) = Config.nas := by
  have hL := leafCount_bounds hwf
  have hsize := A.size
  have hnum : (BitVec.ofNat 10 (2 * leafCount ft - 2)).toNat = 2 * leafCount ft - 2 := by
    rw [BitVec.toNat_ofNat]; omega
  refine ⟨by omega, ?_⟩
  rw [symAt, hnum]
  exact (A.internal _ (by omega) (by omega)).1

/-- HDR_EMIT appends the header of a canonical table (R166, R167). -/
theorem exec_hdrEmit (hs : s.phase ∈ [.table, .tree, .codes]) (hwf : Memory.wf Config.nsym s.ft)
    (hN : s.ftN.toNat = s.ft.length) :
    exec .hdrEmit s = .next (responded 0 { s with out := s.out ++ headerBytes s.ft }) := by
  rw [exec_of_legal (fun _ => rfl) hs (by rintro h; simp [h] at hs), ← headerOf_eq hwf hN]
  rfl

/-- The state BUILD_TREE leaves after a counting pass with the table `ft`. -/
def State.treeReady (s : State) (ft : List (Nat × Count)) (nodes : List Node) (r : Nat) : State :=
  responded 0 (((s.cleared.respond 0).counted ft .table).withTree nodes r)

/-- The state HDR_EMIT leaves after BUILD_CODES with the code table `ct`. -/
def State.encoderReady (s : State) (ft : List (Nat × Count)) (nodes : List Node) (r : Nat)
    (ct : List (Nat × CodeEntry)) : State :=
  responded 0 { s.treeReady ft nodes r with ct := ct, phase := .codes, out := headerBytes ft }

/-- The last three commands of the setup, from the table of a counting pass. -/
theorem runAll_afterCounting {ct : List (Nat × CodeEntry)} (hwf : Memory.wf Config.nsym ft)
    (hbuilt : builtTree ft = (nodes, [r]))
    (hvisit : visit nodes (Config.maxLen + 1) (BitVec.ofNat 10 r) [] [] = .ok ct) (s : State) :
    runAll [.buildTree, .buildCodes, .hdrEmit] ((s.cleared.respond 0).counted ft .table) =
      .next (s.encoderReady ft nodes r ct) := by
  have hlen : ft.length ≤ 257 := Memory.length_le hwf
  have hN : (BitVec.ofNat 9 ft.length).toNat = ft.length := by rw [BitVec.toNat_ofNat]; omega
  have hbuild : exec .buildTree ((s.cleared.respond 0).counted ft .table) = .next (s.treeReady ft nodes r) :=
    (exec_buildTree_of_table rfl).trans (buildTreeRule_of_built hbuilt)
  have hcodes := exec_buildCodes_of_tree (s := s.treeReady ft nodes r) rfl hvisit
  have hemit := exec_hdrEmit (s := responded 0 { s.treeReady ft nodes r with ct := ct, phase := .codes })
    (by simp [responded]) hwf hN
  rw [runAll_cons, hbuild, continueWith_next, runAll_cons, hcodes, continueWith_next, runAll_cons, hemit]
  rfl

/-- COMPRESS gets ready to encode, from any state, if no byte is counted too often (R193). -/
theorem runAll_setup {counted : List Byte} (hmax : ∀ b, counted.count b ≤ 2 ^ 32 - 1) (s : State) :
    ∃ t, runAll (setupCommands counted) s = .next t ∧ EncoderReady counted t := by
  obtain ⟨ft, hcount, hT⟩ := runAll_counting (s := s.cleared.respond 0) (L := []) counted (.inl rfl) rfl
    tallies_nil (by simpa using count_passSymbols_le hmax)
  rw [List.append_nil] at hT
  have hne : ft ≠ [] := List.ne_nil_of_mem (Memory.mem_of_read hT.read_eof)
  obtain ⟨nodes, hbuilt, A, -, -⟩ := builtTree_spec hT.form hne
  obtain ⟨hroot, hnas⟩ := arena_root hT.form A
  obtain ⟨ct, hvisit, -, hcomplete, hpaths⟩ := visit_root_spec hT.form hne A hroot
  refine ⟨s.encoderReady ft nodes (2 * leafCount ft - 2) ct, ?_, ?_⟩
  · rw [setupCommands, List.cons_append, runAll_cons, exec_clear, continueWith_next, runAll_append, hcount,
      continueWith_next, runAll_afterCounting hT.form hbuilt hvisit]
  · refine ⟨rfl, rfl, hT, rfl, ⟨rfl, rfl⟩, ⟨_, hbuilt, rfl⟩, hnas, hcomplete, fun x hx => ?_⟩
    obtain ⟨e, he, hcode⟩ := read_of_ctValid hx
    rw [hcode]
    exact (hpaths x e he).2

/-! ## The round trip (R158) -/

variable {counted encoded : List Byte}

/-- A byte counted has a code. -/
theorem EncoderReady.ctValid_of_mem (h : EncoderReady counted t) {b : Byte} (hb : b ∈ counted) :
    t.ctValid b.toNat = true := by
  rw [h.valid, h.table.read_eq, if_pos ((mem_passSymbols counted b).2 hb)]
  rfl

theorem EncoderReady.ctValid_eof (h : EncoderReady counted t) : t.ctValid Config.eof = true := by
  rw [h.valid, h.table.read_eof]
  rfl

/-- The payload, then any bits, decodes to the bytes encoded. -/
theorem EncoderReady.decodeBits_payload (h : EncoderReady counted t) (hsub : ∀ b ∈ encoded, b ∈ counted)
    (rest : Code) :
    decodeBits t.node t.root t.root (payloadBits t encoded ++ rest) = (encoded, none) :=
  decodeBits_message encoded h.root (fun b hb => h.paths _ (h.ctValid_of_mem (hsub b hb)))
    (h.paths _ h.ctValid_eof) rest

/-- Encoding completes with the payload's bits and fewer than 8 zeros behind the header. -/
theorem EncoderReady.runAll_encoding (h : EncoderReady counted t) (hsub : ∀ b ∈ encoded, b ∈ counted) :
    ∃ u bs n, runAll (encoded.map .encByte ++ [.encEnd]) t = .next u ∧ u.phase = .encDone ∧ u.err = .none ∧
      u.out = headerBytes t.ft ++ bs ∧
      n < 8 ∧ bytesBits bs = payloadBits t encoded ++ List.replicate n false := by
  obtain ⟨hnb, hacc⟩ := h.packer
  have hclean : PackerClean t.nb t.acc := by rw [hacc]; intro k _; simp
  have hempty : placedBits t.nb t.acc = [] := by rw [hnb]; rfl
  obtain ⟨bs, n, hrun, hn, hbits⟩ := Machine.runAll_encoding encoded (.inl h.phase)
    (fun b hb => h.ctValid_of_mem (hsub b hb)) h.ctValid_eof hclean
  exact ⟨_, bs, n, hrun, rfl, h.err, congrArg (· ++ bs) h.header, hn, by rw [hbits, hempty, List.nil_append]⟩

/-- DECOMPRESS of the container of a cycle ends in DEC_DONE with the bytes encoded. -/
theorem EncoderReady.decompress_container (h : EncoderReady counted t) (hsub : ∀ b ∈ encoded, b ∈ counted)
    {n : Nat} (hbits : bytesBits bs = payloadBits t encoded ++ List.replicate n false) (s : State) :
    ∃ u, (∀ extra rest, decompress extra (headerBytes t.ft ++ bs ++ rest) s = .next u) ∧
      u.phase = .decDone ∧ u.err = .none ∧ u.out = encoded := by
  obtain ⟨r, hbuilt, hroot⟩ := h.tree
  refine ⟨responded 0 { released (s.decoderReady t.ft 1 t.node r) with out := encoded, phase := .decDone },
    fun extra rest => ?_, rfl, rfl, rfl⟩
  have hdecode : decodeBits t.node (BitVec.ofNat 10 r) (BitVec.ofNat 10 r) (bytesBits (bs ++ rest)) =
      (encoded, none) := by
    have hpayload := h.decodeBits_payload hsub (List.replicate n false ++ bytesBits rest)
    rwa [← List.append_assoc, ← hbits, ← bytesBits_append, hroot] at hpayload
  have hdecoded := decoded_of_sentinel (s := s.decoderReady t.ft 1 t.node r) (.inl rfl) hdecode
  rw [List.append_assoc, decompress_headerBytes h.table.form h.table.ne_zero h.table.read_eof hbuilt, hdecoded]
  exact noEffect_decEnd (.inl rfl)

/-- Settles O38: the header gives the decoder the encoder's table, hence its tree, and along that tree the payload
decodes to the bytes encoded. -/
theorem decompressInvertsCompress : Obligations.DecompressInvertsCompress := by
  intro counted encoded s s' hsub hmax
  obtain ⟨t, hsetup, hready⟩ := runAll_setup hmax s
  obtain ⟨u, bs, n, hrun, hphase, herr, hout, -, hbits⟩ := hready.runAll_encoding hsub
  obtain ⟨v, hdecompress, hv⟩ := hready.decompress_container hsub hbits s'
  refine ⟨u, v, ?_, hphase, herr, fun extra rest => ?_, hv⟩
  · rw [compressCommands_eq, runAll_append, hsetup, continueWith_next, hrun]
  · rw [hout]; exact hdecompress extra rest

end Sys2Proof.Machine
end

section
/-! The serializer (spec/45_serializer.md rules R166, R167, R170): the header HDR_EMIT writes, and HDR_BYTE test by
test. -/

namespace Sys2Proof.Machine

open Sys2Proof.Safety

variable {s : State} {b : Byte} {k j p : Nat}

/-- Settles O41: the header of a canonical table is what HDR_EMIT appends, and the gate answers in the other
phases. -/
theorem hdrEmitAppendsTheHeader : Obligations.HdrEmitAppendsTheHeader := by
  refine ⟨⟨by decide, by decide⟩, fun s hc hs => ⟨exec_hdrEmit hs hc.ftForm hc.ftNumber, ?_⟩,
    illegalOutside_of_gateOf fun _ => rfl, silentInFault_of_gateOf (legal := [.table, .tree, .codes]) fun _ => rfl⟩
  rw [length_headerBytes, hc.ftNumber]

/-! ## The tests of HDR_BYTE (R170, R171) -/

/-- The high byte of a field, as the shift of R170. -/
theorem highByte_eq_shiftLeft (b : Byte) : highByte b = b.setWidth 16 <<< 8 := by
  apply BitVec.eq_of_toNat_eq
  have hb := b.isLt
  rw [highByte, toNat_concat, BitVec.toNat_shiftLeft, BitVec.toNat_setWidth_of_le (by decide), Nat.shiftLeft_eq,
    BitVec.toNat_zero]
  omega

/-- N out of range (R171 (a)). -/
theorem checkEntryCount_of_invalid (hn : s.hn = 0 ∨ Config.nsym < s.hn.toNat) (hf : s.phase ≠ .fault) :
    checkEntryCount s = .next (faulted .corruptHeader s) := by
  rw [checkEntryCount, if_pos hn, fail_eq_faulted _ hf]

/-- N in range (R171 (a)). -/
theorem checkEntryCount_of_valid (h0 : s.hn ≠ 0) (hn : s.hn.toNat ≤ Config.nsym) : checkEntryCount s = done s :=
  if_neg (not_or.2 ⟨h0, Nat.not_lt.2 hn⟩)

/-- A symbol that fails one of the tests of R171 (b), (c) and (d). -/
theorem checkSymbol_of_invalid (h : Config.eof < s.hsym.toNat ∨ (0 < k ∧ s.hsym.toNat ≤ s.hprev.toNat) ∨
    (k + 1 = s.hn.toNat ∧ s.hsym.toNat ≠ Config.eof)) (hf : s.phase ≠ .fault) :
    checkSymbol k s = .next (faulted .corruptHeader s) := by
  rw [← fail_eq_faulted _ hf, checkSymbol]
  split
  · rfl
  split
  · rfl
  rcases h with hrange | horder | hlast
  · contradiction
  · contradiction
  · exact if_pos hlast

/-- A count of 0 (R171 (e)). -/
theorem storeEntry_of_zero (hc : s.hcnt = 0) (hf : s.phase ≠ .fault) :
    storeEntry k s = .next (faulted .corruptHeader s) := by
  rw [storeEntry, if_pos hc, fail_eq_faulted _ hf]

/-- From position 2 on a byte belongs to an entry. -/
theorem hdrByteAt_of_entry (hp : 2 ≤ p) : hdrByteAt b p s = entryByte b ((p - 2) / 6) ((p - 2) % 6) s := by
  rw [hdrByteAt, if_neg (by omega), if_neg (by omega)]

/-- The first three bytes of a count (R170). -/
theorem entryByte_of_count (hj : j ∈ [2, 3, 4]) :
    entryByte b k j s = done { s with hcnt := shiftInByte s.hcnt b } := by
  simp only [List.mem_cons, List.not_mem_nil, or_false] at hj
  rcases hj with rfl | rfl | rfl <;> rfl

/-- Settles O42: HDR_BYTE goes by the position of the byte, and each field's last byte by the field's tests. -/
theorem hdrByteReceivesOneByte : Obligations.HdrByteReceivesOneByte := by
  intro b
  refine ⟨hasWord_of_formatB (op := 0x09) (fun _ => rfl) (fun _ => rfl) b, fun s hs => ?_,
    illegalOutside_of_gateOf fun _ => rfl, silentInFault_of_gateOf (legal := [.idle, .hdr]) fun _ => rfl⟩
  intro p k j r n y c
  have hexec : exec (.hdrByte b) s = hdrByteAt b p r := exec_hdrByte hs
  have hentry : 2 ≤ p → exec (.hdrByte b) s = entryByte b k j r := fun hp => hexec.trans (hdrByteAt_of_entry hp)
  refine ⟨fun hp => ?_, fun hp hn => ?_, fun hp h0 hn => ?_, fun hp hj => ?_, fun hp hj hy => ?_,
    fun hp hj hy hprev hlast => ?_, fun hp hj => ?_, fun hp hj hc => ?_, fun hp hj hc hx => ?_⟩
  · rw [hexec, hp, ← highByte_eq_shiftLeft]; rfl
  · rw [hexec, hp]
    exact checkEntryCount_of_invalid (s := { r with hn := n }) hn nofun
  · rw [hexec, hp]
    exact checkEntryCount_of_valid (s := { r with hn := n }) h0 hn
  · rw [hentry hp, hj, ← highByte_eq_shiftLeft]; rfl
  · rw [hentry hp, hj]
    exact checkSymbol_of_invalid (s := { r with hsym := y }) hy nofun
  · rw [hentry hp, hj]
    exact checkSymbol_of_valid (s := { r with hsym := y }) hy hprev hlast
  · rw [hentry hp]
    exact entryByte_of_count hj
  · rw [hentry hp, hj]
    exact storeEntry_of_zero (s := { r with hcnt := c }) hc nofun
  · rw [hentry hp, hj]
    exact ⟨_, storeEntry_of_valid (s := { r with hcnt := c }) hc (Nat.lt_succ_of_le hx), Memory.read_write_same ..,
      fun _ => Memory.read_write_other _ _⟩

end Sys2Proof.Machine
end

section
/-! The serializer and the deserializer (spec/45_serializer.md rules R170, R171, R174, R175): what the bytes that have
come say of the state, byte by byte, and the round trip both ways. -/

namespace Sys2Proof.Machine

open Sys2Proof.Safety

/-! ## Fields and their bytes, both ways (R56) -/

/-- The two bytes of a 16-bit field, most significant first. -/
def fieldBytes (x : Nat) : List Byte := [BitVec.ofNat 8 (x / 256), BitVec.ofNat 8 x]

/-- The bytes a 16-bit field is put together from are its bytes. -/
theorem fieldBytes_highByte_or_lowByte (b b' : Byte) : fieldBytes (highByte b ||| lowByte b').toNat = [b, b'] := by
  have hb := b.isLt
  have hb' := b'.isLt
  rw [fieldBytes, toNat_highByte_or_lowByte]
  congr 2 <;> apply BitVec.eq_of_toNat_eq <;> rw [BitVec.toNat_ofNat] <;> omega

/-- The bytes a count is put together from are its bytes. -/
theorem entryBytes_foldl_shiftInByte {cs : List Byte} (x : Nat) (c₀ : Count) (h : cs.length = 4) :
    entryBytes x (cs.foldl shiftInByte c₀) = fieldBytes x ++ cs := by
  obtain ⟨b₀, b₁, b₂, b₃, rfl⟩ := List.length_eq_four.1 h
  have h₀ := b₀.isLt
  have h₁ := b₁.isLt
  have h₂ := b₂.isLt
  have h₃ := b₃.isLt
  simp only [entryBytes, fieldBytes, List.foldl_cons, List.foldl_nil, toNat_shiftInByte, List.cons_append,
    List.nil_append, List.cons.injEq, true_and, and_true]
  refine ⟨?_, ?_, ?_, ?_⟩ <;> apply BitVec.eq_of_toNat_eq <;> rw [BitVec.toNat_ofNat] <;> omega

/-! ## The bytes that have come (R170) -/

/-- The state HDR_BYTE begins from: nothing of a header has come. -/
structure AwaitsHeader (s : State) : Prop where
  phase : s.phase = .idle
  hpos : s.hpos = 0
  table : s.ft = []
  number : s.ftN = 0

/-- Between two entries, with another entry still to come. -/
structure AwaitsEntry (n : Nat) (ft : List (Nat × Count)) (s : State) : Prop extends Receiving n ft s where
  /-- No symbol stored is above HPREV. -/
  below : ∀ e ∈ ft, e.1 ≤ s.hprev.toNat
  /-- HN is in range (R171 (a)). -/
  range : n ≤ Config.nsym
  more : ft.length < n

/-- The bytes of a header of `n` entries up to the end of those in `ft`. -/
def headerStart (n : Nat) (ft : List (Nat × Count)) : List Byte :=
  fieldBytes n ++ ft.flatMap fun e => entryBytes e.1 e.2

/-- The bytes HDR_BYTE has been given since IDLE, by the state they have led to. -/
inductive Received : List Byte → State → Prop
  /-- No byte. -/
  | nothing {s : State} (h : AwaitsHeader s) : Received [] s
  /-- The high byte of N. -/
  | highOfCount {s : State} (b : Byte) (h : AwaitsHeader s) : Received [b] (s.inHeader 1 (highByte b) s.hsym s.hcnt)
  /-- N and some whole entries. -/
  | entries {n : Nat} {ft : List (Nat × Count)} {s : State} (h : AwaitsEntry n ft s) : Received (headerStart n ft) s
  /-- Of the next entry, the high byte of its symbol. -/
  | highOfSymbol {n : Nat} {ft : List (Nat × Count)} {s : State} (b : Byte) (h : AwaitsEntry n ft s) :
    Received (headerStart n ft ++ [b]) (s.inHeader (2 + 6 * ft.length + 1) s.hn (highByte b) s.hcnt)
  /-- Of the next entry, its symbol and the first bytes of its count. -/
  | symbol {n x : Nat} {ft : List (Nat × Count)} {s : State} (cs : List Byte) (h : AwaitsEntry n ft s)
    (hcs : cs.length < 4) (hx : x ≤ Config.eof) (habove : ∀ e ∈ ft, e.1 < x) :
    Received (headerStart n ft ++ (fieldBytes x ++ cs))
      (s.inHeader (2 + 6 * ft.length + (2 + cs.length)) s.hn (BitVec.ofNat 16 x) (cs.foldl shiftInByte s.hcnt))
  /-- The whole header. -/
  | header {s : State} (h : s.phase = .table) : Received (headerBytes s.ft) s
  /-- A byte that raised, and any after it. -/
  | fault {s : State} (bs : List Byte) (h : s.phase = .fault) : Received bs s

variable {s t u : State} {b : Byte} {bs cs : List Byte} {n x : Nat} {c : Count} {ft : List (Nat × Count)}

theorem awaitsHeader_of_idle (hc : Consistent s) (hs : s.phase = .idle) : AwaitsHeader s := by
  have hreset := hc.idleIsReset hs
  obtain ⟨hft, hftN⟩ := ft_of_idle hc hs
  exact ⟨hs, by rw [hreset]; rfl, hft, hftN⟩

/-- The whole header is all its entries. -/
theorem headerBytes_concat (h : ft.length + 1 = n) :
    headerBytes (ft ++ [(x, c)]) = headerStart n ft ++ entryBytes x c := by
  subst n
  simp [headerBytes, headerStart, fieldBytes]

/-- The high byte of N comes. -/
theorem AwaitsHeader.exec_high (h : AwaitsHeader s) :
    exec (.hdrByte b) s = .next (s.inHeader 1 (highByte b) s.hsym s.hcnt) := by
  rw [exec_hdrByte (.inl h.phase), h.hpos]; rfl

/-- The low byte of N comes: N is in range, or the byte raises (R171 (a)). -/
theorem AwaitsHeader.receives_low (h : AwaitsHeader s) (b b' : Byte) :
    ∃ t, exec (.hdrByte b') (s.inHeader 1 (highByte b) s.hsym s.hcnt) = .next t ∧ Received [b, b'] t := by
  have hbytes := fieldBytes_highByte_or_lowByte b b'
  generalize hy : highByte b ||| lowByte b' = y at hbytes
  have hexec : exec (.hdrByte b') (s.inHeader 1 (highByte b) s.hsym s.hcnt) =
      checkEntryCount (s.inHeader 2 y s.hsym s.hcnt) := by
    rw [exec_hdrByte (.inr rfl), ← hy]; rfl
  by_cases hn : y = 0 ∨ Config.nsym < y.toNat
  · exact ⟨_, hexec.trans (checkEntryCount_of_invalid hn nofun), .fault _ rfl⟩
  · obtain ⟨h0, hle⟩ := not_or.1 hn
    have hpos : 0 < y.toNat := Nat.pos_of_ne_zero fun h => h0 (BitVec.eq_of_toNat_eq h)
    have hstart : headerStart y.toNat [] = [b, b'] := by rw [headerStart, hbytes]; rfl
    have hentry : AwaitsEntry y.toNat [] (s.inHeader 2 y s.hsym s.hcnt) :=
      { phase := rfl, hpos := rfl, hn := by rw [BitVec.ofNat_toNat, BitVec.setWidth_eq]; rfl, table := h.table
        number := h.number, hprev := nofun, below := nofun, range := Nat.not_lt.1 hle, more := hpos }
    exact ⟨_, hexec.trans (checkEntryCount_of_valid h0 (Nat.not_lt.1 hle)), hstart ▸ .entries hentry⟩

/-- The index of the next entry is in range. -/
theorem AwaitsEntry.length_lt (h : AwaitsEntry n ft s) : ft.length < Config.nsym :=
  Nat.lt_of_lt_of_le h.more h.range

/-- The high byte of a symbol comes. -/
theorem AwaitsEntry.exec_high (h : AwaitsEntry n ft s) :
    exec (.hdrByte b) s = .next (s.inHeader (2 + 6 * ft.length + 1) s.hn (highByte b) s.hcnt) :=
  exec_hdrByte_entry (j := 0) h.phase h.hpos h.length_lt (by decide)

/-- The low byte of a symbol comes: the symbol passes its tests, or the byte raises (R171 (b), (c), (d)). -/
theorem AwaitsEntry.receives_low (h : AwaitsEntry n ft s) (b b' : Byte) :
    ∃ t, exec (.hdrByte b') (s.inHeader (2 + 6 * ft.length + 1) s.hn (highByte b) s.hcnt) = .next t ∧
      Received (headerStart n ft ++ [b, b']) t := by
  rw [← fieldBytes_highByte_or_lowByte b b']
  generalize hy : highByte b ||| lowByte b' = y
  have hexec : exec (.hdrByte b') (s.inHeader (2 + 6 * ft.length + 1) s.hn (highByte b) s.hcnt) =
      checkSymbol ft.length (s.inHeader (2 + 6 * ft.length + 2) s.hn y s.hcnt) := by
    rw [exec_hdrByte_entry (j := 1) rfl rfl h.length_lt (by decide), ← hy]; rfl
  by_cases hbad : Config.eof < y.toNat ∨ (0 < ft.length ∧ y.toNat ≤ s.hprev.toNat) ∨
      (ft.length + 1 = s.hn.toNat ∧ y.toNat ≠ Config.eof)
  · exact ⟨_, hexec.trans (checkSymbol_of_invalid hbad nofun), .fault _ rfl⟩
  · simp only [not_or, not_and, Nat.not_lt, Nat.not_le, not_not] at hbad
    obtain ⟨hx, hprev, hlast⟩ := hbad
    have habove : ∀ e ∈ ft, e.1 < y.toNat := fun e he =>
      Nat.lt_of_le_of_lt (h.below e he) (hprev (List.length_pos_of_mem he))
    have hrec := Received.symbol [] h (by decide) hx habove
    rw [BitVec.ofNat_toNat, BitVec.setWidth_eq, List.append_nil] at hrec
    exact ⟨_, hexec.trans (checkSymbol_of_valid hx hprev hlast), hrec⟩

/-- A whole entry, the header with it if it is the last. -/
theorem AwaitsEntry.received_entry (h : AwaitsEntry n ft s) (hx : x ≤ Config.eof) (habove : ∀ e ∈ ft, e.1 < x) :
    Received (headerStart n ft ++ entryBytes x c) (s.entryStored ft.length x c) := by
  by_cases hlast : ft.length + 1 = n
  · have htable : (s.entryStored ft.length x c).ft = ft ++ [(x, c)] := by
      rw [← Memory.write_of_lt habove, ← h.table]; rfl
    rw [← headerBytes_concat hlast, ← htable]
    refine .header (if_pos ?_)
    rw [h.hn, toNat_ofNat_entryCount h.range, hlast]
  · have hmore : ft.length + 1 < n := Nat.lt_of_le_of_ne h.more hlast
    have hstart : headerStart n ft ++ entryBytes x c = headerStart n (ft ++ [(x, c)]) := by simp [headerStart]
    have hprev : (s.entryStored ft.length x c).hprev.toNat = x := toNat_ofNat_symbol hx
    rw [hstart]
    refine .entries ⟨h.entryStored h.range hmore hx habove, fun e he => ?_, h.range, by simpa using hmore⟩
    rw [hprev]
    rcases List.mem_append.1 he with he | he
    · exact Nat.le_of_lt (habove e he)
    · rw [List.mem_singleton.1 he]

/-- The last byte of a count comes: the entry is stored, or the byte raises (R171 (e)). -/
theorem AwaitsEntry.receives_last (h : AwaitsEntry n ft s) (hx : x ≤ Config.eof) (habove : ∀ e ∈ ft, e.1 < x)
    (hcs : cs.length = 3) (b : Byte) : ∃ t,
    exec (.hdrByte b) (s.inHeader (2 + 6 * ft.length + 5) s.hn (BitVec.ofNat 16 x) (cs.foldl shiftInByte s.hcnt)) =
      .next t ∧ Received (headerStart n ft ++ (fieldBytes x ++ (cs ++ [b]))) t := by
  have hlen : (cs ++ [b]).length = 4 := by rw [List.length_append, hcs]; rfl
  have hbytes := entryBytes_foldl_shiftInByte x s.hcnt hlen
  rw [← hbytes, List.foldl_append, List.foldl_cons, List.foldl_nil]
  generalize hc : shiftInByte (cs.foldl shiftInByte s.hcnt) b = c
  by_cases h0 : c = 0
  · have hexec : exec (.hdrByte b)
        (s.inHeader (2 + 6 * ft.length + 5) s.hn (BitVec.ofNat 16 x) (cs.foldl shiftInByte s.hcnt)) =
        storeEntry ft.length (s.inHeader (2 + 6 * ft.length + 6) s.hn (BitVec.ofNat 16 x) c) := by
      rw [exec_hdrByte_entry (j := 5) rfl rfl h.length_lt (by decide), ← hc]; rfl
    exact ⟨_, hexec.trans (storeEntry_of_zero h0 nofun), .fault _ rfl⟩
  · have hnum := toNat_ofNat_symbol hx
    have hexec := exec_hdrByte_lastByte (s := s.inHeader (2 + 6 * ft.length + 5) s.hn (BitVec.ofNat 16 x)
      (cs.foldl shiftInByte s.hcnt)) rfl rfl h.length_lt (hnum.trans_lt (Nat.lt_succ_of_le hx)) hc h0
    refine ⟨s.entryStored ft.length x c, ?_, h.received_entry hx habove⟩
    have hwrite : Memory.write s.ft x c = Memory.write s.ft (BitVec.ofNat 16 x).toNat c := by rw [hnum]
    rw [hexec, State.entryStored, hwrite]
    rfl

/-- A byte of a count comes. -/
theorem AwaitsEntry.receives_count (h : AwaitsEntry n ft s) (hx : x ≤ Config.eof) (habove : ∀ e ∈ ft, e.1 < x)
    (hcs : cs.length < 4) (b : Byte) : ∃ t,
    exec (.hdrByte b) (s.inHeader (2 + 6 * ft.length + (2 + cs.length)) s.hn (BitVec.ofNat 16 x)
      (cs.foldl shiftInByte s.hcnt)) = .next t ∧
      Received (headerStart n ft ++ (fieldBytes x ++ (cs ++ [b]))) t := by
  by_cases hlast : cs.length = 3
  · rw [hlast]
    exact h.receives_last hx habove hlast b
  · have hlen : (cs ++ [b]).length = cs.length + 1 := by simp
    have hrec := Received.symbol (cs ++ [b]) h (by omega) hx habove
    rw [hlen, List.foldl_append] at hrec
    exact ⟨_, exec_hdrByte_countByte rfl rfl h.length_lt (by omega) rfl, hrec⟩

/-- Every byte completes, and is one more of the bytes that have come. -/
theorem Received.receives (h : Received bs s) (b : Byte) :
    ∃ t, exec (.hdrByte b) s = .next t ∧ Received (bs ++ [b]) t := by
  cases h with
  | nothing h => exact ⟨_, h.exec_high, .highOfCount b h⟩
  | highOfCount b' h => exact h.receives_low b' b
  | entries h => exact ⟨_, h.exec_high, .highOfSymbol b h⟩
  | highOfSymbol b' h =>
    rw [List.append_assoc]
    exact h.receives_low b' b
  | symbol cs h hcs hx habove =>
    rw [List.append_assoc, List.append_assoc]
    exact h.receives_count hx habove hcs b
  | header hs =>
    exact ⟨_, illegalOutside_of_gateOf (legal := [.idle, .hdr]) (fun _ => rfl) s (by simp [hs]) (by simp [hs]),
      .fault _ rfl⟩
  | fault bs hs =>
    exact ⟨_, silentInFault_of_gateOf (legal := [.idle, .hdr]) (fun _ => rfl) s hs, .fault _ hs⟩

theorem Received.run (h : Received cs s) (hrun : runAll (bs.map .hdrByte) s = .next u) : Received (cs ++ bs) u := by
  induction bs generalizing cs s with
  | nil =>
    obtain rfl : s = u := by simpa using hrun
    rwa [List.append_nil]
  | cons b bs ih =>
    obtain ⟨t, hexec, ht⟩ := h.receives b
    rw [List.map_cons, runAll_cons, hexec, continueWith_next] at hrun
    rw [List.append_cons]
    exact ih ht hrun

/-- In TABLE the bytes that have come are the header of the table. -/
theorem Received.eq_headerBytes (h : Received bs s) (hs : s.phase = .table) : bs = headerBytes s.ft := by
  cases h with
  | nothing h => cases h.phase.symm.trans hs
  | entries h => cases h.phase.symm.trans hs
  | header => rfl
  | fault _ h => cases h.symm.trans hs
  | highOfCount | highOfSymbol | symbol => cases hs

/-! ## The round trip (R174, R175) -/

/-- The header of a table with the sentinel, read in IDLE, gives the table back. -/
theorem runAll_headerBytes_of_consistent (hc : Consistent s) (ht : AwaitsHeader t)
    (heof : Memory.read s.ft Config.eof = some c) :
    runAll ((headerBytes s.ft).map .hdrByte) t = .next (responded 0 { t with
      phase := .table, ft := s.ft, ftN := s.ftN, hpos := BitVec.ofNat 11 (2 + 6 * s.ftN.toNat),
      hn := s.ftN.setWidth 16, hsym := 256, hcnt := c, hprev := 256 }) := by
  have hftN : BitVec.ofNat 9 s.ftN.toNat = s.ftN := by simp
  have hhn : BitVec.ofNat 16 s.ftN.toNat = s.ftN.setWidth 16 := BitVec.ofNat_toNat ..
  rw [runAll_headerBytes ht.phase ht.hpos ht.table ht.number hc.ftForm hc.ftPositive heof, State.headerRead,
    ← hc.ftNumber, hftN, hhn]

/-- Settles O43: the sentinel is in every final table, so its header is read back whole; and in TABLE the bytes
that have come since IDLE are the header of the table. -/
theorem headerRoundTrips : Obligations.HeaderRoundTrips := by
  refine ⟨fun s t hc hs htc ht => ?_, fun bs t u htc ht hrun hu => ?_⟩
  · obtain ⟨c, heof⟩ := Option.isSome_iff_exists.1 (hc.ftSentinel hs)
    exact ⟨c, heof, runAll_headerBytes_of_consistent hc (awaitsHeader_of_idle htc ht) heof⟩
  · have hrec := (Received.nothing (awaitsHeader_of_idle htc ht)).run hrun
    exact hrec.eq_headerBytes hu

end Sys2Proof.Machine
end

section
/-! NOP, CLEAR and the read-back commands (spec/46_control.md rules R186 to R192), and the row FAULT of the phase
table (R185, R187). -/

namespace Sys2Proof.Machine

open Sys2Proof.Safety

variable {s : State} {i : Instr} {x : BitVec 10}

/-! ## NOP, CLEAR, and FAULT (R186 to R188) -/

theorem status_cleared (s : State) : s.cleared.status = 0 := by
  have h : State.reset.status = 0 := by decide
  exact h

/-- Settles O11: CLEAR's gate is always open, and its rule writes the whole reset state. -/
theorem clearStartsANewCycle : Obligations.ClearStartsANewCycle := by
  refine ⟨⟨by decide, by decide⟩, fun s => ?_⟩
  rw [exec_clear, State.respond, status_cleared]
  rfl

/-- NOP runs in every phase (R186). -/
theorem exec_nop (s : State) : exec .nop s = .next (responded 0 s) := rfl

/-- Settles O12: NOP's gate is always open, and its rule only answers. -/
theorem nopDoesNothing : Obligations.NopDoesNothing := ⟨⟨by decide, by decide⟩, exec_nop⟩

/-- In FAULT the gate lets no command do anything but those of R89 step 2 (R187). -/
theorem gateOf_fault (h : ¬ AlwaysLegal i) : gateOf i .fault = .noEffect := by
  cases i with
  | nop | clear | rdReg | rdFreq | rdNode | rdCode => exact absurd trivial h
  | freqByte | freqEnd | buildTree | buildCodes | hdrEmit | encByte | encEnd | hdrByte | decBit | decByte
  | decEnd => rfl

theorem noEffect_of_fault (h : ¬ AlwaysLegal i) (hs : s.phase = .fault) : NoEffect i s :=
  noEffect_of_gateOf (by rw [hs, gateOf_fault h])

/-- Settles O45: commands are stopped by their gate, and a raise in FAULT keeps the first error. -/
theorem faultPhaseIgnoresCommands : Obligations.FaultPhaseIgnoresCommands := by
  refine fun s hs => ⟨fun i h => noEffect_of_fault h hs, fun w rest e hw he => ?_⟩
  rw [step_of_illegal_word hw he, illegalWord, if_pos hs]
  rfl

/-! ## RD_REG (R33, R189) -/

theorem hasWord_rdReg : ∀ r : BitVec 3, HasWord (.rdReg r) (0x4000#16 ||| r.setWidth 16) := by
  unfold HasWord; decide +kernel

/-- A read changes no state and answers its data, in every phase (R53, R89 step 2). -/
theorem exec_rdReg (r : BitVec 3) (s : State) :
    exec (.rdReg r) s = .next (responded (registerData r s) s) := rfl

theorem registerNumber_cases :
    ∀ r : BitVec 3, r = 0 ∨ r = 1 ∨ r = 2 ∨ r = 3 ∨ r = 4 ∨ r = 5 ∨ r = 6 ∨ r = 7 := by decide

/-- Settles O13: register by register, the layout of R33 is the concatenation of its fields. -/
theorem rdRegAnswersTheRegisterMap : Obligations.RdRegAnswersTheRegisterMap := by
  refine fun r s => ⟨hasWord_rdReg r, _, exec_rdReg r s, ?_⟩
  rcases registerNumber_cases r with rfl | rfl | rfl | rfl | rfl | rfl | rfl | rfl
  · have hstatus : (registerData 0 s).toNat = (BitVec.ofBool s.treeValid ++ s.phase.code ++ s.err.code).toNat :=
      toNat_dataOf _ (by decide)
    simp only [toNat_concat, BitVec.toNat_ofBool] at hstatus
    change _ = s.err.code.toNat + 2 ^ 4 * s.phase.code.toNat + 2 ^ 8 * s.treeValid.toNat
    omega
  · exact toNat_dataOf _ (by decide)
  · exact toNat_dataOf _ (by decide)
  · exact toNat_dataOf _ (by decide)
  · exact toNat_dataOf _ (by decide)
  · exact toNat_dataOf _ (by decide)
  · exact (toNat_dataOf _ (by decide)).trans ((toNat_concat s.nb s.acc).trans (Nat.add_comm ..))
  · exact (toNat_dataOf _ (by decide)).trans ((toNat_concat s.hn s.hpos).trans (Nat.add_comm ..))

/-! ## The reads by index (R190 to R192) -/

/-- A Format X word is the pattern of its opcode with the index in its low bits (R84, R87). -/
theorem encodeX_eq_pattern_or (op : BitVec 6) (x : BitVec 10) :
    encodeX op x = (op ++ 0#10 : CmdWord) ||| x.setWidth 16 := by
  have hx : x.setWidth 16 = 0#6 ++ x := by
    apply BitVec.eq_of_toNat_eq
    rw [BitVec.toNat_setWidth_of_le (by decide), toNat_concat]
    simp
  rw [hx, BitVec.or_append, BitVec.or_zero, BitVec.zero_or, encodeX]

/-- The word of a command with an index operand, both ways. -/
theorem hasWord_of_formatX {op : BitVec 6} {c : BitVec 10 → Instr} (henc : ∀ x, encode (c x) = encodeX op x)
    (hdec : ∀ arg, decodeFields op arg = decodeX arg c) (x : BitVec 10) :
    HasWord (c x) ((op ++ 0#10 : CmdWord) ||| x.setWidth 16) := by
  rw [HasWord, ← encodeX_eq_pattern_or]
  exact ⟨henc x, by rw [encodeX, decode_of_fields, hdec, decodeX]⟩

theorem freqData_of_present {c : Count} (hx : x.toNat ≤ Config.eof) (h : Memory.read s.ft x.toNat = some c) :
    freqData x s = dataOf (1#1 ++ c) := by
  simp only [freqData, if_pos hx, h]

theorem freqData_of_absent (h : Config.eof < x.toNat ∨ Memory.read s.ft x.toNat = none) : freqData x s = 0 := by
  rw [freqData]
  rcases h with hx | h
  · exact if_neg (Nat.not_le.2 hx)
  · simp only [h, ite_self]

/-- Settles O14: by the entry of FT, if the index has one. -/
theorem rdFreqAnswersTheEntry : Obligations.RdFreqAnswersTheEntry := by
  refine fun x s => ⟨hasWord_of_formatX (op := 0x11) (fun _ => rfl) (fun _ => rfl) x, freqData x s, rfl,
    fun c hx h => ?_, freqData_of_absent⟩
  rw [freqData_of_present hx h, toNat_dataOf _ (by decide), toNat_concat]
  rfl

theorem nodeData_of_node {n : Node} (hv : s.treeValid = true) (hx : x.toNat < s.nodeCnt.toNat)
    (h : s.node[x.toNat]? = some n) :
    nodeData x s = dataOf (1#1 ++ n.sym ++ n.weight ++ n.zero ++ n.one) := by
  rw [nodeData, if_pos ⟨hv, hx⟩, nodeAt_of_getElem? h]

theorem nodeData_outside (h : s.treeValid = false ∨ s.nodeCnt.toNat ≤ x.toNat) : nodeData x s = 0 := by
  refine if_neg fun ⟨hv, hx⟩ => ?_
  rcases h with h | h
  · exact Bool.false_ne_true (h.symm.trans hv)
  · exact Nat.not_lt.2 h hx

/-- Settles O15: by the valid bit of the tree and NODE_CNT; the node's fields are concatenated in the order of
R191. -/
theorem rdNodeAnswersTheNode : Obligations.RdNodeAnswersTheNode := by
  refine fun x s => ⟨hasWord_of_formatX (op := 0x12) (fun _ => rfl) (fun _ => rfl) x, nodeData x s, rfl,
    fun n hv hx h => ?_, nodeData_outside⟩
  rw [nodeData_of_node hv hx h, toNat_dataOf _ (by decide)]
  simp only [toNat_concat, BitVec.toNat_ofNat]
  omega

theorem codeData_of_valid {e : CodeEntry} (hx : x.toNat ≤ Config.eof) (h : Memory.read s.ct x.toNat = some e) :
    codeData x s = dataOf (1#1 ++ e.len ++ e.bits) := by
  simp only [codeData, if_pos hx, h]

theorem codeData_of_absent (h : Config.eof < x.toNat ∨ Memory.read s.ct x.toNat = none) : codeData x s = 0 := by
  rw [codeData]
  rcases h with hx | h
  · exact if_neg (Nat.not_le.2 hx)
  · simp only [h, ite_self]

/-- Settles O16: by the entry of CT, if the index has one. -/
theorem rdCodeAnswersTheCode : Obligations.RdCodeAnswersTheCode := by
  refine fun x s => ⟨hasWord_of_formatX (op := 0x13) (fun _ => rfl) (fun _ => rfl) x, codeData x s, rfl,
    fun e hx h => ?_, codeData_of_absent⟩
  rw [codeData_of_valid hx h, toNat_dataOf _ (by decide)]
  simp only [toNat_concat, BitVec.toNat_ofNat]
  omega

end Sys2Proof.Machine
end

section
/-! The phase table (spec/46_control.md rule R185), read by command: what a legal command leaves in PHASE and ERR,
and what an illegal one raises. -/

namespace Sys2Proof.Machine

open Sys2Proof.Safety

variable {s : State} {i : Instr} {b : Byte} {k j p : Nat} {ok : Prop} {e : Err} {r r' : Result}

/-! ## The phases a header byte leaves (R170, R171) -/

/-- What a rule of HDR_BYTE answers, ERR being `e` before: it leaves the phase HDR or TABLE with ERR unchanged, or
raises CorruptHeader; and where `ok` holds it does not stop (log 8). -/
def HeaderAnswer (e : Err) (ok : Prop) (r : Result) : Prop :=
  (ok → ∃ t, r = .next t) ∧
    ∀ t, r = .next t → (t.phase, t.err) ∈ [(.hdr, e), (.table, e), (.fault, .corruptHeader)]

theorem headerAnswer_done (hs : s.phase = .hdr ∨ s.phase = .table) : HeaderAnswer s.err ok (done s) := by
  refine ⟨fun _ => ⟨_, rfl⟩, fun t h => ?_⟩
  injection h with h
  subst h
  rcases hs with hs | hs <;> simp [hs]

theorem headerAnswer_corrupt (hs : s.phase = .hdr) : HeaderAnswer e ok (fail .corruptHeader s) := by
  rw [fail_eq_faulted _ (by simp [hs])]
  refine ⟨fun _ => ⟨_, rfl⟩, fun t h => ?_⟩
  injection h with h
  subst h
  simp [faulted]

theorem headerAnswer_stop {f : Fault} (h : ¬ ok) : HeaderAnswer e ok (.fault f) :=
  ⟨fun hok => absurd hok h, fun _ ht => by cases ht⟩

/-- A test, by its two answers. -/
theorem headerAnswer_ite {c : Prop} [Decidable c] (h : c → HeaderAnswer e ok r) (h' : ¬ c → HeaderAnswer e ok r') :
    HeaderAnswer e ok (if c then r else r') := by
  split
  · exact h ‹_›
  · exact h' ‹_›

theorem headerAnswer_checkEntryCount (hs : s.phase = .hdr) : HeaderAnswer s.err ok (checkEntryCount s) :=
  headerAnswer_ite (fun _ => headerAnswer_corrupt hs) fun _ => headerAnswer_done (.inl hs)

theorem headerAnswer_checkSymbol (hs : s.phase = .hdr) : HeaderAnswer s.err ok (checkSymbol k s) :=
  headerAnswer_ite (fun _ => headerAnswer_corrupt hs) fun _ =>
    headerAnswer_ite (fun _ => headerAnswer_corrupt hs) fun _ =>
      headerAnswer_ite (fun _ => headerAnswer_corrupt hs) fun _ => headerAnswer_done (.inl hs)

theorem headerAnswer_storeEntry (hs : s.phase = .hdr) (hok : ok → s.hsym.toNat < Config.nsym) :
    HeaderAnswer s.err ok (storeEntry k s) :=
  headerAnswer_ite (fun _ => headerAnswer_corrupt hs) fun _ =>
    headerAnswer_ite (fun h => headerAnswer_stop fun hx => Nat.not_lt.2 h (hok hx)) fun _ =>
      headerAnswer_done (s := { s with
        ft := Memory.write s.ft s.hsym.toNat s.hcnt, ftN := s.ftN + 1, hprev := s.hsym,
        phase := if k + 1 = s.hn.toNat then .table else s.phase }) (by rw [hs]; exact (ite_eq_or_eq ..).symm)

theorem headerAnswer_entryByte (hs : s.phase = .hdr) (hok : ok → j = 5 → s.hsym.toNat < Config.nsym) :
    HeaderAnswer s.err ok (entryByte b k j s) :=
  headerAnswer_ite (fun _ => headerAnswer_done (s := { s with hsym := highByte b }) (.inl hs)) fun _ =>
    headerAnswer_ite (fun _ => headerAnswer_checkSymbol (s := { s with hsym := s.hsym ||| lowByte b }) hs) fun _ =>
      headerAnswer_ite
        (fun hj => headerAnswer_storeEntry (s := { s with hcnt := shiftInByte s.hcnt b }) hs fun h => hok h hj)
        fun _ => headerAnswer_done (s := { s with hcnt := shiftInByte s.hcnt b }) (.inl hs)

theorem headerAnswer_hdrByteAt (hs : s.phase = .hdr)
    (hok : ok → 2 ≤ p → (p - 2) % 6 = 5 → s.hsym.toNat < Config.nsym) :
    HeaderAnswer s.err ok (hdrByteAt b p s) :=
  headerAnswer_ite (fun _ => headerAnswer_done (s := { s with hn := highByte b }) (.inl hs)) fun h0 =>
    headerAnswer_ite (fun _ => headerAnswer_checkEntryCount (s := { s with hn := s.hn ||| lowByte b }) hs) fun h1 =>
      headerAnswer_entryByte hs fun h => hok h (by omega)

/-- The byte that would store an entry finds its symbol in range. -/
def SymbolInRange (s : State) : Prop :=
  2 ≤ s.hpos.toNat → (s.hpos.toNat - 2) % 6 = 5 → s.hsym.toNat < Config.nsym

theorem headerAnswer_hdrByte (hs : s.phase = .idle ∨ s.phase = .hdr) :
    HeaderAnswer s.err (SymbolInRange s) (exec (.hdrByte b) s) := by
  rw [exec_hdrByte hs]
  exact headerAnswer_hdrByteAt (s := { s with phase := .hdr, hpos := s.hpos + 1 }) rfl id

theorem symbolInRange_of_hdr (hc : Consistent s) (hs : s.phase = .hdr) : SymbolInRange s := fun hp hj =>
  Nat.lt_succ_of_le ((hc.header hs).symbol hp (by omega)).1

/-! ## The rows of the table (R185) -/

/-- Outside FAULT no error is held (R22). -/
theorem err_of_not_fault (hc : Consistent s) (hf : s.phase ≠ .fault) : s.err = .none :=
  of_not_not fun h => hf (hc.errInFault.1 h)

/-- A legal command completes in one of the phases, with the error, that the table lists. -/
def MovesAsListed (i : Instr) (s : State) : Prop :=
  ∃ t, exec i s = .next t ∧ (t.phase, t.err) ∈ nextPhases i s.phase

theorem movesAsListed_freqByte (hc : Consistent s) (hs : s.phase = .idle ∨ s.phase = .count) :
    MovesAsListed (.freqByte b) s := by
  have herr := err_of_not_fault hc (by rcases hs with h | h <;> simp [h])
  have hexec := (counts_freqByte b).exec_eq hs
  cases hr : Memory.read s.ft b.toNat with
  | none =>
    refine ⟨_, hexec.trans (countSymbol_of_absent hr), ?_⟩
    rcases hs with hs | hs <;> simp [hs, herr, nextPhases, responded]
  | some c =>
    have hs : s.phase = .count := hs.resolve_left fun h => by rw [(ft_of_idle hc h).1] at hr; cases hr
    by_cases hmax : c = Config.countMax
    · refine ⟨_, hexec.trans ((countSymbol_of_max (hmax ▸ hr)).trans (fail_eq_faulted _ (by simp [hs]))), ?_⟩
      simp [hs, nextPhases, faulted]
    · exact ⟨_, hexec.trans (countSymbol_of_present hr hmax), by simp [hs, herr, nextPhases, responded]⟩

theorem movesAsListed_freqEnd (hc : Consistent s) (hs : s.phase = .idle ∨ s.phase = .count) :
    MovesAsListed .freqEnd s := by
  have herr := err_of_not_fault hc (by rcases hs with h | h <;> simp [h])
  exact ⟨_, (counts_freqEnd.exec_eq hs).trans (countSymbol_of_absent (sentinel_absent hc hs)),
    by simp [herr, nextPhases, responded]⟩

theorem movesAsListed_encByte (hc : Consistent s) (hs : s.phase = .codes ∨ s.phase = .enc) :
    MovesAsListed (.encByte b) s := by
  have herr := err_of_not_fault hc (phase_ne_fault_of_encoding hs)
  cases hv : s.ctValid b.toNat with
  | false => exact ⟨_, exec_encByte_of_absent hs hv, by simp [nextPhases, faulted]⟩
  | true =>
    obtain ⟨bs, acc, nb, hexec, -⟩ := exec_encByte_of_valid hs hv
    exact ⟨_, hexec, by simp [herr, nextPhases, State.packed, responded]⟩

theorem movesAsListed_encEnd (hc : Consistent s) (hs : s.phase = .codes ∨ s.phase = .enc) :
    MovesAsListed .encEnd s := by
  have herr := err_of_not_fault hc (phase_ne_fault_of_encoding hs)
  obtain ⟨bs, n, hexec, -⟩ := exec_encEnd_of_valid hs (ctValid_eof hc hs) hc.packerPlaced
  exact ⟨_, hexec, by simp [herr, nextPhases, State.encodeEnded, responded, released]⟩

theorem movesAsListed_hdrByte (hc : Consistent s) (hs : s.phase = .idle ∨ s.phase = .hdr) :
    MovesAsListed (.hdrByte b) s := by
  rcases hs with hs | hs
  · have herr := err_of_not_fault hc (by simp [hs])
    exact ⟨_, (awaitsHeader_of_idle hc hs).exec_high, by simp [hs, herr, nextPhases, State.inHeader, responded]⟩
  · have herr := err_of_not_fault hc (by simp [hs])
    obtain ⟨hcompletes, hphases⟩ := headerAnswer_hdrByte (b := b) (.inr hs)
    obtain ⟨t, ht⟩ := hcompletes (symbolInRange_of_hdr hc hs)
    have hlisted := hphases t ht
    rw [herr] at hlisted
    exact ⟨t, ht, by rw [hs]; exact hlisted⟩

/-- The walker leaves DEC or DEC_DONE, and ERR as it was. -/
theorem walked_phase_err (bits : Code) (s : State) :
    ((s.walked bits).phase = .dec ∨ (s.walked bits).phase = .decDone) ∧ (s.walked bits).err = s.err := by
  rw [State.walked]
  rcases decodeBits s.node s.root s.cur bits with ⟨bs, _ | cur⟩ <;> simp [released]

theorem nextPhases_of_walks {bits : Code} (hi : Walks i bits) :
    nextPhases i .decDone = [(.decDone, .none)] ∧
      ((s.phase = .tree ∨ s.phase = .dec) → nextPhases i s.phase = [(.dec, .none), (.decDone, .none)]) := by
  rcases hi with ⟨t, rfl, -⟩ | ⟨b, rfl, -⟩
  · exact ⟨rfl, by rintro (h | h) <;> rw [h] <;> rfl⟩
  · exact ⟨rfl, by rintro (h | h) <;> rw [h] <;> rfl⟩

theorem movesAsListed_walks {bits : Code} (hi : Walks i bits) (hc : Consistent s)
    (hs : s.phase ∈ [.tree, .dec, .decDone]) : MovesAsListed i s := by
  have herr := err_of_not_fault hc (by rintro h; simp [h] at hs)
  obtain ⟨hdone, hwalking⟩ := nextPhases_of_walks (s := s) hi
  rcases decoding_phases s.phase with hw | hsil | ⟨hill, -⟩
  · obtain ⟨hphase, herr'⟩ := walked_phase_err bits s
    refine ⟨_, hi.exec_of_walking hw, ?_⟩
    rw [hwalking hw]
    rcases hphase with h | h <;> simp [responded, h, herr', herr]
  · have hs : s.phase = .decDone := hsil.resolve_right fun h => by simp [h] at hs
    refine ⟨_, hi.noEffect hsil, ?_⟩
    rw [hs, hdone]
    simp [responded, hs, herr]
  · exact absurd hs hill

theorem movesAsListed_decEnd (hc : Consistent s) (hs : s.phase ∈ [.tree, .dec, .decDone]) :
    MovesAsListed .decEnd s := by
  have herr := err_of_not_fault hc (by rintro h; simp [h] at hs)
  simp only [List.mem_cons, List.not_mem_nil, or_false, ← or_assoc] at hs
  rcases hs with hw | hs
  · exact ⟨_, raises_decEnd_of_walking hw, by rcases hw with hs | hs <;> simp [hs, nextPhases, faulted]⟩
  · exact ⟨_, noEffect_decEnd (.inl hs), by simp [hs, herr, nextPhases, responded]⟩

/-- Every row of R185, read by command. -/
theorem movesAsListed_of_legal (hc : Consistent s) (hf : s.phase ≠ .fault) (hs : s.phase ∈ legalPhases i) :
    MovesAsListed i s := by
  have herr := err_of_not_fault hc hf
  cases i with
  | nop | rdReg | rdFreq | rdNode | rdCode =>
    exact ⟨_, rfl, by simp [nextPhases, herr]⟩
  | clear => exact ⟨_, exec_clear s, List.mem_singleton_self _⟩
  | freqByte b => exact movesAsListed_freqByte hc (by simpa [legalPhases] using hs)
  | freqEnd => exact movesAsListed_freqEnd hc (by simpa [legalPhases] using hs)
  | buildTree =>
    obtain ⟨nodes, hexec, -⟩ := exec_buildTree_spec hc (by simpa [legalPhases] using hs)
    exact ⟨_, hexec, by simp [nextPhases, responded, State.withTree, herr]⟩
  | buildCodes =>
    obtain ⟨ct, -, hexec, -⟩ := exec_buildCodes_spec hc (by simpa [legalPhases] using hs)
    exact ⟨_, hexec, by simp [nextPhases, responded, herr]⟩
  | hdrEmit => exact ⟨_, exec_hdrEmit hs hc.ftForm hc.ftNumber, by simp [nextPhases, responded, herr]⟩
  | encByte b => exact movesAsListed_encByte hc (by simpa [legalPhases] using hs)
  | encEnd => exact movesAsListed_encEnd hc (by simpa [legalPhases] using hs)
  | hdrByte b => exact movesAsListed_hdrByte hc (by simpa [legalPhases] using hs)
  | decBit t => exact movesAsListed_walks (walks_decBit t) hc hs
  | decByte b => exact movesAsListed_walks (walks_decByte b) hc hs
  | decEnd => exact movesAsListed_decEnd hc hs

/-! ## Commands a phase does not list, and FAULT (R185, R187) -/

/-- Every phase lists NOP, and with it CLEAR and the reads (R186 to R192). -/
theorem mem_legalPhases_nop (q : Phase) : q ∈ legalPhases .nop := by cases q <;> decide

/-- IllegalCommand is the error but for the two exceptions. -/
theorem phaseError_of_no_exception {q : Phase} (htree : ¬ (i = .buildTree ∧ q = .idle))
    (hend : ¬ (i = .decEnd ∧ q = .hdr)) : phaseError i q = .illegalCommand := by
  unfold phaseError
  split
  · exact absurd ⟨rfl, rfl⟩ htree
  · exact absurd ⟨rfl, rfl⟩ hend
  · rfl

/-- A command its phase does not list raises, with the two exceptions shown. -/
theorem raises_of_not_legal (hf : s.phase ≠ .fault) (hs : s.phase ∉ legalPhases i) :
    Raises i (phaseError i s.phase) s := by
  cases i with
  | nop | clear | rdReg | rdFreq | rdNode | rdCode => exact absurd (mem_legalPhases_nop _) hs
  | freqByte | freqEnd | buildCodes | hdrEmit | encByte | encEnd | hdrByte =>
    exact illegalOutside_of_gateOf (fun _ => rfl) s hs hf
  | buildTree =>
    obtain ⟨hempty, hillegal, -⟩ := buildTreeOutsideTable
    by_cases hidle : s.phase = .idle
    · rw [hidle]
      exact (hempty s hidle).1
    · rw [phaseError_of_no_exception (by simp [hidle]) (by simp)]
      exact hillegal s (by simpa [legalPhases, hidle] using hs) hf
  | decBit t => exact (walks_decBit t).illegalOutside s hs hf
  | decByte b => exact (walks_decByte b).illegalOutside s hs hf
  | decEnd =>
    by_cases hhdr : s.phase = .hdr
    · rw [hhdr]
      exact raises_of_gateOf (by rw [hhdr]; rfl)
    · obtain ⟨-, -, -, -, hillegal, -⟩ := decEndReportsTheEnd.imp_right fun h => h s
      rw [phaseError_of_no_exception (by simp) (by simp [hhdr])]
      exact hillegal (by simpa [legalPhases, hhdr, hf, and_assoc, and_comm, and_left_comm] using hs)

/-- In FAULT every command completes, and none but CLEAR leaves it (R185, R187). -/
theorem exec_of_fault (i : Instr) (hs : s.phase = .fault) :
    ∃ t, exec i s = .next t ∧ t.phase = if i = .clear then .idle else .fault := by
  by_cases h : AlwaysLegal i
  · cases i with
    | nop | rdReg | rdFreq | rdNode | rdCode => exact ⟨_, rfl, hs⟩
    | clear => exact ⟨_, exec_clear s, rfl⟩
    | freqByte | freqEnd | buildTree | buildCodes | hdrEmit | encByte | encEnd | hdrByte | decBit | decByte
    | decEnd => exact h.elim
  · have hne : i ≠ .clear := by rintro rfl; exact h trivial
    exact ⟨_, noEffect_of_fault h hs, by rw [if_neg hne]; exact hs⟩

/-- Settles O44: row by row for the legal commands; the gates for the others; and in FAULT only CLEAR's rule
writes PHASE. -/
theorem phaseTableGovernsCommands : Obligations.PhaseTableGovernsCommands := fun i _ hc =>
  ⟨movesAsListed_of_legal hc, raises_of_not_legal,
    fun hs => ⟨fun h => noEffect_of_fault h hs, exec_of_fault i hs⟩⟩

end Sys2Proof.Machine
end

section
/-! COMPRESS (spec/46_control.md rule R193): a whole cycle from any state, and the one way it can fail. -/

namespace Sys2Proof.Machine

open Sys2Proof.Safety

variable {s t : State} {S : List Byte} {L : List Nat} {ft : List (Nat × Count)}

/-! ## A cycle that counts no byte too often -/

/-- The entry of each byte after a counting pass (R102). -/
theorem Tallies.read_byte (h : Tallies (passSymbols S) ft) (b : Byte) :
    Memory.read ft b.toNat = if b ∈ S then some (BitVec.ofNat 32 (S.count b)) else none := by
  rw [h.read_eq, count_passSymbols]
  simp only [mem_passSymbols]

/-- Encoding bytes that were counted writes the payload behind the header, and releases the tree. -/
theorem EncoderReady.runAll_encoding_eq (h : EncoderReady S t) : ∃ bs n,
    runAll (S.map .encByte ++ [Instr.encEnd]) t = .next (t.encodeEnded bs (payloadBits t S).length) ∧
      n < 8 ∧ bytesBits bs = payloadBits t S ++ List.replicate n false := by
  obtain ⟨hnb, hacc⟩ := h.packer
  have hclean : PackerClean t.nb t.acc := by rw [hacc]; intro k _; simp
  have hempty : placedBits t.nb t.acc = [] := by rw [hnb]; rfl
  obtain ⟨bs, n, hrun, hn, hbits⟩ := Machine.runAll_encoding S (.inl h.phase)
    (fun b hb => h.ctValid_of_mem hb) h.ctValid_eof hclean
  exact ⟨bs, n, hrun, hn, by rw [hbits, hempty, List.nil_append]⟩

/-- COMPRESS ends its cycle in the state ENC_END leaves. -/
theorem compress_completes (hmax : ∀ b, S.count b ≤ 2 ^ 32 - 1) (s : State) : ∃ t bs n, EncoderReady S t ∧
    compress S s = .next (t.encodeEnded bs (payloadBits t S).length) ∧
      n < 8 ∧ bytesBits bs = payloadBits t S ++ List.replicate n false := by
  obtain ⟨t, hsetup, hready⟩ := runAll_setup hmax s
  obtain ⟨bs, n, hrun, hbits⟩ := hready.runAll_encoding_eq
  exact ⟨t, bs, n, hready,
    by rw [compress, compressCommands_eq, runAll_append, hsetup, continueWith_next, hrun], hbits⟩

/-! ## A byte counted too often (R100, R187) -/

/-- No commands but those of R89 step 2 lead out of FAULT or change ERR there (R187). -/
theorem runAll_of_fault {is : List Instr} (his : ∀ i ∈ is, ¬ AlwaysLegal i) (hs : s.phase = .fault) :
    ∃ t, runAll is s = .next t ∧ t.phase = .fault ∧ t.err = s.err := by
  induction is generalizing s with
  | nil => exact ⟨s, rfl, hs, rfl⟩
  | cons i is ih =>
    obtain ⟨hi, his⟩ := List.forall_mem_cons.1 his
    have hexec : NoEffect i s := noEffect_of_fault hi hs
    rw [runAll_cons, hexec, continueWith_next]
    exact ih his (s := responded 0 s) hs

/-- No tally counts past the largest count. -/
theorem Tallies.count_le (h : Tallies L ft) (x : Nat) : L.count x ≤ 2 ^ 32 - 1 := by
  cases hr : Memory.read ft x with
  | none => rw [List.count_eq_zero_of_not_mem (h.read_eq_none_iff.1 hr)]; exact Nat.zero_le _
  | some c => rw [← h.toNat_of_read hr]; exact Nat.le_sub_one_of_lt c.isLt

/-- A symbol that has the largest count raises when it is counted again. -/
theorem Counts.raises_of_max {i : Instr} {x : Nat} {p : Phase} (hi : Counts i x p)
    (hs : s.phase = .idle ∨ s.phase = .count) (hT : Tallies L s.ft) (hmax : L.count x = 2 ^ 32 - 1) :
    Raises i .countOverflow s := by
  have hx : x ∈ L := List.count_pos_iff.1 (by rw [hmax]; decide)
  obtain ⟨-, -, hover⟩ := hi.countsSymbol hs
  refine hover ?_
  rw [hT.read_eq, if_pos hx, hmax]
  rfl

/-- Counting a byte too often raises CountOverflow, and the commands that follow do nothing more. -/
theorem runAll_counting_overflow {is : List Instr} {b : Byte} (his : ∀ i ∈ is, ¬ AlwaysLegal i)
    (hs : s.phase = .idle ∨ s.phase = .count) (hN : s.ftN = BitVec.ofNat 9 s.ft.length) (hT : Tallies L s.ft)
    (hb : 2 ^ 32 - 1 < S.count b + L.count b.toNat) :
    ∃ t, runAll (S.map Instr.freqByte ++ is) s = .next t ∧ t.phase = .fault ∧ t.err = .countOverflow := by
  induction S generalizing s L with
  | nil =>
    have hle := hT.count_le b.toNat
    rw [List.count_nil, Nat.zero_add] at hb
    exact absurd hle (Nat.not_le.2 hb)
  | cons a S ih =>
    rw [List.map_cons, List.cons_append, runAll_cons]
    rcases (hT.count_le a.toNat).lt_or_eq with hlt | hmax
    · obtain ⟨ft, hexec, hft⟩ := (counts_freqByte a).exec_tallies hs hN hT hlt
      rw [hexec, continueWith_next]
      refine ih (s := s.counted ft .count) (.inr rfl) rfl hft ?_
      have hcons : (a :: S).count b + L.count b.toNat = S.count b + (a.toNat :: L).count b.toNat := by
        have hinj : (a.toNat == b.toNat) = (a == b) := by
          rw [Bool.eq_iff_iff, beq_iff_eq, beq_iff_eq, BitVec.toNat_inj]
        rw [List.count_cons, List.count_cons, hinj]
        omega
      rwa [← hcons]
    · have hraise : Raises (.freqByte a) .countOverflow s := (counts_freqByte a).raises_of_max hs hT hmax
      have hrest : ∀ i ∈ S.map Instr.freqByte ++ is, ¬ AlwaysLegal i := by
        intro i hi
        rcases List.mem_append.1 hi with hi | hi
        · obtain ⟨a, -, rfl⟩ := List.mem_map.1 hi
          exact id
        · exact his i hi
      rw [hraise, continueWith_next]
      exact runAll_of_fault hrest rfl

/-- The commands of COMPRESS after the bytes counted. -/
def afterCounting (S : List Byte) : List Instr :=
  [.freqEnd, .buildTree, .buildCodes, .hdrEmit] ++ S.map Instr.encByte ++ [Instr.encEnd]

theorem compressCommands_eq_counting (S : List Byte) :
    compressCommands S S = .clear :: (S.map Instr.freqByte ++ afterCounting S) := by
  simp [compressCommands, afterCounting]

theorem not_alwaysLegal_of_afterCounting : ∀ i ∈ afterCounting S, ¬ AlwaysLegal i := by
  simp only [afterCounting, List.mem_append, List.mem_cons, List.not_mem_nil, or_false, List.mem_map]
  rintro i (((rfl | rfl | rfl | rfl) | ⟨b, -, rfl⟩) | rfl) <;> exact id

/-- COMPRESS of a source that has a byte too often ends in CountOverflow. -/
theorem compress_overflow {b : Byte} (hb : 2 ^ 32 - 1 < S.count b) (s : State) :
    ∃ t, compress S s = .next t ∧ t.phase = .fault ∧ t.err = .countOverflow := by
  rw [compress, compressCommands_eq_counting, runAll_cons, exec_clear, continueWith_next]
  exact runAll_counting_overflow (s := s.cleared.respond 0) not_alwaysLegal_of_afterCounting (.inl rfl) rfl
    tallies_nil (by rwa [List.count_nil, Nat.add_zero])

/-- Settles O39: either no byte is counted too often and the cycle completes, or the byte that is ends it. -/
theorem compressEndsWithTheContainer : Obligations.CompressEndsWithTheContainer := by
  intro S s
  by_cases hmax : ∀ b, S.count b ≤ 2 ^ 32 - 1
  · obtain ⟨t, bs, n, hready, hrun, hn, hbits⟩ := compress_completes hmax s
    refine ⟨_, hrun, fun _ => ⟨rfl, hready.err, rfl, hready.table.read_byte, hready.table.read_eof,
      bs, n, congrArg (· ++ bs) hready.header, hn, hbits⟩, fun ⟨b, hb⟩ => absurd (hmax b) (Nat.not_le.2 hb)⟩
  · obtain ⟨b, hb⟩ := not_forall.1 hmax
    obtain ⟨t, hrun, hend⟩ := compress_overflow (Nat.not_le.1 hb) s
    exact ⟨t, hrun, fun h => absurd h hmax, fun _ => hend⟩

end Sys2Proof.Machine
end

section
/-! DECOMPRESS (spec/46_control.md rule R194): what header bytes alone lead to, how DECOMPRESS goes on from each way
the header can end, and that a cycle from any state ends in one of the ways R194 names. -/

namespace Sys2Proof.Machine

open Sys2Proof.Safety

variable {s t u v : State} {b : Byte} {bs p : List Byte} {extra : Nat}

/-! ## What header bytes lead to (R170) -/

/-- What header bytes alone leave in ERR, FT and OUT since CLEAR. -/
structure HeaderFields (s : State) : Prop where
  /-- No error is held outside FAULT (R22). -/
  err : s.phase ≠ .fault → s.err = .none
  /-- FT is in canonical form (R50). -/
  form : Memory.wf Config.nsym s.ft
  /-- A whole header has an entry. -/
  entry : s.phase = .table → s.ft ≠ []
  /-- No byte is emitted (R54). -/
  out : s.out = []

/-- A state that header bytes alone have led to since CLEAR. -/
structure Deserializing (s : State) : Prop extends HeaderFields s where
  received : ∃ bs, Received bs s
  shows : ShowsItsPhase s

theorem deserializing_cleared (s : State) : Deserializing (s.cleared.respond 0) where
  received := ⟨[], .nothing ⟨rfl, rfl, rfl, rfl⟩⟩
  shows := showsItsPhase_of_exec (exec_clear s)
  err _ := rfl
  form := Memory.wf_nil
  entry := nofun
  out := rfl

theorem Memory.write_ne_nil {α : Type} (m : List (Nat × α)) (i : Nat) (v : α) : Memory.write m i v ≠ [] := by
  intro h
  have hread := Memory.read_write_same m i v
  rw [h] at hread
  cases hread

theorem Received.phase_mem (h : Received bs s) : s.phase ∈ [.idle, .hdr, .table, .fault] := by
  cases h with
  | nothing h => simp [h.phase]
  | entries h => simp [h.phase]
  | header h | fault _ h => simp [h]
  | highOfCount | highOfSymbol | symbol => simp [State.inHeader, responded]

/-- The header goes on, or has ended. -/
theorem Deserializing.phase_cases (h : Deserializing s) :
    (s.phase = .idle ∨ s.phase = .hdr) ∨ s.phase = .table ∨ s.phase = .fault := by
  obtain ⟨bs, hrec⟩ := h.received
  simpa [or_assoc] using hrec.phase_mem

theorem HeaderFields.of_exec (h : HeaderFields s) (hexec : exec (.hdrByte b) s = .next t) : HeaderFields t := by
  have herr : s.phase = .idle ∨ s.phase = .hdr → s.err = .none := fun hs =>
    h.err (by rcases hs with hs | hs <;> simp [hs])
  cases exec_effect hexec with
  | same data ht => subst ht; exact ⟨h.err, h.form, h.entry, h.out⟩
  | raise e hf he ht =>
    rw [State.raise_of_not_fault e hf] at ht
    subst ht
    exact ⟨fun hf => absurd rfl hf, h.form, nofun, h.out⟩
  | header _ _ _ _ _ _ hs ht => subst ht; exact ⟨fun _ => herr hs, h.form, nofun, h.out⟩
  | headerRaise _ _ _ _ _ _ _ ht => subst ht; exact ⟨fun hf => absurd rfl hf, h.form, nofun, h.out⟩
  | headerStore _ _ _ _ _ hs _ hx ht =>
    subst ht
    exact ⟨fun _ => herr hs, Memory.wf_write h.form hx, fun _ => Memory.write_ne_nil _ _ _, h.out⟩
  | clear hi | tree _ hi | codes _ hi | emit hi | encode _ _ hi | encodeEnd _ hi => cases hi
  | insert _ _ hi | add _ _ _ hi => rcases hi with ⟨_, hi, -⟩ | ⟨hi, -⟩ <;> cases hi
  | walk _ hi => rcases hi with ⟨_, hi, -⟩ | ⟨_, hi, -⟩ <;> cases hi

/-- A header byte completes and keeps what header bytes alone lead to. -/
theorem Deserializing.receives (h : Deserializing s) (b : Byte) :
    ∃ t, exec (.hdrByte b) s = .next t ∧ Deserializing t := by
  obtain ⟨bs, hrec⟩ := h.received
  obtain ⟨t, hexec, hrec'⟩ := hrec.receives b
  exact ⟨t, hexec, h.of_exec hexec, ⟨_, hrec'⟩, showsItsPhase_of_exec hexec⟩

theorem Deserializing.run (h : Deserializing s) (hrun : runAll (bs.map .hdrByte) s = .next t) :
    Deserializing t := by
  induction bs generalizing s with
  | nil =>
    obtain rfl : s = t := by simpa using hrun
    exact h
  | cons b bs ih =>
    obtain ⟨s', hexec, h'⟩ := h.receives b
    rw [List.map_cons, runAll_cons, hexec, continueWith_next] at hrun
    exact ih h' hrun

/-- While the header goes on, a byte raises nothing but CorruptHeader (R171). -/
theorem err_of_hdrByte (hs : s.phase = .idle ∨ s.phase = .hdr) (hexec : exec (.hdrByte b) s = .next t)
    (ht : t.phase = .fault) : t.err = .corruptHeader := by
  obtain ⟨-, hphases⟩ := headerAnswer_hdrByte (b := b) hs
  simpa [ht] using hphases t hexec

/-! ## The host's next move (R194) -/

/-- While the host sees neither TABLE nor FAULT, it sends the next byte, or DEC_END after the last. -/
theorem sendHeader_of_receiving (hshow : ShowsItsPhase s) (hs : s.phase = .idle ∨ s.phase = .hdr) :
    sendHeader extra [] s = exec .decEnd s ∧
      ∀ b p, sendHeader extra (b :: p) s = continueWith (exec (.hdrByte b) s) (sendHeader extra p) := by
  have hno : ¬ (showsPhase .table s || showsPhase .fault s) = true := by
    rw [hshow, hshow]; rcases hs with hs | hs <;> simp [hs]
  exact ⟨if_neg hno, fun _ _ => if_neg hno⟩

/-- Once the host sees FAULT, nothing it still sends has an effect (R187, log 18). -/
theorem sendHeader_of_fault (hshow : ShowsItsPhase s) (hs : s.phase = .fault) :
    sendHeader extra p s = .next (responded 0 s) := by
  have hyes : (showsPhase .table s || showsPhase .fault s) = true := by
    rw [hshow .fault, hs, decide_eq_true rfl, Bool.or_true]
  have hsend : sendHeader extra p s = sendAfterHeader extra p s := by cases p <;> exact if_pos hyes
  have hbuild : NoEffect .buildTree s := noEffect_of_fault id hs
  have hend : NoEffect .decEnd (responded 0 (responded 0 s)) := noEffect_decEnd (.inr hs)
  rw [hsend, sendAfterHeader, hbuild, continueWith_next,
    sendPayload_eq (showsItsPhase_responded 0 s) (by simp [responded, hs]),
    decoded_of_silent (s := responded 0 s) (.inr hs), hend]
  rfl

/-! ## After a whole header (R150, R157) -/

/-- How the payload `p` ends that is decoded along the tree of `v` (R194). -/
def EndsDecoding (v : State) (p : List Byte) (u : State) : Prop :=
  let r := decodeBits v.node v.root v.root (bytesBits p)
  u.out = r.1 ∧ (r.2 = none → u.phase = .decDone ∧ u.err = .none) ∧
    (r.2 ≠ none → u.phase = .fault ∧ u.err = .truncatedPayload)

/-- DEC_END after the payload tells whether the sentinel leaf was reached. -/
theorem exec_decEnd_after_payload (hs : v.phase = .tree) (hcur : v.cur = v.root) (hout : v.out = [])
    (herr : v.err = .none) (p : List Byte) :
    ∃ u, exec .decEnd (v.decoded (bytesBits p)) = .next u ∧ EndsDecoding v p u := by
  rw [decoded_of_walking (.inl hs), State.walked, hcur, hout]
  rcases hr : decodeBits v.node v.root v.root (bytesBits p) with ⟨bs, _ | cur⟩
  · refine ⟨_, noEffect_decEnd (.inl rfl), ?_⟩
    simp [EndsDecoding, hr, responded, released, herr]
  · refine ⟨_, raises_decEnd_of_walking (.inr rfl), ?_⟩
    simp [EndsDecoding, hr, responded, faulted]

/-- After a whole header the host builds the tree and has the rest decoded. -/
theorem Deserializing.sendHeader_of_table (h : Deserializing s) (hs : s.phase = .table) (p : List Byte) :
    ∃ v u, exec .buildTree s = .next v ∧ v.phase = .tree ∧ EndsDecoding v p u ∧
      ∀ extra, sendHeader extra p s = .next u := by
  obtain ⟨nodes, hbuilt, -⟩ := builtTree_spec h.form (h.entry hs)
  have hbuild := (exec_buildTree_of_table hs).trans (buildTreeRule_of_built hbuilt)
  obtain ⟨u, hend, hu⟩ := exec_decEnd_after_payload (v := responded 0 (s.withTree nodes (2 * leafCount s.ft - 2)))
    rfl rfl h.out (h.err (by simp [hs])) p
  refine ⟨_, u, hbuild, rfl, hu, fun extra => ?_⟩
  rw [Machine.sendHeader_of_table h.shows hs, sendAfterHeader, hbuild, continueWith_next,
    sendPayload_eq (showsItsPhase_of_exec hbuild) (by simp [State.withTree, responded]), hend]

/-! ## The end of the cycle (R194) -/

/-- The ends R194 names. -/
def EndsAsNamed (u : State) : Prop :=
  (u.phase = .decDone ∧ u.err = .none) ∨
    (u.phase = .fault ∧ u.err ∈ [.corruptHeader, .truncatedPayload, .illegalCommand])

theorem EndsDecoding.endsAsNamed (h : EndsDecoding v p u) : EndsAsNamed u ∧ u.err ≠ .illegalCommand := by
  obtain ⟨-, hdone, hcut⟩ := h
  by_cases hr : (decodeBits v.node v.root v.root (bytesBits p)).2 = none
  · obtain ⟨hphase, herr⟩ := hdone hr
    exact ⟨.inl ⟨hphase, herr⟩, by simp [herr]⟩
  · obtain ⟨hphase, herr⟩ := hcut hr
    exact ⟨.inr ⟨hphase, by simp [herr]⟩, by simp [herr]⟩

/-- A header that has ended, whole or bad, decides how DECOMPRESS ends. -/
theorem Deserializing.sendHeader_of_ended (h : Deserializing s) (hf : s.phase = .fault → s.err = .corruptHeader)
    (hs : s.phase = .table ∨ s.phase = .fault) (p : List Byte) :
    ∃ u, (∀ extra, sendHeader extra p s = .next u) ∧ EndsAsNamed u ∧ u.err ≠ .illegalCommand := by
  rcases hs with hs | hs
  · obtain ⟨v, u, -, -, hu, hsend⟩ := h.sendHeader_of_table hs p
    exact ⟨u, hsend, hu.endsAsNamed⟩
  · exact ⟨_, fun _ => sendHeader_of_fault h.shows hs, .inr ⟨hs, by simp [responded, hf hs]⟩, by
      simp [responded, hf hs]⟩

/-- DEC_END inside the header: CorruptHeader, or IllegalCommand where not a byte has come (R157). -/
theorem exec_decEnd_in_header (hs : s.phase = .idle ∨ s.phase = .hdr) : ∃ e,
    exec .decEnd s = .next (faulted e s) ∧
      ((s.phase = .idle ∧ e = .illegalCommand) ∨ (s.phase = .hdr ∧ e = .corruptHeader)) := by
  rcases hs with hs | hs
  · exact ⟨_, raises_of_gateOf (by rw [hs]; rfl), .inl ⟨hs, rfl⟩⟩
  · exact ⟨_, raises_of_gateOf (by rw [hs]; rfl), .inr ⟨hs, rfl⟩⟩

/-- A header byte leaves IDLE (R170). -/
theorem phase_ne_idle_of_hdrByte (hs : s.phase = .idle ∨ s.phase = .hdr) (hexec : exec (.hdrByte b) s = .next t) :
    t.phase ≠ .idle := by
  obtain ⟨-, hphases⟩ := headerAnswer_hdrByte (b := b) hs
  intro ht
  simpa [ht] using hphases t hexec

/-- From inside the header, DECOMPRESS ends as R194 names, with IllegalCommand only for no bytes at all. -/
theorem Deserializing.sendHeader_ends (h : Deserializing s) (hf : s.phase = .fault → s.err = .corruptHeader)
    (p : List Byte) :
    ∃ u, (∀ extra, sendHeader extra p s = .next u) ∧ EndsAsNamed u ∧
      (u.err = .illegalCommand ↔ s.phase = .idle ∧ p = []) := by
  induction p generalizing s with
  | nil =>
    rcases h.phase_cases with hs | hs
    · obtain ⟨e, hend, he⟩ := exec_decEnd_in_header hs
      refine ⟨_, fun extra => (sendHeader_of_receiving h.shows hs).1.trans hend, ?_⟩
      rcases he with ⟨hs, rfl⟩ | ⟨hs, rfl⟩ <;> simp [EndsAsNamed, faulted, hs]
    · obtain ⟨u, hsend, hu, herr⟩ := h.sendHeader_of_ended hf hs []
      exact ⟨u, hsend, hu, by rcases hs with hs | hs <;> simp [herr, hs]⟩
  | cons b p ih =>
    rcases h.phase_cases with hs | hs
    · obtain ⟨t, hexec, ht⟩ := h.receives b
      obtain ⟨u, hsend, hu, herr⟩ := ih ht (err_of_hdrByte hs hexec)
      refine ⟨u, fun extra => ?_, hu, by simp [herr, phase_ne_idle_of_hdrByte hs hexec]⟩
      obtain ⟨-, hnext⟩ := sendHeader_of_receiving (extra := extra) h.shows hs
      rw [hnext, hexec, continueWith_next, hsend]
    · obtain ⟨u, hsend, hu, herr⟩ := h.sendHeader_of_ended hf hs (b :: p)
      exact ⟨u, hsend, hu, by simp [herr]⟩

/-- Where bytes are found to be no header, DECOMPRESS of them and any more ends with CorruptHeader. -/
theorem Deserializing.sendHeader_of_corrupt (h : Deserializing s) (hf : s.phase = .fault → s.err = .corruptHeader)
    (hrun : runAll (bs.map .hdrByte) s = .next t) (ht : t.err = .corruptHeader) :
    ∃ u, sendHeader extra (bs ++ p) s = .next u ∧ u.err = .corruptHeader := by
  induction bs generalizing s with
  | nil =>
    obtain rfl : s = t := by simpa using hrun
    have hs : s.phase = .fault := by
      by_contra hs
      rw [h.err hs] at ht
      cases ht
    exact ⟨_, sendHeader_of_fault h.shows hs, ht⟩
  | cons b bs ih =>
    rcases h.phase_cases with hs | hs | hs
    · obtain ⟨s', hexec, h'⟩ := h.receives b
      rw [List.map_cons, runAll_cons, hexec, continueWith_next] at hrun
      obtain ⟨u, hsend, hu⟩ := ih h' (err_of_hdrByte hs hexec) hrun
      obtain ⟨-, hnext⟩ := sendHeader_of_receiving (extra := extra) h.shows hs
      exact ⟨u, by rw [List.cons_append, hnext, hexec, continueWith_next, hsend], hu⟩
    · have hraise : Raises (.hdrByte b) .illegalCommand s :=
        illegalOutside_of_gateOf (legal := [.idle, .hdr]) (fun _ => rfl) s (by simp [hs]) (by simp [hs])
      obtain ⟨t', hrun', -, herr⟩ := runAll_of_fault (is := bs.map .hdrByte) (s := faulted .illegalCommand s)
        (by simp [AlwaysLegal]) rfl
      rw [List.map_cons, runAll_cons, hraise, continueWith_next, hrun'] at hrun
      obtain rfl : t' = t := by simpa using hrun
      rw [herr] at ht
      cases ht
    · exact ⟨_, sendHeader_of_fault h.shows hs, hf hs⟩

/-- DECOMPRESS goes on from CLEAR (R194). -/
theorem decompress_eq (extra : Nat) (c : List Byte) (s : State) :
    decompress extra c s = sendHeader extra c (s.cleared.respond 0) := by
  rw [decompress, exec_clear, continueWith_next]

/-- Settles O40: the header bytes go on, end whole or are found bad, and each way decides the end; the clauses on a
first part of the container follow the same bytes. -/
theorem decompressEndsAsStated : Obligations.DecompressEndsAsStated := by
  intro c s
  have hstart := deserializing_cleared s
  obtain ⟨u, hsend, hends, hillegal⟩ := hstart.sendHeader_ends nofun c
  refine ⟨u, fun extra => (decompress_eq ..).trans (hsend extra), hends, by simpa using hillegal, ?_⟩
  intro h p t hc hrun
  subst hc
  have hrun : runAll (h.map .hdrByte) (s.cleared.respond 0) = .next t := hrun
  have ht := hstart.run hrun
  have hrest : t.phase ≠ .fault → sendHeader 0 p t = .next u := fun hf =>
    (sendHeader_append hstart.shows hrun hf).symm.trans (hsend 0)
  refine ⟨fun hcorrupt => ?_, fun hhdr hp => ?_, fun htable => ?_⟩
  · obtain ⟨u', hsend', hu'⟩ := hstart.sendHeader_of_corrupt (extra := 0) (p := p) nofun hrun hcorrupt
    obtain rfl : u' = u := by simpa using hsend'.symm.trans (hsend 0)
    exact hu'
  · subst hp
    obtain ⟨hnil, -⟩ := sendHeader_of_receiving (extra := 0) ht.shows (.inr hhdr)
    have hraise : Raises .decEnd .corruptHeader t := raises_of_gateOf (by rw [hhdr]; rfl)
    obtain rfl : faulted .corruptHeader t = u := by
      simpa using (hnil.trans hraise).symm.trans (hrest (by simp [hhdr]))
    rfl
  · obtain ⟨v, u', hbuild, hv, ⟨hout, hdone, hcut⟩, hsend'⟩ := ht.sendHeader_of_table htable p
    obtain rfl : u' = u := by simpa using (hsend' 0).symm.trans (hrest (by simp [htable]))
    exact ⟨v, hbuild, hv, hout, fun hr => (hdone hr).1, fun hr => (hcut hr).2⟩

end Sys2Proof.Machine
end

section
/-! The way into FAULT and the ways out of it (spec/60_exceptions.md rules R201, R202, R209). -/

namespace Sys2Proof.Machine

open Sys2Proof.Safety

variable {s t : State} {i : Instr}

/-- A raise from a phase other than FAULT, with its response, written out field by field (R90, R201). -/
theorem respond_raise_eq_faulted (e : Err) (hf : s.phase ≠ .fault) : (s.raise e).respond 0 = faulted e s := by
  rw [State.raise_of_not_fault e hf]; rfl

/-- PHASE becomes FAULT by a raise alone: before the command has written anything, or in HDR_BYTE after it has
received its byte. -/
theorem Effect.entersFault (h : Effect i s t) (hs : s.phase ≠ .fault) (ht : t.phase = .fault) :
    (∃ e, e ≠ .none ∧ t = faulted e s) ∨
      ∃ b hpos hn hsym hcnt, i = .hdrByte b ∧
        t = faulted .corruptHeader { s with hpos := hpos, hn := hn, hsym := hsym, hcnt := hcnt } := by
  cases h with
  | raise e hf he h => exact .inl ⟨e, he, h.trans (respond_raise_eq_faulted e hf)⟩
  | headerRaise b hpos hn hsym hcnt hi _ h =>
    exact .inr ⟨b, hpos, hn, hsym, hcnt, hi, h.trans (respond_raise_eq_faulted _ nofun)⟩
  | same _ h | emit _ _ h => subst h; exact absurd ht hs
  | clear _ h | tree _ _ _ _ h | codes _ _ _ _ h | encode _ _ _ _ _ h | encodeEnd _ _ _ _ h
  | header _ _ _ _ _ _ _ h => subst h; cases ht
  | insert _ _ hi _ _ h | add _ _ _ hi _ _ _ h =>
    subst h
    rcases hi with ⟨_, _, _, rfl⟩ | ⟨_, _, rfl⟩ <;> cases ht
  | headerStore _ _ _ _ _ _ hp _ h =>
    subst h
    rcases hp with rfl | rfl <;> cases ht
  | walk bits _ _ h =>
    subst h
    rcases walkBits_cases bits { s with phase := .dec } with ⟨_, _, hw⟩ | ⟨_, hw⟩
    · rw [hw] at ht; cases ht
    · rw [hw] at ht; cases ht

/-- Settles O46: FAULT is entered by a raise, from the state as it was or, in HDR_BYTE, with the header's registers
written. -/
theorem faultEntryIsPrecise : Obligations.FaultEntryIsPrecise := by
  intro i s t hs hexec ht
  rcases (exec_effect hexec).entersFault hs ht with ⟨e, he, rfl⟩ | ⟨b, hpos, hn, hsym, hcnt, rfl, rfl⟩
  · exact ⟨he, fun _ => rfl, fun _ _ => ⟨s.hpos, s.hn, s.hsym, s.hcnt, rfl⟩⟩
  · exact ⟨nofun, fun hne => absurd rfl (hne b), fun _ _ => ⟨hpos, hn, hsym, hcnt, rfl⟩⟩

/-- In FAULT a command answers and does no more, or it is CLEAR (R187, R188). -/
theorem Effect.inFault (h : Effect i s t) (hs : s.phase = .fault) :
    (∃ data, t = s.respond data) ∨ i = .clear ∧ t = s.cleared.respond 0 := by
  cases h with
  | same data h => exact .inl ⟨data, h⟩
  | clear hi h => exact .inr ⟨hi, h⟩
  | raise _ hf => exact absurd hs hf
  | insert _ _ _ hp | add _ _ _ _ hp | tree _ _ hp | codes _ _ hp | emit _ hp | encode _ _ _ hp
  | encodeEnd _ _ hp | header _ _ _ _ _ _ hp | headerRaise _ _ _ _ _ _ hp | headerStore _ _ _ _ _ hp
  | walk _ _ hp => simp [hs] at hp

/-- With no move left HUFF waits for the host (log 3). -/
theorem step_of_no_move (hs : s.host = []) : step s = .next s := by simp only [step, hs]

theorem step_of_reset {rest : List HostMove} (hs : s.host = .reset :: rest) :
    step s = .next (State.resetInput { s with host := rest }) := by simp only [step, hs]

/-- Settles O47: by the host's move; a word in FAULT is CLEAR or leaves PHASE and ERR as they were. -/
theorem onlyClearOrResetLeavesFault : Obligations.OnlyClearOrResetLeavesFault := by
  intro s t hs ht
  match hhost : s.host with
  | [] =>
    obtain rfl : s = t := by simpa using (step_of_no_move hhost).symm.trans ht
    exact .inl ⟨hs, rfl⟩
  | .reset :: rest =>
    obtain rfl : State.resetInput { s with host := rest } = t := by
      simpa using (step_of_reset hhost).symm.trans ht
    exact .inr ⟨rfl, rfl, rest, .inl rfl⟩
  | .word w :: rest =>
    cases hw : decode w with
    | ok i =>
      rw [step_of_legal_word hhost hw] at ht
      rcases (exec_effect ht).inFault hs with ⟨data, rfl⟩ | ⟨rfl, rfl⟩
      · exact .inl ⟨hs, rfl⟩
      · exact .inr ⟨rfl, rfl, rest, .inr ⟨w, rfl, hw⟩⟩
    | error e =>
      obtain ⟨-, hillegal⟩ := faultPhaseIgnoresCommands s hs
      obtain rfl : responded 0 { s with host := rest } = t := by
        simpa using (hillegal w rest e hhost hw).symm.trans ht
      exact .inl ⟨hs, rfl⟩

end Sys2Proof.Machine
end

section
/-! Decode and encode as one bijection between the legal words and the commands (spec/30_encoding.md rules R80 to
R88). -/

namespace Sys2Proof

open Sys2Proof.Machine Sys2Proof.Safety

/-! ## Every command is read back from its word -/

theorem decode_encodeB {op : BitVec 6} {c : Byte → Instr} (hop : ∀ arg, decodeFields op arg = decodeB arg c)
    (b : Byte) : decode (encodeB op b) = .ok (c b) := by
  rw [encodeB, decode_of_fields, hop, decodeB_of_byte]

theorem decode_encodeX {op : BitVec 6} {c : BitVec 10 → Instr}
    (hop : ∀ arg, decodeFields op arg = decodeX arg c) (x : BitVec 10) : decode (encodeX op x) = .ok (c x) := by
  rw [encodeX, decode_of_fields, hop, decodeX]

theorem decode_encode (i : Instr) : decode (encode i) = .ok i := by
  cases i with
  | nop | clear | freqEnd | buildTree | buildCodes | hdrEmit | encEnd | decEnd => rfl
  | freqByte b | encByte b | hdrByte b | decByte b => exact decode_encodeB (fun _ => rfl) b
  | decBit t => exact (decode_of_fields ..).trans (decodeT_of_bit t .decBit)
  | rdReg r => exact (decode_of_fields ..).trans (decodeR_of_number r .rdReg)
  | rdFreq x | rdNode x | rdCode x => exact decode_encodeX (fun _ => rfl) x

/-- Settles O1: a decoded word is the encoding of its command, and every command is read back from its word. -/
theorem decodeInvertsEncode : Obligations.DecodeInvertsEncode :=
  fun _ i => ⟨encode_of_decode, fun h => h ▸ decode_encode i⟩

/-! ## Well-formed words (R81 to R85, R88) -/

/-- An opcode has one row, and the row gives its format (R87). -/
theorem opFormat_of_row : ∀ row ∈ opcodeTable, opFormat row.op = some row.format := by decide +kernel

theorem row_of_opFormat {op : BitVec 6} {f : Format} (h : opFormat op = some f) :
    ∃ row ∈ opcodeTable, row.op = op ∧ row.format = f := by
  obtain ⟨row, hfind, hf⟩ := Option.map_eq_some_iff.1 h
  have hop := List.find?_some hfind
  exact ⟨row, List.mem_of_find?_eq_some hfind, eq_of_beq hop, hf⟩

/-- A word is well formed exactly when a row has its op and a format its arg obeys. -/
theorem wellFormed_iff_row (w : RawWord) :
    w.wellFormed = true ↔ ∃ row ∈ opcodeTable, w.op = row.op ∧ row.format.argOk w.arg = true := by
  rw [RawWord.wellFormed]
  constructor
  · intro h
    split at h
    · obtain ⟨row, hrow, hop, rfl⟩ := row_of_opFormat ‹_›
      exact ⟨row, hrow, hop.symm, h⟩
    · cases h
  · rintro ⟨row, hrow, hop, harg⟩
    rw [hop, opFormat_of_row row hrow]
    exact harg

/-- Settles O5: the decoder accepts the words that match a row, for it accepts every such word, and a word it accepts
is the encoding of a command. -/
theorem wellFormedWordsDecode : Obligations.WellFormedWordsDecode := by
  intro w
  rw [wellFormed_iff_row]
  constructor
  · rintro ⟨row, hrow, hop, harg⟩
    obtain ⟨i, hi, -⟩ := decodeFields_of_row hrow harg
    exact ⟨i, by rw [decode, ← hi]; exact congrArg (decodeFields · _) hop⟩
  · rintro ⟨i, hi⟩
    obtain ⟨row, hrow, -, hmatch⟩ := encode_matches_row i
    rw [encode_of_decode hi] at hmatch
    exact ⟨row, hrow, (word_matches_row_iff hrow w).1 hmatch⟩

/-- Settles O6: each word evaluates to its command, or to the check that fails. -/
theorem decodedWordsOfTheSpec : Obligations.DecodedWordsOfTheSpec := by
  unfold Obligations.DecodedWordsOfTheSpec
  decide

end Sys2Proof

namespace Sys2Proof.Machine

open Sys2Proof.Safety

/-! ## The host's next move (R89, R230) -/

/-- Settles O7: a legal word is decoded, and a command is read back from the word put in front of the others. -/
theorem stepRunsTheDecodedCommand : Obligations.StepRunsTheDecodedCommand := by
  refine ⟨fun _ _ _ _ => step_of_legal_word, ?_⟩
  intro s i
  have hword : (s.withFetchWord 16 (encode i).toNat).host = .word (encode i) :: s.host := by
    simp only [State.withFetchWord, BitVec.ofNat_toNat, BitVec.setWidth_eq]
  exact step_of_legal_word hword (decode_encode i)

/-- Settles O8: the reset input and CLEAR both write the whole table of R34. -/
theorem resetInputGivesTheResetState : Obligations.ResetInputGivesTheResetState :=
  fun _ _ hs => ⟨step_of_reset hs, exec_clear _⟩

/-- Settles O9: with no move of the host a step is the wait of log 3. -/
theorem stepWaitsForTheHost : Obligations.StepWaitsForTheHost := fun _ => step_of_no_move

end Sys2Proof.Machine
end

section
/-! The invariant (spec/10_state.md rules R22 to R35): every command keeps it, phase by phase, so that every step
does. -/

namespace Sys2Proof.Machine

open Sys2Proof.Safety

variable {s t : State} {i : Instr} {x : Nat} {p : Phase} {c : Count} {e : Err} {b : Byte} {k j : Nat}

/-! ## What no field of the invariant speaks of -/

/-- The response and the host's moves are no part of the invariant. -/
theorem consistent_withPorts (hc : Consistent s) (host : List HostMove) (resp : Option Response) :
    Consistent { s with host := host, resp := resp } :=
  { hc with
    idleIsReset := fun hs => congrArg (fun u => { u with host := host, resp := resp }) (hc.idleIsReset hs)
    header := fun hs => { hc.header hs with } }

theorem consistent_responded (hc : Consistent s) (data : RData) : Consistent (responded data s) :=
  consistent_withPorts hc s.host _

/-- Settles O53: the tables are empty, the registers are 0 or NIL, and IDLE asks for no more. -/
theorem resetIsConsistent : Obligations.ResetIsConsistent where
  errInFault := by decide
  errRaised := nofun
  ftForm := Memory.wf_nil
  ftPositive := nofun
  ftNumber := rfl
  ftSentinel := fun h => absurd h (by decide)
  ftCounting := nofun
  ctForm := Memory.wf_nil
  ctEntries := nofun
  ctPhase := fun h => absurd rfl h
  ctComplete := fun h => absurd h (by decide)
  ctPaths := fun h => absurd h (by decide)
  treeInPhase := by decide
  treeGone := fun _ => ⟨rfl, rfl, rfl, rfl⟩
  treeBuilt := nofun
  cursor := nofun
  cursorAtRoot := fun h => absurd h (by decide)
  packerPlaced := fun k _ => by simp [State.reset]
  packerEmpty := fun _ => ⟨rfl, rfl⟩
  idleIsReset := fun _ => rfl
  header := nofun
  headerRange := by decide

/-- CLEAR leaves the reset state. -/
theorem consistent_cleared (s : State) : Consistent (s.cleared.respond 0) :=
  consistent_responded (consistent_withPorts resetIsConsistent s.host none) 0

/-! ## A raise (R201) -/

/-- A raise keeps the invariant, the header's registers being written before it or not (R202). -/
theorem consistent_faulted (hc : Consistent s) (he : e ≠ .none) (hcode : e ≠ .invalidCodeBit) {hpos : BitVec 11}
    (hrange : hpos.toNat ≤ Config.hdrMax) (hn hsym : BitVec 16) (hcnt : BitVec 32) :
    Consistent (faulted e { s with hpos := hpos, hn := hn, hsym := hsym, hcnt := hcnt }) :=
  { hc with
    errInFault := iff_of_true he rfl
    errRaised := hcode
    ftSentinel := fun h => absurd h (by decide : Phase.fault ∉ finalTable)
    ftCounting := nofun
    ctPhase := fun _ => (by decide : Phase.fault ∈ codePhases)
    ctComplete := fun h => absurd h (by decide : Phase.fault ∉ [Phase.codes, .enc, .encDone])
    ctPaths := fun h => absurd h (by decide : Phase.fault ∉ [Phase.codes, .enc])
    treeInPhase := (by decide : false = true ↔ Phase.fault ∈ treePhases)
    treeGone := fun _ => ⟨rfl, rfl, rfl, rfl⟩
    treeBuilt := nofun
    cursor := nofun
    cursorAtRoot := fun h => absurd h (by decide : Phase.fault ∉ [Phase.tree, .codes, .enc])
    packerEmpty := fun h => absurd (by decide : Phase.fault ∈ [Phase.enc, .fault]) h
    idleIsReset := nofun
    header := nofun
    headerRange := ⟨hrange, hc.headerRange.2⟩ }

/-- The code 5 is raised by no command (R206). -/
theorem err_ne_invalidCodeBit (hc : Consistent s) (hf : s.phase ≠ .fault) (h : exec i s = .next t) :
    t.err ≠ .invalidCodeBit := by
  by_cases hlegal : s.phase ∈ legalPhases i
  · obtain ⟨u, hu, hmem⟩ := movesAsListed_of_legal hc hf hlegal
    obtain rfl : u = t := by simpa only [Host.Outcome.next.injEq] using hu.symm.trans h
    have hlisted : ∀ m ∈ nextPhases i s.phase, m.2 ≠ .invalidCodeBit := by
      unfold nextPhases
      split <;> simp
    exact hlisted _ hmem
  · have hraise : Raises i (phaseError i s.phase) s := raises_of_not_legal hf hlegal
    obtain rfl : faulted (phaseError i s.phase) s = t := by
      simpa only [Host.Outcome.next.injEq] using Eq.trans (Eq.symm hraise) h
    show phaseError i s.phase ≠ _
    unfold phaseError
    split <;> simp

/-! ## Before BUILD_TREE: IDLE, COUNT, HDR and TABLE -/

/-- No error, no tree, no code and no bit, as in every state before BUILD_TREE. -/
structure TableOnly (s : State) : Prop where
  err : s.err = .none
  ct : s.ct = []
  treeValid : s.treeValid = false
  tree : s.nodeCnt = 0 ∧ s.root = Config.nil ∧ s.cur = Config.nil ∧ s.node = []
  packer : s.nb = 0 ∧ s.acc = 0

theorem tableOnly_of_consistent (hc : Consistent s) (hs : s.phase ∈ [.idle, .count, .hdr, .table]) :
    TableOnly s := by
  have hfault : s.phase ≠ .fault := by rintro h; simp [h] at hs
  have hcode : s.phase ∉ codePhases := by revert hs; cases s.phase <;> decide
  have htree : s.phase ∉ treePhases := by revert hs; cases s.phase <;> decide
  have henc : s.phase ∉ [.enc, .fault] := by revert hs; cases s.phase <;> decide
  have hvalid : s.treeValid = false := Bool.eq_false_iff.2 fun h => htree (hc.treeInPhase.1 h)
  exact ⟨err_of_not_fault hc hfault, of_not_not fun h => hcode (hc.ctPhase h), hvalid, hc.treeGone hvalid,
    hc.packerEmpty henc⟩

/-- FT in canonical form, with positive counts, and FT_N its length (R35 (a), R50). -/
structure TableOk (ft : List (Nat × Count)) (ftN : BitVec 9) : Prop where
  form : Memory.wf Config.nsym ft
  positive : ∀ e ∈ ft, e.2 ≠ 0
  number : ftN.toNat = ft.length

theorem tableOk_of_consistent (hc : Consistent s) : TableOk s.ft s.ftN := ⟨hc.ftForm, hc.ftPositive, hc.ftNumber⟩

section

variable {ft : List (Nat × Count)} {ftN : BitVec 9}

theorem positive_write (h : TableOk ft ftN) (hne : c ≠ 0) : ∀ e ∈ Memory.write ft x c, e.2 ≠ 0 := by
  intro e he
  rcases Memory.mem_write_fst he with rfl | he
  · exact hne
  · exact h.positive e he

/-- A new entry, counted in FT_N. -/
theorem TableOk.insert (h : TableOk ft ftN) (hx : x < Config.nsym) (hr : Memory.read ft x = none) (hne : c ≠ 0) :
    TableOk (Memory.write ft x c) (ftN + 1) := by
  have hform := Memory.wf_write (v := c) h.form hx
  have hlen := Memory.length_write_of_none (v := c) hr
  have hle : (Memory.write ft x c).length ≤ 257 := Memory.length_le hform
  refine ⟨hform, positive_write h hne, ?_⟩
  have hnum := h.number
  rw [BitVec.toNat_add, hlen, hnum]
  simp
  omega

/-- An entry with a new count. -/
theorem TableOk.replace (h : TableOk ft ftN) (hx : x < Config.nsym) (hr : (Memory.read ft x).isSome)
    (hne : c ≠ 0) : TableOk (Memory.write ft x c) ftN := by
  refine ⟨Memory.wf_write h.form hx, positive_write h hne, ?_⟩
  have hfst := congrArg List.length (Memory.fst_write_of_some (v := c) h.form hr)
  rw [List.length_map, List.length_map] at hfst
  rw [hfst, h.number]

end

/-- The invariant before BUILD_TREE, past IDLE. -/
theorem TableOnly.consistent (h : TableOnly s) (hs : s.phase ∈ [.count, .hdr, .table])
    (htable : TableOk s.ft s.ftN) (hsent : s.phase = .table → (Memory.read s.ft Config.eof).isSome)
    (hcount : s.phase = .count → Memory.read s.ft Config.eof = none) (hheader : s.phase = .hdr → HeaderInv s)
    (hrange : s.hpos.toNat ≤ Config.hdrMax ∧ s.hprev.toNat ≤ Config.eof) : Consistent s := by
  have hphase : s.phase = .count ∨ s.phase = .hdr ∨ s.phase = .table := by simpa using hs
  have hfault : s.phase ≠ .fault := by rcases hphase with h | h | h <;> simp [h]
  have hvalid : ¬ s.treeValid = true := Bool.eq_false_iff.1 h.treeValid
  exact {
    errInFault := iff_of_false (not_not_intro h.err) hfault
    errRaised := by rw [h.err]; nofun
    ftForm := htable.form
    ftPositive := htable.positive
    ftNumber := htable.number
    ftSentinel := fun hf => hsent (by rcases hphase with h | h | h <;> simp_all [finalTable])
    ftCounting := hcount
    ctForm := h.ct ▸ Memory.wf_nil
    ctEntries := by rw [h.ct]; nofun
    ctPhase := fun hne => absurd h.ct hne
    ctComplete := fun hp => by rcases hphase with h | h | h <;> simp [h] at hp
    ctPaths := by rw [h.ct]; nofun
    treeInPhase := iff_of_false hvalid (by rcases hphase with h | h | h <;> simp [h, treePhases])
    treeGone := fun _ => h.tree
    treeBuilt := fun hv => absurd hv hvalid
    cursor := fun hv => absurd hv hvalid
    cursorAtRoot := fun hp => by rcases hphase with h | h | h <;> simp [h] at hp
    packerPlaced := fun k _ => by rw [h.packer.2]; simp
    packerEmpty := fun _ => h.packer
    idleIsReset := fun hp => by rcases hphase with h | h | h <;> simp [h] at hp
    header := hheader
    headerRange := hrange }

/-- Counting a symbol keeps the invariant, whether its entry is new or not (R100, R101). -/
theorem consistent_counted (hc : Consistent s) (hi : Counts i x p) (hs : s.phase = .idle ∨ s.phase = .count)
    {ftN : BitVec 9} (htable : TableOk (Memory.write s.ft x c) ftN) :
    Consistent { s with ft := Memory.write s.ft x c, ftN := ftN, phase := p } := by
  have hbefore : TableOnly s := tableOnly_of_consistent hc (by rcases hs with h | h <;> simp [h])
  have habsent := sentinel_absent hc hs
  refine TableOnly.consistent { hbefore with } ?_ htable (fun hp => ?_) (fun hp => ?_) (fun hp => ?_) hc.headerRange
  · rcases hi with ⟨_, -, -, rfl⟩ | ⟨-, -, rfl⟩ <;> simp
  all_goals rcases hi with ⟨b, -, rfl, rfl⟩ | ⟨-, rfl, rfl⟩
  · cases hp
  · simp
  · exact (Memory.read_write_other _ _ (eof_ne_toNat b)).trans habsent
  · cases hp
  · cases hp
  · cases hp

/-! ## HDR (R170, R171) -/

/-- Inside a header of `s.hn` entries, `j` bytes of entry `k` have come. -/
structure InEntry (k j : Nat) (s : State) : Prop where
  hpos : s.hpos = BitVec.ofNat 11 (2 + 6 * k + j)
  byte : j < 6
  more : k < s.hn.toNat
  range : s.hn.toNat ≤ Config.nsym
  stored : s.ft.length = k
  below : ∀ e ∈ s.ft, e.1 ≤ s.hprev.toNat
  symbol : 2 ≤ j → s.hsym.toNat ≤ Config.eof ∧ (∀ e ∈ s.ft, e.1 < s.hsym.toNat) ∧
    (k + 1 = s.hn.toNat → s.hsym.toNat = Config.eof)

theorem InEntry.lt_nsym (h : InEntry k j s) : k < Config.nsym := Nat.lt_of_lt_of_le h.more h.range

theorem InEntry.toNat_hpos (h : InEntry k j s) : s.hpos.toNat = 2 + 6 * k + j := by
  have hk : k < 257 := h.lt_nsym
  have hj := h.byte
  rw [h.hpos, BitVec.toNat_ofNat]
  omega

/-- From the second byte on, the header's invariant says which byte of which entry comes next. -/
theorem inEntry_of_headerInv (h : HeaderInv s) (hp : 2 ≤ s.hpos.toNat) : ∃ k j, InEntry k j s := by
  obtain ⟨-, hN, hmore⟩ := h.length hp
  obtain ⟨hlen, hbelow⟩ := h.stored hp
  have hdiv : 2 + 6 * ((s.hpos.toNat - 2) / 6) + (s.hpos.toNat - 2) % 6 = s.hpos.toNat := by omega
  exact ⟨(s.hpos.toNat - 2) / 6, (s.hpos.toNat - 2) % 6, by rw [hdiv]; simp, by omega, by omega, hN, hlen, hbelow,
    h.symbol hp⟩

theorem InEntry.headerInv (h : InEntry k j s) : HeaderInv s := by
  have hpos := h.toNat_hpos
  have hj := h.byte
  have hmore := h.more
  have hentry : (s.hpos.toNat - 2) / 6 = k := by omega
  have hbyte : (s.hpos.toNat - 2) % 6 = j := by omega
  refine ⟨⟨by omega, by omega⟩, fun _ => ⟨by omega, h.range, by omega⟩, fun _ => ?_, fun _ => ?_⟩
  · rw [hentry]; exact ⟨h.stored, h.below⟩
  · rw [hentry, hbyte]; exact h.symbol

/-- HPOS stays in its range (R29). -/
theorem InEntry.hpos_succ_le (h : InEntry k j s) : 2 + 6 * k + j + 1 ≤ Config.hdrMax := by
  have hk : k < 257 := h.lt_nsym
  have hj := h.byte
  simp only [Config.hdrMax]
  omega

/-- A header that goes on keeps the invariant. -/
theorem consistent_inHeader (hc : Consistent s) (hs : s.phase = .idle ∨ s.phase = .hdr) {hpos : Nat}
    {hn hsym : BitVec 16} {hcnt : BitVec 32} (h : HeaderInv (s.inHeader hpos hn hsym hcnt))
    (hle : hpos ≤ Config.hdrMax) :
    Consistent (s.inHeader hpos hn hsym hcnt) := by
  have hbefore : TableOnly s := tableOnly_of_consistent hc (by rcases hs with h | h <;> simp [h])
  refine TableOnly.consistent { hbefore with } (by simp [State.inHeader, responded])
    (tableOk_of_consistent hc :) nofun nofun (fun _ => h) ⟨?_, hc.headerRange.2⟩
  exact (BitVec.toNat_ofNat ..).trans_le ((Nat.mod_le ..).trans hle)

/-- A header byte that fails a test keeps the invariant. -/
theorem consistent_corrupt (hc : Consistent s) {hpos : Nat} (hle : hpos ≤ Config.hdrMax) (p : Phase)
    (hn hsym : BitVec 16) (hcnt : BitVec 32) : Consistent (faulted .corruptHeader { s with
      phase := p, hpos := BitVec.ofNat 11 hpos, hn := hn, hsym := hsym, hcnt := hcnt }) := by
  have hrange : (BitVec.ofNat 11 hpos).toNat ≤ Config.hdrMax :=
    (BitVec.toNat_ofNat ..).trans_le ((Nat.mod_le ..).trans hle)
  exact consistent_faulted (e := .corruptHeader) hc nofun nofun hrange hn hsym hcnt

/-- The low byte of N keeps the invariant. -/
theorem consistent_lowOfCount (hc : Consistent s) (hs : s.phase = .hdr) (hp : s.hpos.toNat = 1)
    (h : exec (.hdrByte b) s = .next t) : Consistent t := by
  have hft := (hc.header hs).started.2 hp
  generalize hy : s.hn ||| lowByte b = y
  have hexec : exec (.hdrByte b) s =
      checkEntryCount { s with phase := .hdr, hpos := BitVec.ofNat 11 2, hn := y } := by
    have hpos : s.hpos = 1 := BitVec.eq_of_toNat_eq hp
    rw [exec_hdrByte (.inr hs), hpos, ← hy]
    rfl
  by_cases hbad : y = 0 ∨ Config.nsym < y.toNat
  · rw [hexec.trans (checkEntryCount_of_invalid hbad nofun)] at h
    injection h with h
    exact h ▸ consistent_corrupt hc (by decide) .hdr y s.hsym s.hcnt
  · obtain ⟨h0, hle⟩ := not_or.1 hbad
    have hpos : 0 < y.toNat := Nat.pos_of_ne_zero fun h => h0 (BitVec.eq_of_toNat_eq h)
    rw [hexec.trans (checkEntryCount_of_valid h0 (Nat.not_lt.1 hle))] at h
    injection h with h
    have hin : InEntry 0 0 (s.inHeader 2 y s.hsym s.hcnt) :=
      { hpos := rfl, byte := by decide, more := hpos, range := Nat.not_lt.1 hle
        stored := congrArg List.length hft, below := fun e he => absurd (hft ▸ he) List.not_mem_nil, symbol := nofun }
    exact h ▸ consistent_inHeader hc (.inr hs) hin.headerInv (by decide)

/-- The first byte of a symbol keeps the invariant. -/
theorem InEntry.consistent_highOfSymbol (hin : InEntry k 0 s) (hc : Consistent s) (hs : s.phase = .hdr)
    (h : exec (.hdrByte b) s = .next t) : Consistent t := by
  rw [exec_hdrByte_entry hs hin.hpos hin.lt_nsym hin.byte] at h
  injection h with h
  have hnext : InEntry k 1 (s.inHeader (2 + 6 * k + 0 + 1) s.hn (highByte b) s.hcnt) :=
    { hin with hpos := rfl, byte := by decide, symbol := nofun }
  exact h ▸ consistent_inHeader hc (.inr hs) hnext.headerInv hin.hpos_succ_le

/-- The second byte of a symbol keeps the invariant, the symbol passing its tests or not (R171 (b), (c), (d)). -/
theorem InEntry.consistent_lowOfSymbol (hin : InEntry k 1 s) (hc : Consistent s) (hs : s.phase = .hdr)
    (h : exec (.hdrByte b) s = .next t) : Consistent t := by
  generalize hy : s.hsym ||| lowByte b = y
  have hexec : exec (.hdrByte b) s =
      checkSymbol k { s with phase := .hdr, hpos := BitVec.ofNat 11 (2 + 6 * k + 1 + 1), hsym := y } := by
    rw [exec_hdrByte_entry hs hin.hpos hin.lt_nsym hin.byte, ← hy]
    rfl
  by_cases hbad : Config.eof < y.toNat ∨ (0 < k ∧ y.toNat ≤ s.hprev.toNat) ∨
      (k + 1 = s.hn.toNat ∧ y.toNat ≠ Config.eof)
  · rw [hexec.trans (checkSymbol_of_invalid hbad nofun)] at h
    injection h with h
    exact h ▸ consistent_corrupt hc hin.hpos_succ_le .hdr s.hn y s.hcnt
  · simp only [not_or, not_and, Nat.not_lt, Nat.not_le, not_not] at hbad
    obtain ⟨hx, hprev, hlast⟩ := hbad
    have habove : ∀ e ∈ s.ft, e.1 < y.toNat := fun e he =>
      Nat.lt_of_le_of_lt (hin.below e he) (hprev (hin.stored ▸ List.length_pos_of_mem he))
    rw [hexec.trans (checkSymbol_of_valid hx hprev hlast)] at h
    injection h with h
    have hnext : InEntry k 2 (s.inHeader (2 + 6 * k + 1 + 1) s.hn y s.hcnt) :=
      { hin with hpos := rfl, byte := by decide, symbol := fun _ => ⟨hx, habove, hlast⟩ }
    exact h ▸ consistent_inHeader hc (.inr hs) hnext.headerInv hin.hpos_succ_le

/-- A byte of a count but the last keeps the invariant. -/
theorem InEntry.consistent_countByte (hin : InEntry k j s) (hj : j = 2 ∨ j = 3 ∨ j = 4) (hc : Consistent s)
    (hs : s.phase = .hdr) (h : exec (.hdrByte b) s = .next t) : Consistent t := by
  rw [exec_hdrByte_countByte hs hin.hpos hin.lt_nsym hj rfl] at h
  injection h with h
  have hnext : InEntry k (j + 1) (s.inHeader (2 + 6 * k + (j + 1)) s.hn s.hsym (shiftInByte s.hcnt b)) :=
    { hin with hpos := rfl, byte := by omega, symbol := fun _ => hin.symbol (by omega) }
  exact h ▸ consistent_inHeader hc (.inr hs) hnext.headerInv hin.hpos_succ_le

/-- The state after the last byte of entry `k`, HSYM holding its symbol and `c` being its count (R170). -/
def State.withEntry (s : State) (k : Nat) (c : Count) : State :=
  { s with
    hpos := BitVec.ofNat 11 (2 + 6 * (k + 1)), hcnt := c, hprev := s.hsym,
    ft := Memory.write s.ft s.hsym.toNat c, ftN := s.ftN + 1,
    phase := if k + 1 = s.hn.toNat then .table else .hdr }

/-- The last byte of a count that is not 0 stores the entry: the header goes on with the next, or is complete. -/
theorem InEntry.consistent_stored (hin : InEntry k 5 s) (hc : Consistent s) (hs : s.phase = .hdr) (hne : c ≠ 0) :
    Consistent (s.withEntry k c) := by
  obtain ⟨hx, habove, hlast⟩ := hin.symbol (by decide)
  have hread : Memory.read s.ft s.hsym.toNat = none := Memory.read_eq_none.2 fun hm => by
    obtain ⟨e, he, heq⟩ := List.mem_map.1 hm
    exact absurd heq (Nat.ne_of_lt (habove e he))
  have hbefore : TableOnly s := tableOnly_of_consistent hc (by simp [hs])
  refine TableOnly.consistent { hbefore with } ?_
    ((tableOk_of_consistent hc).insert (Nat.lt_succ_of_le hx) hread hne) (fun hp => ?_) (fun hp => ?_) (fun hp => ?_)
    ⟨?_, hx⟩
  · rw [State.withEntry]; split <;> simp
  · rw [State.withEntry] at hp ⊢
    split at hp
    · rw [hlast ‹_›]; exact congrArg Option.isSome (Memory.read_write_same ..)
    · cases hp
  · rw [State.withEntry] at hp
    split at hp <;> cases hp
  · have hmore : k + 1 ≠ s.hn.toNat := by
      rintro heq
      simp [State.withEntry, heq] at hp
    have hnext : InEntry (k + 1) 0 (s.withEntry k c) :=
      { hpos := rfl, byte := by decide, more := Nat.lt_of_le_of_ne hin.more hmore, range := hin.range
        stored := (Memory.length_write_of_none hread).trans (congrArg (· + 1) hin.stored)
        below := fun e he => by
          rcases Memory.mem_write_fst he with rfl | he
          · exact Nat.le_refl _
          · exact Nat.le_of_lt (habove e he)
        symbol := nofun }
    exact hnext.headerInv
  · exact (BitVec.toNat_ofNat ..).trans_le ((Nat.mod_le ..).trans hin.hpos_succ_le)

/-- The last byte of a count keeps the invariant, the count being 0 or not (R171 (e)). -/
theorem InEntry.consistent_lastByte (hin : InEntry k 5 s) (hc : Consistent s) (hs : s.phase = .hdr)
    (h : exec (.hdrByte b) s = .next t) : Consistent t := by
  have hx : s.hsym.toNat < Config.nsym := Nat.lt_succ_of_le (hin.symbol (by decide)).1
  by_cases h0 : shiftInByte s.hcnt b = 0
  · have hexec : exec (.hdrByte b) s = storeEntry k { s with
        phase := .hdr, hpos := BitVec.ofNat 11 (2 + 6 * k + 5 + 1), hcnt := shiftInByte s.hcnt b } :=
      exec_hdrByte_entry hs hin.hpos hin.lt_nsym hin.byte
    rw [hexec.trans (storeEntry_of_zero h0 nofun)] at h
    injection h with h
    exact h ▸ consistent_corrupt hc hin.hpos_succ_le .hdr s.hn s.hsym _
  · rw [exec_hdrByte_lastByte hs hin.hpos hin.lt_nsym hx rfl h0] at h
    injection h with h
    exact h ▸ consistent_responded (hin.consistent_stored hc hs h0) 0

/-- Every byte of a header keeps the invariant. -/
theorem consistent_hdrByte (hc : Consistent s) (hs : s.phase = .idle ∨ s.phase = .hdr)
    (h : exec (.hdrByte b) s = .next t) : Consistent t := by
  rcases hs with hs | hs
  · have hawait := awaitsHeader_of_idle hc hs
    rw [hawait.exec_high] at h
    injection h with h
    have hone : ¬ 2 ≤ (1#11).toNat := by decide
    have hinv : HeaderInv (s.inHeader 1 (highByte b) s.hsym s.hcnt) :=
      ⟨⟨Nat.le_refl 1, fun _ => hawait.table⟩, fun hp => absurd hp hone, fun hp => absurd hp hone,
        fun hp => absurd hp hone⟩
    exact h ▸ consistent_inHeader hc (.inl hs) hinv (by decide)
  · have hinv := hc.header hs
    by_cases hp : s.hpos.toNat = 1
    · exact consistent_lowOfCount hc hs hp h
    · obtain ⟨k, j, hin⟩ := inEntry_of_headerInv hinv (by have := hinv.started.1; omega)
      have hj : j = 0 ∨ j = 1 ∨ (j = 2 ∨ j = 3 ∨ j = 4) ∨ j = 5 := by have := hin.byte; omega
      rcases hj with rfl | rfl | hj | rfl
      · exact hin.consistent_highOfSymbol hc hs h
      · exact hin.consistent_lowOfSymbol hc hs h
      · exact hin.consistent_countByte hj hc hs h
      · exact hin.consistent_lastByte hc hs h

/-! ## TREE and CODES (R110, R125) -/

/-- BUILD_TREE keeps the invariant: the cursor is on the root, which is internal. -/
theorem consistent_buildTree (hc : Consistent s) (hs : s.phase = .table) (h : exec .buildTree s = .next t) :
    Consistent t := by
  obtain ⟨nodes, hexec, A, -, -⟩ := exec_buildTree_spec hc hs
  rw [hexec] at h
  injection h with h
  have hbefore : TableOnly s := tableOnly_of_consistent hc (by simp [hs])
  have hL := leafCount_bounds hc.ftForm
  have hsize := A.size
  have hroot : (BitVec.ofNat 10 (2 * leafCount s.ft - 2)).toNat = 2 * leafCount s.ft - 2 := by
    rw [BitVec.toNat_ofNat]; omega
  have hcnt : (BitVec.ofNat 10 nodes.length).toNat = nodes.length := by rw [BitVec.toNat_ofNat]; omega
  have hlast : (BitVec.ofNat 10 (2 * leafCount s.ft - 2)).toNat + 1 = nodes.length := by omega
  have hnas : symAt nodes (BitVec.ofNat 10 (2 * leafCount s.ft - 2)) = Config.nas := by
    rw [symAt, hroot]
    exact (A.internal _ (by omega) (by omega)).1
  refine h ▸ consistent_responded (s := s.withTree nodes _) ?_ 0
  exact { hc with
    errInFault := iff_of_false (not_not_intro hbefore.err) nofun
    ftSentinel := fun _ => hc.ftSentinel (by rw [hs]; decide)
    ftCounting := nofun
    ctPhase := fun hne => absurd hbefore.ct hne
    ctComplete := fun hp => absurd hp (by decide : Phase.tree ∉ [Phase.codes, .enc, .encDone])
    ctPaths := fun hp => absurd hp (by decide : Phase.tree ∉ [Phase.codes, .enc])
    treeInPhase := (by decide : true = true ↔ Phase.tree ∈ treePhases)
    treeGone := nofun
    treeBuilt := fun _ => ⟨A, hcnt, hlast⟩
    cursor := fun _ => ⟨hlast ▸ Nat.lt_succ_self _, hnas⟩
    cursorAtRoot := fun _ => rfl
    packerEmpty := fun _ => hbefore.packer
    idleIsReset := nofun
    header := nofun }

/-- Two tables in canonical form with the same indexes list them in the same order. -/
theorem Memory.fst_eq_of_isSome_eq {α β : Type} {m : List (Nat × α)} {m' : List (Nat × β)} {slots : Nat}
    (hm : Memory.wf slots m) (hm' : Memory.wf slots m')
    (h : ∀ x, (Memory.read m x).isSome = (Memory.read m' x).isSome) : m.map Prod.fst = m'.map Prod.fst := by
  have hmem : ∀ x, x ∈ m.map Prod.fst ↔ x ∈ m'.map Prod.fst := fun x => by
    rw [← Memory.read_isSome, h, Memory.read_isSome]
  have hperm : (m.map Prod.fst).Perm (m'.map Prod.fst) :=
    (List.perm_ext_iff_of_nodup (hm.1.imp Nat.ne_of_lt) (hm'.1.imp Nat.ne_of_lt)).2 hmem
  exact hperm.eq_of_pairwise' hm.1 hm'.1

/-- BUILD_CODES keeps the invariant: CT has the leaf paths of the symbols of FT, and of no other (R127, R128). -/
theorem consistent_buildCodes (hc : Consistent s) (hs : s.phase = .tree) (h : exec .buildCodes s = .next t) :
    Consistent t := by
  obtain ⟨A, hcnt, hroot⟩ := hc.treeBuilt (hc.treeInPhase.2 (by rw [hs]; decide))
  obtain ⟨ct, hv, hform, hcomplete, hpaths⟩ :=
    visit_root_spec hc.ftForm (ft_ne_nil_of_final hc (by rw [hs]; decide)) A hroot
  rw [exec_buildCodes_of_tree hs (by rw [ct_of_tree hc hs, hv])] at h
  injection h with h
  have herr : s.err = .none := err_of_not_fault hc (by simp [hs])
  have hentry : ∀ e ∈ ct, EntryOk e.2 ∧ LeafPath s.node s.root e.1 e.2.code := fun e he =>
    hpaths e.1 e.2 (Memory.read_of_mem hform he)
  refine h ▸ consistent_responded (s := { s with ct := ct, phase := .codes }) ?_ 0
  exact { hc with
    errInFault := iff_of_false (not_not_intro herr) nofun
    ftSentinel := fun _ => hc.ftSentinel (by rw [hs]; decide)
    ftCounting := nofun
    ctForm := hform
    ctEntries := fun e he => (hentry e he).1
    ctPhase := fun _ => (by decide : Phase.codes ∈ codePhases)
    ctComplete := fun _ => Memory.fst_eq_of_isSome_eq hform hc.ftForm hcomplete
    ctPaths := fun _ e he => (hentry e he).2
    treeInPhase := iff_of_true (hc.treeInPhase.2 (by rw [hs]; decide)) (by decide : Phase.codes ∈ treePhases)
    cursorAtRoot := fun _ => hc.cursorAtRoot (by simp [hs])
    packerEmpty := fun _ => hc.packerEmpty (by simp [hs])
    idleIsReset := nofun
    header := nofun }

/-- Bytes emitted between TABLE and CODES keep the invariant, which speaks of OUT in IDLE only (R54, R167). -/
theorem consistent_emitted (hc : Consistent s) (hs : s.phase ∈ [.table, .tree, .codes]) (out : List Byte) :
    Consistent { s with out := out } :=
  { hc with
    idleIsReset := fun hp => by simp [show s.phase = .idle from hp] at hs
    header := fun hp => by simp [show s.phase = .hdr from hp] at hs }

/-! ## ENC and ENC_DONE (R137, R138) -/

/-- Bits of a code packed keep the invariant: only the packer and OUT are written (R137). -/
theorem consistent_packed (hc : Consistent s) (hs : s.phase = .codes ∨ s.phase = .enc) {acc : BitVec 8}
    {nb : BitVec 3} (hclean : PackerClean nb acc) (bs : List Byte) (n : Nat) : Consistent (s.packed bs acc nb n) := by
  have herr : s.err = .none := err_of_not_fault hc (phase_ne_fault_of_encoding hs)
  refine consistent_responded (s := { s with
    out := s.out ++ bs, acc := acc, nb := nb, bitcnt := s.bitcnt + BitVec.ofNat 64 n, phase := .enc }) ?_ 0
  exact { hc with
    errInFault := iff_of_false (not_not_intro herr) nofun
    ftSentinel := fun _ => hc.ftSentinel (by rcases hs with h | h <;> simp [h, finalTable])
    ftCounting := nofun
    ctPhase := fun _ => (by decide : Phase.enc ∈ codePhases)
    ctComplete := fun _ => hc.ctComplete (by rcases hs with h | h <;> simp [h])
    ctPaths := fun _ => hc.ctPaths (by rcases hs with h | h <;> simp [h])
    treeInPhase := iff_of_true (hc.treeInPhase.2 (by rcases hs with h | h <;> simp [h, treePhases]))
      (by decide : Phase.enc ∈ treePhases)
    cursorAtRoot := fun _ => hc.cursorAtRoot (by rcases hs with h | h <;> simp [h])
    packerPlaced := hclean
    packerEmpty := fun hp => absurd (by decide : Phase.enc ∈ [Phase.enc, .fault]) hp
    idleIsReset := nofun
    header := nofun }

theorem consistent_encByte (hc : Consistent s) (hs : s.phase = .codes ∨ s.phase = .enc)
    (hv : s.ctValid b.toNat = true) (h : exec (.encByte b) s = .next t) : Consistent t := by
  obtain ⟨bs, acc, nb, hexec, hbits⟩ := exec_encByte_of_valid hs hv
  rw [hexec] at h
  injection h with h
  exact h ▸ consistent_packed hc hs (hbits hc.packerPlaced).1 bs _

/-- Without a tree, past TABLE: the packer is empty, FT and CT stay (R118). -/
theorem consistent_released (hc : Consistent s) (hs : s.phase ∈ finalTable)
    (hp : p = .encDone ∧ (s.phase = .codes ∨ s.phase = .enc) ∨ p = .decDone ∧ s.ct = []) (bs : List Byte) (n : Nat) :
    Consistent { released s with
      out := s.out ++ bs, acc := 0, nb := 0, bitcnt := s.bitcnt + BitVec.ofNat 64 n, phase := p } := by
  have herr : s.err = .none := err_of_not_fault hc (by rintro h; simp [h, finalTable] at hs)
  have hfinal : p ∈ finalTable := by rcases hp with ⟨rfl, -⟩ | ⟨rfl, -⟩ <;> decide
  have hfault : p ≠ .fault := by rcases hp with ⟨rfl, -⟩ | ⟨rfl, -⟩ <;> decide
  exact { hc with
    errInFault := iff_of_false (not_not_intro herr) hfault
    ftSentinel := fun _ => hc.ftSentinel hs
    ftCounting := fun h => by rcases hp with ⟨rfl, -⟩ | ⟨rfl, -⟩ <;> cases h
    ctPhase := fun hne => by
      rcases hp with ⟨rfl, -⟩ | ⟨-, hct⟩
      · exact (by decide : Phase.encDone ∈ codePhases)
      · exact absurd hct hne
    ctComplete := fun h => by
      rcases hp with ⟨-, henc⟩ | ⟨rfl, -⟩
      · exact hc.ctComplete (by rcases henc with h | h <;> simp [h])
      · exact absurd h (by decide : Phase.decDone ∉ [Phase.codes, .enc, .encDone])
    ctPaths := fun h => by rcases hp with ⟨rfl, -⟩ | ⟨rfl, -⟩ <;> simp at h
    treeInPhase := iff_of_false nofun (by rcases hp with ⟨rfl, -⟩ | ⟨rfl, -⟩ <;> simp [treePhases])
    treeGone := fun _ => ⟨rfl, rfl, rfl, rfl⟩
    treeBuilt := nofun
    cursor := nofun
    cursorAtRoot := fun h => by rcases hp with ⟨rfl, -⟩ | ⟨rfl, -⟩ <;> simp at h
    packerPlaced := fun k _ => by simp
    packerEmpty := fun _ => ⟨rfl, rfl⟩
    idleIsReset := fun h => by rcases hp with ⟨rfl, -⟩ | ⟨rfl, -⟩ <;> cases h
    header := fun h => by rcases hp with ⟨rfl, -⟩ | ⟨rfl, -⟩ <;> cases h }

theorem consistent_encEnd (hc : Consistent s) (hs : s.phase = .codes ∨ s.phase = .enc)
    (h : exec .encEnd s = .next t) : Consistent t := by
  obtain ⟨bs, n, hexec, -⟩ := exec_encEnd_of_valid hs (ctValid_eof hc hs) hc.packerPlaced
  rw [hexec] at h
  injection h with h
  have hfinal : s.phase ∈ finalTable := by rcases hs with h | h <;> simp [h, finalTable]
  exact h ▸ consistent_responded (consistent_released hc hfinal (.inl ⟨rfl, hs⟩) bs _) 0

/-! ## DEC and DEC_DONE (R150, R153) -/

/-- A cursor on an internal node of the tree (R25). -/
def OnInternal (nodes : List Node) (cur : NodeIdx) : Prop :=
  cur.toNat < nodes.length ∧ symAt nodes cur = Config.nas

/-- The walker's cursor stays on internal nodes (R150). -/
theorem onInternal_of_decodeBits {ft : List (Nat × Count)} {nodes : List Node} {root cur cur' : NodeIdx}
    (hwf : Memory.wf Config.nsym ft) (hne : ft ≠ []) (A : Arena ft nodes) (hroot : OnInternal nodes root)
    (hcur : OnInternal nodes cur) {bits : Code} (h : (decodeBits nodes root cur bits).2 = some cur') :
    OnInternal nodes cur' := by
  induction bits generalizing cur with
  | nil =>
    obtain rfl : cur = cur' := Option.some.inj h
    exact hcur
  | cons t bits ih =>
    obtain ⟨hlt, hnas⟩ := hcur
    have hge : leafCount ft ≤ cur.toNat := Nat.not_lt.1 fun hl => (arena_leaf_iff hwf hne A hlt).2 hl hnas
    obtain ⟨-, hzero, hone, -⟩ := A.internal _ hge hlt
    rw [decodeBits_cons] at h
    split at h
    · have hchild : (childOf (nodeAt nodes cur.toNat) t).toNat < cur.toNat := by
        rw [childOf]; split <;> assumption
      exact ih ⟨hchild.trans hlt, ‹_›⟩ h
    · split at h
      · cases h
      · exact ih hroot h

/-- Walking bits keeps the invariant, whether the sentinel is reached or not (R150, R155). -/
theorem consistent_walked (hc : Consistent s) (hs : s.phase = .tree ∨ s.phase = .dec) (bits : Code) :
    Consistent (s.walked bits) := by
  have hfinal : s.phase ∈ finalTable := by rcases hs with h | h <;> simp [h, finalTable]
  have hvalid : s.treeValid = true := hc.treeInPhase.2 (by rcases hs with h | h <;> simp [h, treePhases])
  have hct : s.ct = [] := of_not_not fun hne => by
    have := hc.ctPhase hne
    rcases hs with h | h <;> simp [h, codePhases] at this
  have herr : s.err = .none := err_of_not_fault hc (by rcases hs with h | h <;> simp [h])
  obtain ⟨hnb, hacc⟩ := hc.packerEmpty (by rcases hs with h | h <;> simp [h])
  have hwalk : ∀ cur', (decodeBits s.node s.root s.cur bits).2 = some cur' → OnInternal s.node cur' := by
    obtain ⟨A, -, hroot⟩ := hc.treeBuilt hvalid
    have hL := leafCount_bounds hc.ftForm
    have hsize := A.size
    exact fun cur' => onInternal_of_decodeBits hc.ftForm (ft_ne_nil_of_final hc hfinal) A
      ⟨by omega, (A.internal _ (by omega) (by omega)).1⟩ (hc.cursor hvalid)
  cases hd : (decodeBits s.node s.root s.cur bits).2 with
  | some cur =>
    rw [walked_of_some hd]
    exact { hc with
      errInFault := iff_of_false (not_not_intro herr) nofun
      ftSentinel := fun _ => hc.ftSentinel hfinal
      ftCounting := nofun
      ctPhase := fun hne => absurd hct hne
      ctComplete := fun hp => absurd hp (by decide : Phase.dec ∉ [Phase.codes, .enc, .encDone])
      ctPaths := fun hp => absurd hp (by decide : Phase.dec ∉ [Phase.codes, .enc])
      treeInPhase := iff_of_true hvalid (by decide : Phase.dec ∈ treePhases)
      treeGone := fun h => absurd hvalid (Bool.eq_false_iff.1 h)
      cursor := fun _ => hwalk cur hd
      cursorAtRoot := fun hp => absurd hp (by decide : Phase.dec ∉ [Phase.tree, .codes, .enc])
      packerEmpty := fun _ => ⟨hnb, hacc⟩
      idleIsReset := nofun
      header := nofun }
  | none =>
    have hdone := consistent_released hc hfinal (.inr ⟨rfl, hct⟩)
      (decodeBits s.node s.root s.cur bits).1 0
    have hbits : s.bitcnt + BitVec.ofNat 64 0 = s.bitcnt := BitVec.add_zero _
    rw [hbits, ← hnb, ← hacc] at hdone
    rw [walked_of_none hd]
    exact hdone

/-! ## Every command and every step -/

/-- Every command that completes keeps the invariant. -/
theorem consistent_of_exec (hc : Consistent s) (h : exec i s = .next t) : Consistent t := by
  cases exec_effect h with
  | same data ht => exact ht ▸ consistent_responded hc data
  | clear _ ht => exact ht ▸ consistent_cleared s
  | raise e hf he ht =>
    rw [respond_raise_eq_faulted e hf] at ht
    have hcode := err_ne_invalidCodeBit hc hf h
    rw [ht] at hcode
    exact ht ▸ consistent_faulted hc he hcode hc.headerRange.1 s.hn s.hsym s.hcnt
  | insert x p hi hs hr ht =>
    have htable := (tableOk_of_consistent hc).insert hi.lt_nsym hr (by decide : (1 : Count) ≠ 0)
    exact ht ▸ consistent_responded (consistent_counted hc hi hs htable) 0
  | add x p c hi hs hr hmax ht =>
    have hne : c + 1 ≠ 0 := by
      revert hmax
      simp only [Config.countMax]
      bv_omega
    have htable := (tableOk_of_consistent hc).replace (c := c + 1) hi.lt_nsym (by rw [hr]; rfl) hne
    exact ht ▸ consistent_responded (consistent_counted hc hi hs htable) 0
  | tree _ hi hs => exact consistent_buildTree hc hs (hi ▸ h)
  | codes _ hi hs => exact consistent_buildCodes hc hs (hi ▸ h)
  | emit _ hs ht => exact ht ▸ consistent_responded (consistent_emitted hc hs _) 0
  | encode b e hi hs hr =>
    exact consistent_encByte hc hs (by rw [State.ctValid, ← symbolOfByte_eq_toNat, hr]; rfl) (hi ▸ h)
  | encodeEnd _ hi hs => exact consistent_encEnd hc hs (hi ▸ h)
  | header _ _ _ _ _ hi hs | headerRaise _ _ _ _ _ hi hs | headerStore _ _ _ _ hi hs =>
    exact consistent_hdrByte hc hs (hi ▸ h)
  | walk bits _ hs ht =>
    rw [walkBits_eq_walked] at ht
    exact ht ▸ consistent_responded (consistent_walked hc hs bits) 0

/-- An illegal word does what some command does: its raise, or nothing in FAULT (R187, R207). -/
theorem exists_exec_eq_illegalWord (s : State) : ∃ i, exec i s = illegalWord s := by
  by_cases hf : s.phase = .fault
  · exact ⟨.nop, by rw [illegalWord, if_pos hf]; rfl⟩
  · rw [illegalWord_of_not_fault hf]
    by_cases hs : s.phase ∈ [.codes, .enc]
    · exact ⟨.freqEnd, illegalOutside_of_gateOf (legal := [.idle, .count]) (fun _ => rfl) s
        (by revert hs; cases s.phase <;> decide) hf⟩
    · exact ⟨.encEnd, illegalOutside_of_gateOf (fun _ => rfl) s hs hf⟩

/-- What every command keeps, whatever the response and the host's moves are, every step keeps. -/
theorem step_keeps {P : State → Prop}
    (hports : ∀ s host resp, P s → P { s with host := host, resp := resp })
    (hexec : ∀ i s t, P s → exec i s = .next t → P t) (hs : P s) (h : step s = .next t) : P t := by
  match hhost : s.host with
  | [] =>
    obtain rfl : s = t := by simpa using (step_of_no_move hhost).symm.trans h
    exact hs
  | .reset :: rest =>
    obtain rfl : State.resetInput { s with host := rest } = t := by
      simpa using (step_of_reset hhost).symm.trans h
    exact hports (s.cleared.respond 0) rest none (hexec .clear s _ hs (exec_clear s))
  | .word w :: rest =>
    have hs' : P { s with host := rest } := hports s rest s.resp hs
    cases hw : decode w with
    | ok i => exact hexec i _ t hs' ((step_of_legal_word hhost hw).symm.trans h)
    | error e =>
      obtain ⟨i, hi⟩ := exists_exec_eq_illegalWord { s with host := rest }
      exact hexec i _ t hs' ((hi.trans (step_of_illegal_word hhost hw).symm).trans h)

/-- Settles O54: every command keeps the invariant, which does not speak of the host's moves. -/
theorem everyStepKeepsConsistency : Obligations.EveryStepKeepsConsistency := fun _ _ =>
  step_keeps (P := Consistent) (fun _ host resp hc => consistent_withPorts hc host resp)
    fun _ _ _ => consistent_of_exec

/-- In a consistent state every command completes: it is legal, raises, or is given in FAULT. -/
theorem exec_completes (hc : Consistent s) (i : Instr) : ∃ t, exec i s = .next t := by
  by_cases hf : s.phase = .fault
  · obtain ⟨t, ht, -⟩ := exec_of_fault i hf
    exact ⟨t, ht⟩
  · by_cases hs : s.phase ∈ legalPhases i
    · obtain ⟨t, ht, -⟩ := movesAsListed_of_legal hc hf hs
      exact ⟨t, ht⟩
    · exact ⟨_, raises_of_not_legal hf hs⟩

/-- Settles O55: by the host's move. -/
theorem everyStepCompletes : Obligations.EveryStepCompletes := by
  intro s hc
  match hhost : s.host with
  | [] => exact ⟨s, step_of_no_move hhost⟩
  | .reset :: rest => exact ⟨_, step_of_reset hhost⟩
  | .word w :: rest =>
    have hc' := consistent_withPorts hc rest s.resp
    cases hw : decode w with
    | ok i => rw [step_of_legal_word hhost hw]; exact exec_completes hc' i
    | error e =>
      obtain ⟨i, hi⟩ := exists_exec_eq_illegalWord { s with host := rest }
      rw [step_of_illegal_word hhost hw, ← hi]
      exact exec_completes hc' i

end Sys2Proof.Machine
end

section
/-! What any command may write, in every state (spec/10_state.md rules R22 to R29, R35, spec/20_memory.md rules R50 to
R54): the forms of the memories, the writers of each piece of state, and when the tables are immutable. -/

namespace Sys2Proof.Machine

open Sys2Proof.Safety

variable {s t : State} {i : Instr} {nodes : List Node} {slots : Nat}

/-! ## The forms of the memories (R50 to R53) -/

/-- FT and CT are in canonical form and NODE is within its capacity. -/
def Canonical (s : State) : Prop :=
  Memory.wf Config.nsym s.ft ∧ Memory.wf Config.nsym s.ct ∧ s.node.length ≤ Config.nodeCap

theorem wf_of_recordCode {x : Nat} {path : Code} {ct ct' : List (Nat × CodeEntry)}
    (hct : Memory.wf Config.nsym ct) (h : recordCode x path ct = .ok ct') : Memory.wf Config.nsym ct' := by
  rw [recordCode] at h
  split at h
  · injection h with h
    exact h ▸ hct
  split at h
  · injection h with h
    exact h ▸ Memory.wf_write hct ‹_›
  · cases h

/-- Visit keeps the canonical form of CT, whatever NODE holds (R53). -/
theorem wf_of_visit {depth : Nat} {n : NodeIdx} {path : Code} {ct ct' : List (Nat × CodeEntry)}
    (hct : Memory.wf Config.nsym ct) (h : visit nodes depth n path ct = .ok ct') : Memory.wf Config.nsym ct' := by
  induction depth generalizing n path ct ct' with
  | zero => cases h
  | succ depth ih =>
    rw [visit] at h
    split at h
    · exact wf_of_recordCode hct h
    · split at h
      · cases h
      · exact ih (ih hct ‹_›) h

/-- The loop of R110 ends with one root only for a table that is not empty, and then within NODE's capacity. -/
theorem length_builtTree_le {ft : List (Nat × Count)} {r : Nat} (hwf : Memory.wf Config.nsym ft)
    (hr : (builtTree ft).2 = [r]) : (builtTree ft).1.length ≤ Config.nodeCap := by
  have hne : ft ≠ [] := by rintro rfl; cases hr
  obtain ⟨nodes, hb, A, -⟩ := builtTree_spec hwf hne
  have hL := leafCount_bounds hwf
  rw [hb, A.size]
  simp only [Config.nodeCap]
  omega

/-- Every command keeps the forms of the memories. -/
theorem Effect.canonical (h : Effect i s t) (hs : Canonical s) : Canonical t := by
  obtain ⟨hft, hct, hnode⟩ := hs
  cases h with
  | same _ h => subst h; exact ⟨hft, hct, hnode⟩
  | clear _ h => subst h; exact ⟨Memory.wf_nil, Memory.wf_nil, Nat.zero_le _⟩
  | raise e hf _ h => rw [respond_raise_eq_faulted e hf] at h; subst h; exact ⟨hft, hct, Nat.zero_le _⟩
  | insert _ _ hi _ _ h | add _ _ _ hi _ _ _ h => subst h; exact ⟨Memory.wf_write hft hi.lt_nsym, hct, hnode⟩
  | tree _ _ _ hr h => subst h; exact ⟨hft, hct, length_builtTree_le hft hr⟩
  | codes _ _ _ hv h => subst h; exact ⟨hft, wf_of_visit hct hv, hnode⟩
  | emit _ _ h => subst h; exact ⟨hft, hct, hnode⟩
  | encode _ e _ _ _ h =>
    obtain ⟨_, _, _, hpack, -⟩ := packBits_spec e.code s
    rw [hpack] at h
    subst h
    exact ⟨hft, hct, hnode⟩
  | encodeEnd e _ _ _ h =>
    obtain ⟨_, _, _, _, hflush⟩ := packFlush_packBits_cases s e.code
    rw [hflush] at h
    subst h
    exact ⟨hft, hct, Nat.zero_le _⟩
  | header _ _ _ _ _ _ _ h => subst h; exact ⟨hft, hct, hnode⟩
  | headerRaise _ _ _ _ _ _ _ h =>
    obtain rfl := h.trans (respond_raise_eq_faulted _ nofun)
    exact ⟨hft, hct, Nat.zero_le _⟩
  | headerStore _ _ _ _ _ _ _ hx h => subst h; exact ⟨Memory.wf_write hft hx, hct, hnode⟩
  | walk bits _ _ h =>
    rcases walkBits_cases bits { s with phase := .dec } with ⟨_, _, hw⟩ | ⟨_, hw⟩
    · rw [hw] at h; subst h; exact ⟨hft, hct, hnode⟩
    · rw [hw] at h; subst h; exact ⟨hft, hct, Nat.zero_le _⟩

/-- Settles O56: every command keeps the forms, and so does every step. -/
theorem memoriesStayCanonical : Obligations.MemoriesStayCanonical := fun _ _ hft hct hnode =>
  step_keeps (P := Canonical) (fun _ _ _ h => h) (fun _ _ _ h hexec => (exec_effect hexec).canonical h)
    ⟨hft, hct, hnode⟩

/-! ## The writers of each piece of state (R22 to R28, R50 to R54) -/

/-- NOP and the reads only answer (R186, R53). -/
theorem exec_of_nop_or_read (hi : i = .nop ∨ IsRead i) (s : State) :
    ∃ data, exec i s = .next (responded data s) := by
  cases i with
  | nop | rdReg | rdFreq | rdNode | rdCode => exact ⟨_, rfl⟩
  | clear | freqByte | freqEnd | buildTree | buildCodes | hdrEmit | encByte | encEnd | hdrByte | decBit | decByte
  | decEnd => exact hi.elim nofun False.elim

/-- Settles O50: form by form of the state a command leaves. -/
theorem stateHasItsWriters : Obligations.StateHasItsWriters := by
  intro i s t hexec hclear
  by_cases hread : i = .nop ∨ IsRead i
  · obtain ⟨data, hanswer⟩ := exec_of_nop_or_read hread s
    obtain rfl : responded data s = t := by simpa only [Host.Outcome.next.injEq] using hanswer.symm.trans hexec
    exact ⟨.inl rfl, .inl rfl, .inl rfl, .inl rfl, .inl rfl, .inl rfl, .inl rfl, .inl rfl, .inl rfl⟩
  have hphase : i ≠ .nop ∧ ¬ IsRead i := not_or.1 hread
  cases exec_effect hexec with
  | same _ h =>
    subst h
    exact ⟨.inl rfl, .inl rfl, .inl rfl, .inl rfl, .inl rfl, .inl rfl, .inl rfl, .inl rfl, .inl rfl⟩
  | clear hi => exact absurd hi hclear
  | raise e hf _ h =>
    rw [respond_raise_eq_faulted e hf] at h
    subst h
    exact ⟨.inl rfl, .inl rfl, .inl rfl, .inl rfl, .inl rfl, .inr (.inr rfl), .inr (.inr (.inr (.inr rfl))),
      .inr ⟨_, _, _, _, hf, rfl⟩, .inr hphase⟩
  | insert _ _ hi _ _ h | add _ _ _ hi _ _ _ h =>
    subst h
    have hcount : (∃ b, i = .freqByte b) ∨ i = .freqEnd := hi.imp (fun ⟨b, hb, _⟩ => ⟨b, hb⟩) And.left
    exact ⟨.inr (hcount.imp_right .inl), .inl rfl, .inl rfl, .inl rfl, .inl rfl, .inl rfl, .inl rfl, .inl rfl,
      .inr hphase⟩
  | tree _ hi _ _ h =>
    subst h
    exact ⟨.inl rfl, .inl rfl, .inl rfl, .inl rfl, .inl rfl, .inr (.inl hi), .inr (.inl hi), .inl rfl, .inr hphase⟩
  | codes _ hi _ _ h =>
    subst h
    exact ⟨.inl rfl, .inr hi, .inl rfl, .inl rfl, .inl rfl, .inl rfl, .inl rfl, .inl rfl, .inr hphase⟩
  | emit hi _ h =>
    subst h
    exact ⟨.inl rfl, .inl rfl, .inl rfl, .inl rfl, .inr (.inl hi), .inl rfl, .inl rfl, .inl rfl, .inl rfl⟩
  | encode b e hi _ _ h =>
    obtain ⟨_, _, _, hpack, -⟩ := packBits_spec e.code s
    rw [hpack] at h
    subst h
    exact ⟨.inl rfl, .inl rfl, .inr (.inl ⟨b, hi⟩), .inl rfl, .inr (.inr (.inl ⟨b, hi⟩)), .inl rfl, .inl rfl,
      .inl rfl, .inr hphase⟩
  | encodeEnd e hi _ _ h =>
    obtain ⟨_, _, _, _, hflush⟩ := packFlush_packBits_cases s e.code
    rw [hflush] at h
    subst h
    exact ⟨.inl rfl, .inl rfl, .inr (.inr hi), .inl rfl, .inr (.inr (.inr (.inl hi))), .inr (.inr rfl),
      .inr (.inr (.inr (.inr rfl))), .inl rfl, .inr hphase⟩
  | header b _ _ _ _ hi _ h =>
    subst h
    exact ⟨.inl rfl, .inl rfl, .inl rfl, .inr ⟨b, hi⟩, .inl rfl, .inl rfl, .inl rfl, .inl rfl, .inr hphase⟩
  | headerRaise b _ _ _ _ hi hs h =>
    obtain rfl := h.trans (respond_raise_eq_faulted _ nofun)
    exact ⟨.inl rfl, .inl rfl, .inl rfl, .inr ⟨b, hi⟩, .inl rfl, .inr (.inr rfl), .inr (.inr (.inr (.inr rfl))),
      .inr ⟨_, _, _, _, by rcases hs with h | h <;> simp [h], rfl⟩, .inr hphase⟩
  | headerStore b _ _ _ hi _ _ _ h =>
    subst h
    exact ⟨.inr (.inr (.inr ⟨b, hi⟩)), .inl rfl, .inl rfl, .inr ⟨b, hi⟩, .inl rfl, .inl rfl, .inl rfl, .inl rfl,
      .inr hphase⟩
  | walk bits hi _ h =>
    have hbits : (∃ b, i = .decBit b) ∨ ∃ b, i = .decByte b :=
      hi.imp (fun ⟨b, hb, _⟩ => ⟨b, hb⟩) fun ⟨b, hb, _⟩ => ⟨b, hb⟩
    rcases walkBits_cases bits { s with phase := .dec } with ⟨_, _, hw⟩ | ⟨_, hw⟩
    · rw [hw] at h
      subst h
      exact ⟨.inl rfl, .inl rfl, .inl rfl, .inl rfl, .inr (.inr (.inr (.inr hbits))), .inl rfl,
        .inr (.inr (hbits.imp_right .inl)), .inl rfl, .inr hphase⟩
    · rw [hw] at h
      subst h
      exact ⟨.inl rfl, .inl rfl, .inl rfl, .inl rfl, .inr (.inr (.inr (.inr hbits))), .inr (.inr rfl),
        .inr (.inr (hbits.imp_right .inl)), .inl rfl, .inr hphase⟩

/-! ## When the tables are immutable (R35 (c), (e)) -/

/-- Outside the phases it is legal in, a command raises or does nothing, and the tables stay. -/
theorem tables_eq_of_not_legal {legal : List Phase} (hg : ∀ p, gateOf i p = p.legalIn legal) (hs : s.phase ∉ legal)
    (h : exec i s = .next t) : t.ft = s.ft ∧ t.ftN = s.ftN ∧ t.ct = s.ct := by
  by_cases hf : s.phase = .fault
  · have hsilent : NoEffect i s := silentInFault_of_gateOf hg s hf
    obtain rfl : responded 0 s = t := by simpa only [Host.Outcome.next.injEq] using hsilent.symm.trans h
    exact ⟨rfl, rfl, rfl⟩
  · have hraise : Raises i .illegalCommand s := illegalOutside_of_gateOf hg s hs hf
    obtain rfl : faulted .illegalCommand s = t := by simpa only [Host.Outcome.next.injEq] using hraise.symm.trans h
    exact ⟨rfl, rfl, rfl⟩

/-- Settles O51: the writers of the tables are illegal in these phases. -/
theorem tablesAreImmutable : Obligations.TablesAreImmutable := by
  intro i s t hexec hclear
  obtain ⟨hft, hct, -⟩ := stateHasItsWriters i s t hexec hclear
  refine ⟨fun hs => ?_, fun hs => ?_⟩
  · have hillegal : ∀ legal : List Phase, (∀ p, gateOf i p = p.legalIn legal) →
        (∀ p ∈ legal, p ∉ finalTable ∧ p ≠ .fault) → t.ft = s.ft ∧ t.ftN = s.ftN := fun legal hg hlegal => by
      obtain ⟨hft, hftN, -⟩ := tables_eq_of_not_legal hg
        (fun h => hs.elim (hlegal _ h).1 (hlegal _ h).2) hexec
      exact ⟨hft, hftN⟩
    rcases hft with h | ⟨b, rfl⟩ | rfl | ⟨b, rfl⟩
    · exact Prod.mk.inj h
    · exact hillegal [.idle, .count] (fun _ => rfl) (by decide)
    · exact hillegal [.idle, .count] (fun _ => rfl) (by decide)
    · exact hillegal [.idle, .hdr] (fun _ => rfl) (by decide)
  · rcases hct with h | rfl
    · exact h
    · have htree : s.phase ∉ [.tree] := by simpa using hs
      exact (tables_eq_of_not_legal (fun _ => rfl) htree hexec).2.2

end Sys2Proof.Machine
end

section
/-! What no command sees (spec/20_memory.md rules R54, R60): the bytes in OUT, the host's later moves and the last
response. A command appends bytes to OUT and goes on in the same way whatever these three hold. -/

namespace Sys2Proof.Machine

open Sys2Proof.Safety

variable {s t : State} {i : Instr} {f g : State → State} {rule rule' : State → Result} {e : Err} {b : Byte}

/-! ## Updates and rules that see none of the three -/

/-- The state with other bytes in OUT, other moves to come and another last response. -/
def State.withPorts (out : List Byte) (host : List HostMove) (resp : Option Response) (s : State) : State :=
  { s with out := out, host := host, resp := resp }

/-- From `s` the update appends bytes to OUT, keeps the host's moves, and does the same whatever the ports hold. -/
def Blind (f : State → State) (s : State) : Prop :=
  ∃ bs, (f s).out = s.out ++ bs ∧ (f s).host = s.host ∧
    ∀ out host resp, f (s.withPorts out host resp) = (f s).withPorts (out ++ bs) host resp

/-- The same of a rule that completes, which ends with a response. -/
def BlindRule (rule : State → Result) (s : State) : Prop :=
  ∀ t, rule s = .next t → ∃ bs, t.out = s.out ++ bs ∧ t.host = s.host ∧
    ∀ out host resp, rule (s.withPorts out host resp) = .next { t with out := out ++ bs, host := host }

/-- An update of other fields from other fields. -/
theorem blind_of_commutes (hout : (f s).out = s.out) (hhost : (f s).host = s.host)
    (hf : ∀ out host resp, f (s.withPorts out host resp) = (f s).withPorts out host resp) : Blind f s :=
  ⟨[], by rw [hout, List.append_nil], hhost, fun out host resp => by rw [hf, List.append_nil]⟩

theorem blind_id (s : State) : Blind id s := blind_of_commutes rfl rfl fun _ _ _ => rfl

theorem blind_comp (hf : Blind f s) (hg : Blind g (f s)) : Blind (fun s => g (f s)) s := by
  obtain ⟨bs, hout, hhost, hports⟩ := hf
  obtain ⟨bs', hout', hhost', hports'⟩ := hg
  refine ⟨bs ++ bs', by rw [hout', hout, List.append_assoc], hhost'.trans hhost, fun out host resp => ?_⟩
  simp only [hports, hports', List.append_assoc]

/-- Agreeing with a blind rule, whatever the ports hold. -/
theorem blindRule_congr (h' : BlindRule rule' s)
    (h : ∀ out host resp, rule (s.withPorts out host resp) = rule' (s.withPorts out host resp)) :
    BlindRule rule s := by
  have hs : rule s = rule' s := h s.out s.host s.resp
  simpa only [BlindRule, h, hs] using h'

/-- An update made by a test of other fields. -/
theorem blind_ite {c : State → Prop} [DecidablePred c]
    (hc : ∀ out host resp, c (s.withPorts out host resp) ↔ c s) (hf : Blind f s) (hg : Blind g s) :
    Blind (fun s => if c s then f s else g s) s := by
  by_cases hs : c s
  · simpa only [Blind, hc, if_pos hs] using hf
  · simpa only [Blind, hc, if_neg hs] using hg

theorem blindRule_done (hf : Blind f s) : BlindRule (fun s => done (f s)) s := by
  intro t h
  injection h with h
  subst h
  obtain ⟨bs, hout, hhost, hports⟩ := hf
  exact ⟨bs, hout, hhost, fun out host resp => congrArg done (hports out host resp)⟩

/-- A read whose data is made from other fields. -/
theorem blindRule_answer {data : State → RData}
    (hdata : ∀ out host resp, data (s.withPorts out host resp) = data s) :
    BlindRule (fun s => answer (data s) s) s := by
  intro t h
  injection h with h
  subst h
  refine ⟨[], (List.append_nil _).symm, rfl, fun out host resp => ?_⟩
  simp only [hdata, List.append_nil]
  rfl

theorem blindRule_stop (stop : Fault) : BlindRule (fun _ => .fault stop) s := fun _ h => by cases h

/-- A test of other fields. -/
theorem blindRule_ite {c : State → Prop} [DecidablePred c]
    (hc : ∀ out host resp, c (s.withPorts out host resp) ↔ c s) (h : c s → BlindRule rule s)
    (h' : ¬ c s → BlindRule rule' s) : BlindRule (fun s => if c s then rule s else rule' s) s := by
  by_cases hs : c s
  · exact blindRule_congr (h hs) fun out host resp => if_pos ((hc out host resp).2 hs)
  · exact blindRule_congr (h' hs) fun out host resp => if_neg (mt (hc out host resp).1 hs)

/-- A raise is an update of other fields (R201). -/
theorem blind_raise (e : Err) (s : State) : Blind (State.raise e) s :=
  blind_ite (c := fun s => s.phase = .fault) (fun _ _ _ => Iff.rfl) (blind_id s)
    (blind_of_commutes rfl rfl fun _ _ _ => rfl)

/-! ## The packer and the walker (R135, R136, R150) -/

theorem blind_packBit (t : Bool) (s : State) : Blind (packBit · t) s :=
  blind_ite (c := fun s => s.nb = 7) (fun _ _ _ => Iff.rfl) ⟨[accWith t s], rfl, rfl, fun _ _ _ => rfl⟩
    (blind_of_commutes rfl rfl fun _ _ _ => rfl)

theorem blind_packBits (c : Code) (s : State) : Blind (packBits · c) s := by
  induction c generalizing s with
  | nil => exact blind_of_commutes rfl rfl fun _ _ _ => rfl
  | cons t c ih => exact blind_comp (blind_packBit t s) (ih (packBit s t))

theorem blind_packFlush (s : State) : Blind packFlush s :=
  blind_ite (c := fun s => s.nb = 0) (fun _ _ _ => Iff.rfl) (blind_id s)
    ⟨[s.acc], rfl, rfl, fun _ _ _ => rfl⟩

theorem blind_walked (bits : Code) (s : State) : Blind (State.walked bits) s := by
  refine ⟨(decodeBits s.node s.root s.cur bits).1, ?_⟩
  cases h : (decodeBits s.node s.root s.cur bits).2 with
  | some cur =>
    rw [walked_of_some h]
    exact ⟨rfl, rfl, fun out host resp => walked_of_some (s := s.withPorts out host resp) h⟩
  | none =>
    rw [walked_of_none h]
    exact ⟨rfl, rfl, fun out host resp => walked_of_none (s := s.withPorts out host resp) h⟩

/-! ## The rules, command by command -/

theorem blindRule_countSymbol (x : Nat) (p : Phase) (s : State) : BlindRule (countSymbol x p) s := by
  cases hr : Memory.read s.ft x with
  | none =>
    exact blindRule_congr
      (blindRule_done (f := fun u => { u with ft := Memory.write u.ft x 1, ftN := u.ftN + 1, phase := p })
        (blind_of_commutes rfl rfl fun _ _ _ => rfl))
      fun out host resp => countSymbol_of_absent (s := s.withPorts out host resp) hr
  | some c =>
    by_cases hmax : c = Config.countMax
    · exact blindRule_congr (blindRule_done (blind_raise .countOverflow s))
        fun out host resp => countSymbol_of_max (s := s.withPorts out host resp) (hmax ▸ hr)
    · exact blindRule_congr
        (blindRule_done (f := fun u => { u with ft := Memory.write u.ft x (c + 1), phase := p })
          (blind_of_commutes rfl rfl fun _ _ _ => rfl))
        fun out host resp => countSymbol_of_present (s := s.withPorts out host resp) hr hmax

theorem blindRule_buildTreeRule (s : State) : BlindRule buildTreeRule s := by
  intro t h
  obtain ⟨nodes, r, hb, -⟩ := buildTreeRule_eq_next h
  exact blindRule_congr
    (blindRule_done (f := (State.withTree · nodes r)) (blind_of_commutes rfl rfl fun _ _ _ => rfl))
    (fun out host resp => buildTreeRule_of_built (s := s.withPorts out host resp) hb) t h

theorem blindRule_buildCodesRule (s : State) : BlindRule buildCodesRule s := by
  cases hv : visit s.node (Config.maxLen + 1) s.root [] s.ct with
  | error stop =>
    exact blindRule_congr (blindRule_stop stop) fun _ _ _ => by simp only [buildCodesRule, State.withPorts, hv]
  | ok ct =>
    exact blindRule_congr
      (blindRule_done (f := fun u => { u with ct := ct, phase := .codes })
        (blind_of_commutes rfl rfl fun _ _ _ => rfl))
      fun _ _ _ => by simp only [buildCodesRule, State.withPorts, hv]

theorem blindRule_encByteRule (b : Byte) (s : State) : BlindRule (encByteRule b) s := by
  cases hr : Memory.read s.ct (symbolOfByte b) with
  | none =>
    exact blindRule_congr (blindRule_done (blind_raise .malformedInput s)) fun _ _ _ => by
      simp only [encByteRule, State.withPorts, hr]; rfl
  | some e =>
    exact blindRule_congr
      (blindRule_done (blind_comp (blind_packBits e.code s)
        (blind_of_commutes (f := fun u => { u with phase := .enc }) rfl rfl fun _ _ _ => rfl)))
      fun _ _ _ => by simp only [encByteRule, State.withPorts, hr]

theorem blindRule_encEndRule (s : State) : BlindRule encEndRule s := by
  cases hr : Memory.read s.ct Config.eof with
  | none =>
    exact blindRule_congr (blindRule_done (blind_raise .malformedInput s)) fun _ _ _ => by
      simp only [encEndRule, State.withPorts, hr]; rfl
  | some e =>
    exact blindRule_congr
      (blindRule_done (blind_comp (blind_packBits e.code s) (blind_comp (blind_packFlush _)
        (blind_of_commutes (f := fun u => { u.releaseTree with phase := .encDone }) rfl rfl fun _ _ _ => rfl))))
      fun _ _ _ => by simp only [encEndRule, State.withPorts, hr]

/-- The tests of HDR_BYTE raise or end the command (R171). -/
theorem blindRule_checkEntryCount (s : State) : BlindRule checkEntryCount s :=
  blindRule_ite (c := fun s => s.hn = 0 ∨ Config.nsym < s.hn.toNat) (fun _ _ _ => Iff.rfl)
    (fun _ => blindRule_done (blind_raise _ s)) fun _ => blindRule_done (blind_id s)

theorem blindRule_checkSymbol (k : Nat) (s : State) : BlindRule (checkSymbol k) s :=
  blindRule_ite (c := fun s => Config.eof < s.hsym.toNat) (fun _ _ _ => Iff.rfl)
    (fun _ => blindRule_done (blind_raise _ s)) fun _ =>
  blindRule_ite (c := fun s => 0 < k ∧ s.hsym.toNat ≤ s.hprev.toNat) (fun _ _ _ => Iff.rfl)
    (fun _ => blindRule_done (blind_raise _ s)) fun _ =>
  blindRule_ite (c := fun s => k + 1 = s.hn.toNat ∧ s.hsym.toNat ≠ Config.eof) (fun _ _ _ => Iff.rfl)
    (fun _ => blindRule_done (blind_raise _ s)) fun _ =>
  blindRule_done (blind_id s)

theorem blindRule_storeEntry (k : Nat) (s : State) : BlindRule (storeEntry k) s :=
  blindRule_ite (c := fun s => s.hcnt = 0) (fun _ _ _ => Iff.rfl)
    (fun _ => blindRule_done (blind_raise _ s)) fun _ =>
  blindRule_ite (c := fun s => Config.nsym ≤ s.hsym.toNat) (fun _ _ _ => Iff.rfl)
    (fun _ => blindRule_stop _) fun _ =>
  blindRule_done (blind_of_commutes rfl rfl fun _ _ _ => rfl)

/-- A rule run on an update of other fields. -/
theorem blindRule_comp (hout : (f s).out = s.out) (hhost : (f s).host = s.host)
    (hf : ∀ out host resp, f (s.withPorts out host resp) = (f s).withPorts out host resp)
    (h : BlindRule rule (f s)) : BlindRule (fun s => rule (f s)) s := by
  simpa only [BlindRule, hf, hout, hhost] using h

theorem blindRule_entryByte (b : Byte) (k j : Nat) (s : State) : BlindRule (entryByte b k j) s :=
  blindRule_ite (c := fun _ => j = 0) (fun _ _ _ => Iff.rfl)
    (fun _ => blindRule_done (blind_of_commutes rfl rfl fun _ _ _ => rfl)) fun _ =>
  blindRule_ite (c := fun _ => j = 1) (fun _ _ _ => Iff.rfl)
    (fun _ => blindRule_comp rfl rfl (fun _ _ _ => rfl) (blindRule_checkSymbol k _)) fun _ =>
  blindRule_ite (c := fun _ => j = 5) (fun _ _ _ => Iff.rfl)
    (fun _ => blindRule_comp rfl rfl (fun _ _ _ => rfl) (blindRule_storeEntry k _)) fun _ =>
  blindRule_done (blind_of_commutes rfl rfl fun _ _ _ => rfl)

theorem blindRule_hdrByteAt (b : Byte) (p : Nat) (s : State) : BlindRule (hdrByteAt b p) s :=
  blindRule_ite (c := fun _ => p = 0) (fun _ _ _ => Iff.rfl)
    (fun _ => blindRule_done (blind_of_commutes rfl rfl fun _ _ _ => rfl)) fun _ =>
  blindRule_ite (c := fun _ => p = 1) (fun _ _ _ => Iff.rfl)
    (fun _ => blindRule_comp rfl rfl (fun _ _ _ => rfl) (blindRule_checkEntryCount _)) fun _ =>
  blindRule_entryByte b _ _ s

/-- No rule but CLEAR's sees OUT, the host's moves or the last response; CLEAR's empties OUT (R188). -/
theorem blindRule_ruleOf (hi : i ≠ .clear) (s : State) : BlindRule (ruleOf i) s := by
  cases i with
  | nop => exact blindRule_done (blind_id s)
  | clear => exact absurd rfl hi
  | freqByte | freqEnd => exact blindRule_countSymbol _ _ s
  | buildTree => exact blindRule_buildTreeRule s
  | buildCodes => exact blindRule_buildCodesRule s
  | hdrEmit => exact blindRule_done ⟨headerOf s.ftN s.ft, rfl, rfl, fun _ _ _ => rfl⟩
  | encByte b => exact blindRule_encByteRule b s
  | encEnd => exact blindRule_encEndRule s
  | hdrByte b =>
    exact blindRule_congr
      (blindRule_comp (f := fun u => { u with phase := .hdr, hpos := u.hpos + 1 }) rfl rfl (fun _ _ _ => rfl)
        (blindRule_hdrByteAt b s.hpos.toNat _))
      fun _ _ _ => rfl
  | decBit t =>
    exact blindRule_congr (blindRule_done (blind_walked _ s)) fun out host resp =>
      (walks_decBit t).ruleOf_eq (s.withPorts out host resp)
  | decByte b =>
    exact blindRule_congr (blindRule_done (blind_walked _ s)) fun out host resp =>
      (walks_decByte b).ruleOf_eq (s.withPorts out host resp)
  | decEnd => exact blindRule_done (blind_raise _ s)
  | rdReg | rdFreq | rdNode | rdCode => exact blindRule_answer fun _ _ _ => rfl

/-- No command but CLEAR sees them either: the gate goes by PHASE (R89). -/
theorem blindRule_exec (hi : i ≠ .clear) (s : State) : BlindRule (exec i) s := by
  have hexec : ∀ out host resp,
      exec i (s.withPorts out host resp) = command i (ruleOf i) (s.withPorts out host resp) := fun _ _ _ => exec_eq_command i _
  cases hg : gateOf i s.phase with
  | run => exact blindRule_congr (blindRule_ruleOf hi s) fun _ _ _ => (hexec ..).trans (command_of_run hg)
  | noEffect =>
    exact blindRule_congr (blindRule_done (blind_id s))
      fun _ _ _ => (hexec ..).trans (command_of_noEffect hg)
  | raises e =>
    exact blindRule_congr (blindRule_done (blind_raise e s)) fun _ _ _ => (hexec ..).trans (command_of_raises hg)

/-- Settles O49: CLEAR keeps the host's moves alone, and no other command sees them or the last response. -/
theorem commandsSeeNoLaterCommand : Obligations.CommandsSeeNoLaterCommand := by
  intro i s t h
  by_cases hi : i = .clear
  · subst hi
    rw [exec_clear] at h
    injection h with h
    subst h
    exact ⟨rfl, fun _ _ => rfl⟩
  · obtain ⟨bs, hout, hhost, hports⟩ := blindRule_exec hi s t h
    refine ⟨hhost, fun later resp => (hports s.out later resp).trans ?_⟩
    rw [← hout]

/-- Settles O52: the bytes a command appends and what else it does are the same whatever OUT holds. -/
theorem outIsAppendOnly : Obligations.OutIsAppendOnly := by
  intro i s t h hi
  obtain ⟨bs, hout, hhost, hports⟩ := blindRule_exec hi s t h
  refine ⟨bs, hout, fun out => (hports out s.host s.resp).trans ?_⟩
  rw [← hhost]

end Sys2Proof.Machine
end

section
/-! Codes and the tree (spec/42_code_table.md rule R128, spec/44_decoder_unpacker.md rule R150): of the codes in
use none begins another, and the walker decodes a leaf path to the leaf's symbol. -/

namespace Sys2Proof.Machine

open Sys2Proof.Safety

variable {s : State} {x : Nat} {c : Code}

/-- While codes are in use the code of a symbol is its leaf path (R128). -/
theorem leafPath_codeOf (hc : Consistent s) (hs : s.phase = .codes ∨ s.phase = .enc) (h : s.ctValid x = true) :
    LeafPath s.node s.root x (codeOf s x) := by
  obtain ⟨e, he, hcode⟩ := read_of_ctValid h
  rw [hcode]
  exact hc.ctPaths (by rcases hs with h | h <;> simp [h]) (x, e) (Memory.mem_of_read he)

/-- Settles O27: the codes are leaf paths of one tree. -/
theorem codesArePrefixFree : Obligations.CodesArePrefixFree := fun _ hc hs _ _ hxy hx hy =>
  leafPath_not_prefix hxy (leafPath_codeOf hc hs hx) (leafPath_codeOf hc hs hy)

/-- The root of a tree is internal, so that a leaf path has a bit, and a leaf has a symbol of FT (R116). -/
theorem leafPath_of_tree (hc : Consistent s) (hs : s.phase = .tree ∨ s.phase = .dec)
    (h : LeafPath s.node s.root x c) : c ≠ [] ∧ x < Config.nsym := by
  have hvalid : s.treeValid = true := hc.treeInPhase.2 (by rcases hs with h | h <;> simp [h, treePhases])
  have hne := ft_ne_nil_of_final hc (by rcases hs with h | h <;> simp [h, finalTable])
  obtain ⟨A, -, hroot⟩ := hc.treeBuilt hvalid
  have hL := leafCount_bounds hc.ftForm
  have hsize := A.size
  obtain ⟨hbelow, hx⟩ := leafPath_iff.1 h
  refine ⟨?_, ?_⟩
  · rintro rfl
    exact leafBelow_nil.1 hbelow (A.internal _ (by omega) (by omega)).1
  · obtain ⟨-, -, hleaf⟩ := leafBelow_length hc.ftForm hne A (by omega) hbelow
    exact hx ▸ (arena_leaf_sym hc.ftForm hne A hleaf).1

/-- Settles O37: one DEC_BIT per bit walks the path, at whose end the leaf's symbol is a literal or the sentinel. -/
theorem codesDecodeToTheirSymbol : Obligations.CodesDecodeToTheirSymbol := by
  intro s x c hc hs hcur h
  obtain ⟨hne, hx⟩ := leafPath_of_tree hc hs h
  obtain ⟨hbelow, hsym⟩ := leafPath_iff.1 h
  have hdecode := decodeBits_leafBelow (root := s.root) hbelow hne []
  rw [List.append_nil] at hdecode
  have hrun : runAll (c.map fun t => .decBit (BitVec.ofBool t)) s = .next (responded 0 (s.walked c)) := by
    rw [← decoded_of_walking hs]
    obtain ⟨t, c, rfl⟩ := List.exists_cons_of_ne_nil hne
    exact runAll_decBits t c s
  have heof : symAt s.node (descend s.node s.root c) = Config.eofSym ↔ x = 256 := by
    rw [← hsym, ← BitVec.toNat_inj]; rfl
  refine ⟨s.walked c, hrun, fun h256 => ?_, fun h256 => ⟨?_, ?_⟩⟩
  · rw [if_pos (heof.2 h256)] at hdecode
    rw [State.walked, hcur, hdecode]
    simp only [List.append_nil]
    rfl
  · exact Nat.lt_of_le_of_ne (Nat.le_of_lt_succ hx) h256
  · rw [if_neg (mt heof.1 h256), hsym] at hdecode
    rw [State.walked, hcur, hdecode, ← hcur]
    rfl

end Sys2Proof.Machine
end
